-- ==== Sys2Proof/Word.lean ====
section
/-! DEFINITION. The word types of HUFFDEC (00_scope.md R5): plain bit vectors of the widths the spec gives. -/

namespace Sys2Proof

/-- One byte of SRC, a sample, a symbol or a marker code. -/
abbrev Byte := BitVec 8

/-- A register of the register space, and a command word (10_state.md R33, 30_encoding.md R110). -/
abbrev Word := BitVec 32

/-- COEF_WIDTH: a coefficient or predictor, 16-bit two's complement (00_scope.md R5). -/
abbrev Coef := BitVec 16

/-- An 8×8 coefficient block in natural (row-major) order (00_scope.md R12). -/
abbrev Block := Vector Coef 64

end Sys2Proof
end

