-- ==== Sys2Proof/Syntax.lean ====
section
/-! DEFINITION. The command set: one constructor per row of spec/opcode_table.json (30_encoding.md R117), its operands the
fields of its format (R112) at the widths the format gives them. -/

namespace Sys2Proof

/-- The class operand k of format T, and the class of a Huffman slot (10_state.md R55): 0 = DC, 1 = AC. -/
inductive HuffClass where
  | dc | ac
deriving DecidableEq, Repr

/-- The mode operand D of format E: 0 = store into COEF, 1 = discard into SCRATCH (30_encoding.md R112). -/
inductive Mode where
  | store | discard
deriving DecidableEq, Repr

/-- The six formats of 30_encoding.md R112. -/
inductive Format where
  | N | B | T | E | Q | U
deriving DecidableEq, Repr

/-- The 21 commands of 30_encoding.md R117. -/
inductive Instr where
  | nop
  | softReset
  | coefClear
  | brReset
  | brGetbits (n : BitVec 5)
  | brPeekbits (n : BitVec 5)
  | htDefine
  | htDecode (k : HuffClass) (i : BitVec 2)
  | htReceiveExtend (n : BitVec 5)
  | qtDefine
  | edScanStart
  | edRestart
  | edBaseline (c td ta : BitVec 2) (d : Mode)
  | edDcFirst (c td ta : BitVec 2) (d : Mode)
  | edDcRefine (c td ta : BitVec 2) (d : Mode)
  | edAcFirst (c td ta : BitVec 2) (d : Mode)
  | edAcRefine (c td ta : BitVec 2) (d : Mode)
  | idct (q : BitVec 2)
  | ccYcc
  | ccGray
  | upMap (c : BitVec 2) (px py : BitVec 5)
deriving DecidableEq, Repr

end Sys2Proof
end

