-- ==== Sys2Proof/WellFormed.lean ====
section
/-! DEFINITION. Which command terms are well formed: the operand value checks of 30_encoding.md R116 that need no register
(UP_MAP's further checks read FRAMECFG and COMPCFG and stand in its meaning, 45_color_upsample.md R294). -/

namespace Sys2Proof

/-- Format B: n ≤ 16 = MAX_GETBITS (30_encoding.md R116). -/
def bitCountOk (n : BitVec 5) : Bool := n ≤ 16#5

/-- Formats E and U: c ≤ 2, one of three components (30_encoding.md R116). -/
def componentOk (c : BitVec 2) : Bool := c ≤ 2#2

/-- The value checks of 30_encoding.md R116, format by format; formats N, T and Q have none. -/
def Instr.wellFormed : Instr → Bool
  | .nop | .softReset | .coefClear | .brReset | .htDefine | .qtDefine | .edScanStart | .edRestart | .ccYcc | .ccGray => true
  | .brGetbits n | .brPeekbits n | .htReceiveExtend n => bitCountOk n
  | .htDecode _ _ => true
  | .edBaseline c _ _ _ | .edDcFirst c _ _ _ | .edDcRefine c _ _ _ | .edAcFirst c _ _ _ | .edAcRefine c _ _ _ => componentOk c
  | .idct _ => true
  | .upMap c _ _ => componentOk c

end Sys2Proof
end

