-- ==== Sys2Proof/Decode.lean ====
section
/-! DEFINITION. The decoder of 30_encoding.md R110–R118: total on every 32-bit word, an illegal word refused by name; after it
the encoder, written from the same formats. -/

namespace Sys2Proof

/-- Why a word is illegal: the three checks of 30_encoding.md R113, in its order. Each makes the machine raise ILLEGAL. -/
inductive DecodeError where
  /-- The opcode byte is not in the opcode map (R117, R118). -/
  | unknownOpcode (op : Byte)
  /-- A bit the format marks 0 is 1 (R114). -/
  | reservedBit (f : Format)
  /-- An operand value check of R116 fails. -/
  | operandValue (i : Instr)
deriving DecidableEq, Repr

/-- The k operand as a class (30_encoding.md R112: 0 DC, 1 AC). -/
def HuffClass.ofBit : Bool → HuffClass
  | false => .dc
  | true => .ac

/-- The class as its k bit. -/
def HuffClass.toBit : HuffClass → BitVec 1
  | .dc => 0#1
  | .ac => 1#1

/-- The D operand as a mode (30_encoding.md R112: discard (1) or store (0)). -/
def Mode.ofBit : Bool → Mode
  | false => .store
  | true => .discard

/-- The mode as its D bit. -/
def Mode.toBit : Mode → BitVec 1
  | .store => 0#1
  | .discard => 1#1

/-- The format of each command (30_encoding.md R117). -/
def Instr.format : Instr → Format
  | .nop | .softReset | .coefClear | .brReset | .htDefine | .qtDefine | .edScanStart | .edRestart | .ccYcc | .ccGray => .N
  | .brGetbits _ | .brPeekbits _ | .htReceiveExtend _ => .B
  | .htDecode _ _ => .T
  | .edBaseline _ _ _ _ | .edDcFirst _ _ _ _ | .edDcRefine _ _ _ _ | .edAcFirst _ _ _ _ | .edAcRefine _ _ _ _ => .E
  | .idct _ => .Q
  | .upMap _ _ _ => .U

/-- The opcode byte of each command (30_encoding.md R117). -/
def Instr.opcode : Instr → Byte
  | .nop => 0x00#8
  | .softReset => 0x01#8
  | .coefClear => 0x02#8
  | .brReset => 0x10#8
  | .brGetbits _ => 0x11#8
  | .brPeekbits _ => 0x12#8
  | .htDefine => 0x20#8
  | .htDecode _ _ => 0x21#8
  | .htReceiveExtend _ => 0x22#8
  | .qtDefine => 0x28#8
  | .edScanStart => 0x30#8
  | .edRestart => 0x31#8
  | .edBaseline _ _ _ _ => 0x32#8
  | .edDcFirst _ _ _ _ => 0x33#8
  | .edDcRefine _ _ _ _ => 0x34#8
  | .edAcFirst _ _ _ _ => 0x35#8
  | .edAcRefine _ _ _ _ => 0x36#8
  | .idct _ => 0x40#8
  | .ccYcc => 0x50#8
  | .ccGray => 0x51#8
  | .upMap _ _ _ => 0x58#8

/-- The bits of CMD[31:8] each format marks 0, read off the bit strings of 30_encoding.md R112. -/
def Format.reserved : Format → Word
  | .N => 0xFFFFFF00#32
  | .B => 0xFFFFE000#32
  | .T => 0xFFFFEC00#32
  | .E => 0xFFFEC000#32
  | .Q => 0xFFFFFC00#32
  | .U => 0xE0E0FC00#32

/-- Operand fields of a word (30_encoding.md R115). -/
def fieldN (w : Word) : BitVec 5 := w.extractLsb' 8 5
def fieldC (w : Word) : BitVec 2 := w.extractLsb' 8 2
def fieldTd (w : Word) : BitVec 2 := w.extractLsb' 10 2
def fieldTa (w : Word) : BitVec 2 := w.extractLsb' 12 2
def fieldK (w : Word) : HuffClass := HuffClass.ofBit (w.getLsbD 12)
def fieldD (w : Word) : Mode := Mode.ofBit (w.getLsbD 16)
def fieldPx (w : Word) : BitVec 5 := w.extractLsb' 16 5
def fieldPy (w : Word) : BitVec 5 := w.extractLsb' 24 5

/-- The command the opcode byte selects, with the operand fields of its format (30_encoding.md R111, R115, R117);
none for an opcode byte outside the map (R118). -/
def instrOfWord (w : Word) : Option Instr :=
  match (w.extractLsb' 0 8).toNat with
  | 0x00 => some .nop
  | 0x01 => some .softReset
  | 0x02 => some .coefClear
  | 0x10 => some .brReset
  | 0x11 => some (.brGetbits (fieldN w))
  | 0x12 => some (.brPeekbits (fieldN w))
  | 0x20 => some .htDefine
  | 0x21 => some (.htDecode (fieldK w) (fieldC w))
  | 0x22 => some (.htReceiveExtend (fieldN w))
  | 0x28 => some .qtDefine
  | 0x30 => some .edScanStart
  | 0x31 => some .edRestart
  | 0x32 => some (.edBaseline (fieldC w) (fieldTd w) (fieldTa w) (fieldD w))
  | 0x33 => some (.edDcFirst (fieldC w) (fieldTd w) (fieldTa w) (fieldD w))
  | 0x34 => some (.edDcRefine (fieldC w) (fieldTd w) (fieldTa w) (fieldD w))
  | 0x35 => some (.edAcFirst (fieldC w) (fieldTd w) (fieldTa w) (fieldD w))
  | 0x36 => some (.edAcRefine (fieldC w) (fieldTd w) (fieldTa w) (fieldD w))
  | 0x40 => some (.idct (fieldC w))
  | 0x50 => some .ccYcc
  | 0x51 => some .ccGray
  | 0x58 => some (.upMap (fieldC w) (fieldPx w) (fieldPy w))
  | _ => none

/-- The decoder: the three checks of 30_encoding.md R113 in its order. -/
def decode (w : Word) : Except DecodeError Instr :=
  match instrOfWord w with
  | none => .error (.unknownOpcode (w.extractLsb' 0 8))
  | some i =>
    if w &&& i.format.reserved ≠ 0#32 then .error (.reservedBit i.format)
    else if i.wellFormed then .ok i
    else .error (.operandValue i)

/-- The operand bits of each command at their places in the word (30_encoding.md R112). -/
def Instr.operands : Instr → Word
  | .nop | .softReset | .coefClear | .brReset | .htDefine | .qtDefine | .edScanStart | .edRestart | .ccYcc | .ccGray => 0#32
  | .brGetbits n | .brPeekbits n | .htReceiveExtend n => n.setWidth 32 <<< 8
  | .htDecode k i => (k.toBit.setWidth 32 <<< 12) ||| (i.setWidth 32 <<< 8)
  | .edBaseline c td ta d | .edDcFirst c td ta d | .edDcRefine c td ta d | .edAcFirst c td ta d | .edAcRefine c td ta d =>
    (d.toBit.setWidth 32 <<< 16) ||| (ta.setWidth 32 <<< 12) ||| (td.setWidth 32 <<< 10) ||| (c.setWidth 32 <<< 8)
  | .idct q => q.setWidth 32 <<< 8
  | .upMap c px py => (py.setWidth 32 <<< 24) ||| (px.setWidth 32 <<< 16) ||| (c.setWidth 32 <<< 8)

/-- The encoder: the word of a command (30_encoding.md R112, R117). -/
def encode (i : Instr) : Word := i.operands ||| i.opcode.setWidth 32

/-- The instruction the decoder reads from a table row's bits: a HUFFDEC command is one 32-bit word (30_encoding.md R110), so the
row's bits are the word's, and every bit above `nbits` is 0. -/
def decodeTableWord (nbits w : Nat) : Option Instr :=
  match decode (BitVec.ofNat 32 (w % 2 ^ nbits)) with
  | .ok i => some i
  | .error _ => none

end Sys2Proof
end

