-- ==== Sys2Proof/Config.lean ====
section
/-! DEFINITION. What the spec leaves to the platform or does not fix: free values, each an opaque constant with no body, so that
nothing can be proved about what it is. The fixed parameters of 00_scope.md R5 stand where they are used. -/

namespace Sys2Proof.Config

/-- FREE VALUE (log 4). The byte SRC holds at an address the host has not placed a byte at since the latest power-on:
"SRC after power-on: any value" (93_implementation_defined.md I8, 70_reset_and_hazards.md R341). It depends on the number of
power-on resets so far and on the address, so that reading one address twice gives one byte (20_memory.md R98). -/
opaque srcPowerOn : Nat → BitVec 32 → Byte

/-- FREE VALUE (log 6). What SRCPOS holds after ED_RESTART's `R[SRCPOS] + 2` (43_entropy.md R225) when that sum does not fit
SRCPOS's 32 bits: the spec states no result there. The argument is State's plain counter `freeDraws`. -/
opaque srcposOverflow : Nat → BitVec 32

/-- FREE VALUE (log 7). What the slow path's `HUFFVAL[VALPTR[l] + code − MINCODE[l]]` (42_huffman.md R190) gives at an index outside
0..255, which no slot that HT_DEFINE builds asks for: the spec states no value there. -/
opaque huffvalOutside : Int → Byte

/-- OPEN PARAMETER REG_BASE (20_memory.md R99, 92_eei_decisions.md D44; log 10): where the platform puts the register space. -/
opaque regBase : Nat

end Sys2Proof.Config
end

