-- ==== Sys2Proof/Machine/State.lean ====
section
/-! DEFINITION. The state of HUFFDEC (10_state.md) and of the host's side its steps read, as plain data; the reasons a step can
stop; the reset state (10_state.md R64). -/

namespace Sys2Proof.Machine

/-- The ten error codes of 60_exceptions.md R312. -/
inductive ErrorCode where
  | illegal | parseEos | parseIndex | parseCount | parseCodelen
  | badTable | badCode | badSym | badRun | rstMiss
deriving DecidableEq, Repr

/-- The recorded errors of STATUS (10_state.md R37). -/
structure Errors where
  /-- STATUS[14:8], bit 0 = E_ILLEGAL … bit 6 = E_RSTMISS. -/
  sticky : BitVec 7
  /-- STATUS[19:16]. -/
  errcode : BitVec 4
deriving DecidableEq, Repr

/-- The bit reader with the stream position (10_state.md R39, R41–R43). -/
structure Reader where
  /-- SRCPOS: the SRC address of the next byte (R39). -/
  srcpos : Word
  /-- BRACC: the bit accumulator (R42). -/
  bracc : Word
  /-- BRSTATE.BITCNT: how many low bits of BRACC are buffered (R41; 0–23 by 41_bitreader.md R150). -/
  bitcnt : Nat
  /-- BRSTATE.HALT. -/
  halt : Bool
  /-- BRSTATE.EOS. -/
  eos : Bool
  /-- BRSTATE.MARKER_VALID. -/
  markerValid : Bool
  /-- BRSTATE.MARKER. -/
  marker : Byte
  /-- BRSTATE.LASTRST. -/
  lastrst : BitVec 3
  /-- BRSTATE.LASTRST_VALID. -/
  lastrstValid : Bool
  /-- CONSUMED: bits consumed, modulo 2^32 (R43). -/
  consumed : Word
deriving DecidableEq, Repr

/-- SCANCFG (10_state.md R44). -/
structure ScanCfg where
  ss : BitVec 6
  se : BitVec 6
  ah : BitVec 4
  al : BitVec 4
deriving DecidableEq, Repr

/-- One COMPCFG register (10_state.md R51). -/
structure CompCfg where
  h : BitVec 3
  v : BitVec 3
deriving DecidableEq, Repr

/-- One Huffman table slot (10_state.md R56). Index j of the per-length fields is length l = j + 1. -/
structure HuffSlot where
  valid : Bool
  nvals : BitVec 9
  counts : Vector Byte 16
  mincode : Vector (BitVec 17) 16
  /-- two's complement -/
  maxcode : Vector Word 16
  valptr : Vector (BitVec 9) 16
  huffval : Vector Byte 256
  /-- FAST[p] bits 11:8 -/
  fastlen : Vector (BitVec 4) 256
  /-- FAST[p] bits 7:0 -/
  fastsym : Vector Byte 256
deriving DecidableEq, Repr

/-- SRC's contents: the bytes the host has placed, as (address, byte) pairs with strictly rising addresses (20_memory.md R91).
An unlisted address holds no placed byte (log 4). -/
abbrev Memory := List Host.Cell

/-- What the host may do between two commands (70_reset_and_hazards.md R353), and power-on reset (R340 a). `bytes` is the width of
a register access; the spec gives only the aligned 4-byte access a meaning (20_memory.md R97). -/
inductive HostEvent where
  /-- read the register at `offset` -/
  | read (offset : BitVec 16) (bytes : Nat)
  /-- write `value` to the register at `offset` -/
  | write (offset : BitVec 16) (bytes : Nat) (value : Word)
  /-- place a byte in SRC -/
  | placeSrc (addr : BitVec 32) (byte : Byte)
  /-- assert the platform's hardware reset -/
  | powerOnReset
deriving DecidableEq, Repr

/-- The machine: HUFFDEC's architected state (10_state.md R32), then the host's side and the model's own fields. -/
structure State where
  /-- STATUS sticky bits and ERRCODE (R37). -/
  errors : Errors
  /-- RESULT (R38). -/
  result : Word
  /-- SRCPOS, BRSTATE, BRACC, CONSUMED (R39, R41–R43). -/
  reader : Reader
  /-- SRCLEN (R40). -/
  srclen : Word
  /-- SCANCFG (R44). -/
  scancfg : ScanCfg
  /-- EOBRUN (R45). -/
  eobrun : BitVec 16
  /-- PRED0, PRED1, PRED2 (R46). -/
  pred : Vector Coef 3
  /-- NZMASK_HI:NZMASK_LO (R47). -/
  nzmask : BitVec 64
  /-- CCIN (R48). -/
  ccin : BitVec 24
  /-- CCOUT (R49). -/
  ccout : BitVec 24
  /-- FRAMECFG.NCOMP (R50). -/
  ncomp : BitVec 2
  /-- COMPCFG0, COMPCFG1, COMPCFG2 (R51). -/
  compcfg : Vector CompCfg 3
  /-- COEF[0..63] (R52). -/
  coef : Block
  /-- SCRATCH[0..63] (R53). -/
  scratch : Block
  /-- SAMPLE[0..63] (R54). -/
  sample : Vector Byte 64
  /-- The eight Huffman table slots (R55, R56). -/
  ht : Vector HuffSlot 8
  /-- QT[0..3][0..63] (R58). -/
  qt : Vector (Vector (BitVec 16) 64) 4
  /-- SRC: host memory (20_memory.md R90, R91); not HUFFDEC state (R64). -/
  src : Memory
  /-- MODEL'S OWN (log 5): how many power-on resets there have been; indexes the free bytes of SRC. -/
  srcEpoch : Nat
  /-- MODEL'S OWN (log 1): the host's pending actions, oldest first. -/
  hostQueue : List HostEvent
  /-- MODEL'S OWN (log 3): the read data of the latest host read. -/
  readData : Word
  /-- MODEL'S OWN (log 6): how many free values of an overflowed SRCPOS have been drawn. -/
  freeDraws : Nat
deriving DecidableEq, Repr

/-- What stops the machine with a fault: nothing. HUFFDEC has no traps (60_exceptions.md R310), no access faults (R323) and records
every error in STATUS (R311), so this type has no constructor (log 14): no step ever faults. -/
inductive Fault where
deriving DecidableEq, Repr

/-- Why a step has no meaning. -/
inductive Refusal where
  /-- An instruction whose meaning is not written. Raised only by an arm of `exec`; none is left. Safe: the run stops. -/
  | notModelled (mnemonic : String)
  /-- A host register access that is not 4 bytes wide at an offset that is a multiple of 4: "The model refuses a narrower, wider or
  misaligned host access" (20_memory.md R97). Raised by the host port. Safe: the run stops and no claim is made (log 9). -/
  | hostAccessNotAlignedWord
deriving DecidableEq, Repr

/-- What a step answers. -/
abbrev Result := Host.Outcome State Fault Refusal

/-- No error recorded (10_state.md R64). -/
def Errors.reset : Errors := { sticky := 0#7, errcode := 0#4 }

/-- The reader after power-on reset and SOFT_RESET (10_state.md R64). BR_RESET clears less (41_bitreader.md R156). -/
def Reader.reset : Reader :=
  { srcpos := 0#32, bracc := 0#32, bitcnt := 0, halt := false, eos := false, markerValid := false, marker := 0#8,
    lastrst := 0#3, lastrstValid := false, consumed := 0#32 }

/-- An undefined slot: VALID = 0, every other field 0 (10_state.md R57, R64). -/
def HuffSlot.reset : HuffSlot :=
  { valid := false, nvals := 0#9, counts := Vector.replicate 16 0#8, mincode := Vector.replicate 16 0#17,
    maxcode := Vector.replicate 16 0#32, valptr := Vector.replicate 16 0#9, huffval := Vector.replicate 256 0#8,
    fastlen := Vector.replicate 256 0#4, fastsym := Vector.replicate 256 0#8 }

/-- The reset state: 10_state.md R64 for HUFFDEC; nothing placed in SRC; the model's own fields at the values logs 1, 3, 5, 6 name. -/
def State.reset : State :=
  { errors := Errors.reset, result := 0#32, reader := Reader.reset, srclen := 0#32,
    scancfg := { ss := 0#6, se := 0#6, ah := 0#4, al := 0#4 }, eobrun := 0#16, pred := Vector.replicate 3 0#16,
    nzmask := 0#64, ccin := 0#24, ccout := 0#24, ncomp := 0#2,
    compcfg := Vector.replicate 3 { h := 0#3, v := 0#3 },
    coef := Vector.replicate 64 0#16, scratch := Vector.replicate 64 0#16, sample := Vector.replicate 64 0#8,
    ht := Vector.replicate 8 HuffSlot.reset, qt := Vector.replicate 4 (Vector.replicate 64 0#16),
    src := [], srcEpoch := 0, hostQueue := [], readData := 0#32, freeDraws := 0 }

end Sys2Proof.Machine
end

