-- ==== Sys2Proof/Machine/Ops.lean ====
section
/-! DEFINITION. The named operations every command uses: integer narrowing (00_scope.md R9), the zigzag table (10_state.md R62),
SRC as a canonical memory and SrcRead (20_memory.md R92), and `raise Error` (60_exceptions.md R311), which is what this hardware
has in place of taking an exception: nothing is saved, no mode changes, control goes nowhere (R317). -/

namespace Sys2Proof.Machine

/-- `x >> n` on a signed integer: floor division by 2^n (00_scope.md R9). -/
def asr (x : Int) (n : Nat) : Int := x / 2 ^ n

/-- `wrap16`: an integer to 16-bit two's complement (00_scope.md R9). -/
def wrap16 (x : Int) : Coef := BitVec.ofInt 16 x

/-- `clamp(x, lo, hi)` (00_scope.md R9). -/
def clamp (x lo hi : Int) : Int := min hi (max lo x)

/-- f i, f (i + 1), …, n entries. -/
def tabFrom {α : Type} (f : Nat → α) : Nat → Nat → List α
  | _, 0 => []
  | i, n + 1 => f i :: tabFrom f (i + 1) n

theorem tabFrom_length {α : Type} (f : Nat → α) (i n : Nat) : (tabFrom f i n).length = n := by
  induction n generalizing i with
  | zero => rfl
  | succ n ih => simp [tabFrom, ih]

/-- The array whose entry i is f i. -/
def tabulate {α : Type} (n : Nat) (f : Nat → α) : Vector α n := ⟨⟨tabFrom f 0 n⟩, by simp [tabFrom_length]⟩

/-- Entry i of an array of fields, 0 past its end. -/
def entry {n w : Nat} (v : Vector (BitVec w) n) (i : Nat) : BitVec w := (v[i]?).getD 0

/-- ZZ[0..63] (10_state.md R62), one row of the rule's listing a piece. -/
def zzTable : List (Fin 64) :=
  [0, 1, 8, 16, 9, 2, 3, 10] ++ [17, 24, 32, 25, 18, 11, 4, 5] ++
  [12, 19, 26, 33, 40, 48, 41, 34] ++ [27, 20, 13, 6, 7, 14, 21, 28] ++
  [35, 42, 49, 56, 57, 50, 43, 36] ++ [29, 22, 15, 23, 30, 37, 44, 51] ++
  [58, 59, 52, 45, 38, 31, 39, 46] ++ [53, 60, 61, 54, 47, 55, 62, 63]

/-- ZZ[k], the natural index of zigzag position k ≤ 63 (10_state.md R62). -/
def zz (k : Nat) : Fin 64 := zzTable.getD k 0

/-- The zigzag position of natural index i: ZZ is a permutation (10_state.md R62). -/
def zzInv (i : Nat) : Nat := (zzTable.map Fin.val).idxOf i

/-! ### SRC -/

/-- The byte placed at an address, none where the host has placed none. -/
def Memory.read : Memory → Nat → Option Byte
  | [], _ => none
  | (b, v) :: m, a => if a = b then some v else Memory.read m a

/-- Place a byte at an address, keeping the addresses strictly rising. -/
def Memory.write : Memory → Nat → Byte → Memory
  | [], a, v => [(a, v)]
  | (b, u) :: m, a, v =>
    if a < b then (a, v) :: (b, u) :: m
    else if a = b then (a, v) :: m
    else (b, u) :: Memory.write m a v

/-- Every address of a memory is at least `lo` and the addresses strictly rise. -/
def Memory.risesFrom : Nat → Memory → Bool
  | _, [] => true
  | lo, (a, _) :: m => decide (lo ≤ a) && Memory.risesFrom (a + 1) m

/-- The canonical form: strictly rising 32-bit addresses. An unlisted address reads as no placed byte, which no entry equals. -/
def Memory.wf (m : Memory) : Bool := Memory.risesFrom 0 m && m.all (fun c => decide (c.1 < 2 ^ 32))

/-- What HUFFDEC's reads see: SRC's placed bytes, the power-on count that names the unplaced ones, and SRCLEN. -/
structure Source where
  cells : Memory
  epoch : Nat
  len : Word
deriving DecidableEq, Repr

/-- The source as the current command sees it: it cannot change while the command runs (20_memory.md R101). -/
def State.source (s : State) : Source := { cells := s.src, epoch := s.srcEpoch, len := s.srclen }

/-- SRC[a]: the byte the host last placed there (20_memory.md R91), a free value where it has placed none (log 4). -/
def Source.byte (m : Source) (a : Word) : Byte := (m.cells.read a.toNat).getD (Config.srcPowerOn m.epoch a)

/-- `SrcRead()` (20_memory.md R92): none is the end-of-stream sentinel. -/
def srcRead (m : Source) (r : Reader) : Option Byte × Reader :=
  if m.len ≤ r.srcpos then (none, r) else (some (m.byte r.srcpos), { r with srcpos := r.srcpos + 1#32 })

/-- n raw bytes by `SrcRead()` in order (20_memory.md R93); none if any of them is end of stream, with the bytes before it read. -/
def readBytes (m : Source) : Nat → Reader → Option (List Byte) × Reader
  | 0, r => (some [], r)
  | n + 1, r =>
    match srcRead m r with
    | (none, r') => (none, r')
    | (some b, r') =>
      match readBytes m n r' with
      | (none, r'') => (none, r'')
      | (some bs, r'') => (some (b :: bs), r'')

/-! ### raise Error -/

/-- The code column of 60_exceptions.md R312. -/
def ErrorCode.code : ErrorCode → BitVec 4
  | .illegal => 1#4
  | .parseEos => 2#4
  | .parseIndex => 3#4
  | .parseCount => 4#4
  | .parseCodelen => 5#4
  | .badTable => 6#4
  | .badCode => 7#4
  | .badSym => 8#4
  | .badRun => 9#4
  | .rstMiss => 10#4

/-- StickyBit(code): the STATUS bit number of 60_exceptions.md R312. -/
def ErrorCode.statusBit : ErrorCode → Nat
  | .illegal => 8
  | .parseEos | .parseIndex | .parseCount | .parseCodelen => 9
  | .badTable => 10
  | .badCode => 11
  | .badSym => 12
  | .badRun => 13
  | .rstMiss => 14

/-- `raise Error(code)` on the recorded errors: the sticky bit, and ERRCODE if it was 0 (60_exceptions.md R311). -/
def Errors.raise (e : ErrorCode) (x : Errors) : Errors :=
  { sticky := x.sticky ||| (1#7 <<< (e.statusBit - 8)),
    errcode := if x.errcode = 0#4 then e.code else x.errcode }

/-- Raise an error or none. -/
def Errors.raiseOpt : Option ErrorCode → Errors → Errors
  | none, x => x
  | some e, x => x.raise e

/-- `raise Error(code)`: no other state changes (60_exceptions.md R311). -/
def State.raise (e : ErrorCode) (s : State) : State := { s with errors := s.errors.raise e }

/-- Run a command's rule if its operand checks pass; otherwise it is illegal, which writes only E_ILLEGAL and ERRCODE
(30_encoding.md R113, 60_exceptions.md R316). -/
def guardOperands (ok : Bool) (s : State) (run : State) : State := if ok then run else s.raise .illegal

end Sys2Proof.Machine
end

