-- ==== Sys2Proof/Machine/Color.lean ====
section
/-! DEFINITION. The colour converter and the chroma upsampler (45_color_upsample.md): CC_YCC, CC_GRAY, UP_MAP. -/

namespace Sys2Proof.Machine

/-- The fields of CCIN (10_state.md R48). -/
def State.ccY (s : State) : Byte := s.ccin.extractLsb' 0 8
def State.ccCb (s : State) : Byte := s.ccin.extractLsb' 8 8
def State.ccCr (s : State) : Byte := s.ccin.extractLsb' 16 8

/-- A channel: Y plus a rounded 16-bit fixed-point term, clamped (45_color_upsample.md R290). -/
def channel (y : Byte) (term : Int) : Byte := BitVec.ofInt 8 (clamp ((y.toNat : Int) + asr (term + 2 ^ 15) 16) 0 255)

/-- R, G, B of CC_YCC with the constants KR, KGB, KGR, KB (45_color_upsample.md R290, R291). -/
def yccR (y _cb cr : Byte) : Byte := channel y (91881 * ((cr.toNat : Int) - 128))
def yccG (y cb cr : Byte) : Byte := channel y (-22554 * ((cb.toNat : Int) - 128) - 46802 * ((cr.toNat : Int) - 128))
def yccB (y cb _cr : Byte) : Byte := channel y (116130 * ((cb.toNat : Int) - 128))

/-- `Pack565(R, G, B)` (45_color_upsample.md R292): the top 5, 6 and 5 bits, R in bits 15:11. -/
def pack565 (r g b : Byte) : BitVec 16 := r.extractLsb' 3 5 ++ g.extractLsb' 2 6 ++ b.extractLsb' 3 5

/-- A conversion's two results: CCOUT and RESULT (45_color_upsample.md R290). -/
def State.emitPixel (r g b : Byte) (s : State) : State :=
  { s with ccout := b ++ g ++ r, result := (pack565 r g b).setWidth 32 }

/-- CC_YCC (45_color_upsample.md R290). -/
def execCcYcc (s : State) : Result :=
  .next (s.emitPixel (yccR s.ccY s.ccCb s.ccCr) (yccG s.ccY s.ccCb s.ccCr) (yccB s.ccY s.ccCb s.ccCr))

/-- CC_GRAY (45_color_upsample.md R293). -/
def execCcGray (s : State) : Result := .next (s.emitPixel s.ccY s.ccY s.ccY)

/-! ### Upsampler -/

/-- The (H, V) factors of the frame's components: 1×1 for a single component, which reads no COMPCFG (45_color_upsample.md R294). -/
def State.factors (s : State) : List (Nat × Nat) :=
  if s.ncomp = 1#2 then [(1, 1)]
  else (s.compcfg.toList.take s.ncomp.toNat).map fun f => (f.h.toNat, f.v.toNat)

/-- Hmax and Vmax: the largest factors, 0 for no component (45_color_upsample.md R294, 10_state.md R50). -/
def hMax (f : List (Nat × Nat)) : Nat := f.foldl (fun a x => max a x.1) 0
def vMax (f : List (Nat × Nat)) : Nat := f.foldl (fun a x => max a x.2) 0

/-- A sampling factor UP_MAP accepts: 1–4 (45_color_upsample.md R294). -/
def factorOk (n : Nat) : Bool := decide (1 ≤ n) && decide (n ≤ 4)

/-- The legality checks of UP_MAP (45_color_upsample.md R294): NCOMP, c, the factors, px and py. -/
def upMapLegal (f : List (Nat × Nat)) (c px py : Nat) : Bool :=
  decide (f ≠ []) && decide (c < f.length) && f.all (fun x => factorOk x.1 && factorOk x.2) &&
    decide (px < 8 * hMax f) && decide (py < 8 * vMax f)

/-- sx and sy: the nearest sample in the component's MCU area (45_color_upsample.md R294). -/
def sampleX (f : List (Nat × Nat)) (c px : Nat) : Nat := px * (f.getD c (0, 0)).1 / hMax f
def sampleY (f : List (Nat × Nat)) (c py : Nat) : Nat := py * (f.getD c (0, 0)).2 / vMax f

/-- Blocks of the earlier components (45_color_upsample.md R294, R295). -/
def blockOffset (f : List (Nat × Nat)) (c : Nat) : Nat := ((f.take c).map fun x => x.1 * x.2).sum

/-- The block within the MCU and the sample within the block (45_color_upsample.md R294). -/
def upBlock (f : List (Nat × Nat)) (c px py : Nat) : Nat :=
  blockOffset f c + sampleY f c py / 8 * (f.getD c (0, 0)).1 + sampleX f c px / 8
def upSample (f : List (Nat × Nat)) (c px py : Nat) : Nat := sampleY f c py % 8 * 8 + sampleX f c px % 8

/-- RESULT of UP_MAP: block << 8 | sample (45_color_upsample.md R294). -/
def upResult (f : List (Nat × Nat)) (c px py : Nat) : Word := BitVec.ofNat 32 (upBlock f c px py * 256 + upSample f c px py)

/-- UP_MAP c, px, py (45_color_upsample.md R294). -/
def execUpMap (c : BitVec 2) (px py : BitVec 5) (s : State) : Result :=
  .next (guardOperands (componentOk c && upMapLegal s.factors c.toNat px.toNat py.toNat) s
    { s with result := upResult s.factors c.toNat px.toNat py.toNat })

end Sys2Proof.Machine
end

