-- ==== Sys2Proof/Machine/Flags.lean ====
section
/-! DEFINITION. The flags: STATUS and BRSTATE as the host reads them, the write to STATUS (10_state.md R37, R41), and the reader
flags that BR_RESET and its kin clear (41_bitreader.md R156). HUFFDEC has no condition codes (R63). -/

namespace Sys2Proof.Machine

/-- A flag as one bit. -/
def flagBit (b : Bool) : BitVec 1 := BitVec.ofBool b

/-- BRSTATE as the host reads it (10_state.md R41). -/
def Reader.brstate (r : Reader) : Word :=
  0#4 ++ flagBit r.lastrstValid ++ r.lastrst ++ r.marker ++ 0#5 ++ flagBit r.markerValid ++ flagBit r.eos ++ flagBit r.halt ++
    0#3 ++ BitVec.ofNat 5 r.bitcnt

/-- STATUS as the host reads it (10_state.md R37): BUSY and ERRCLR read 0, bits 1–3 mirror BRSTATE. -/
def State.status (s : State) : Word :=
  0#12 ++ s.errors.errcode ++ 0#1 ++ s.errors.sticky ++ 0#4 ++ flagBit s.reader.markerValid ++ flagBit s.reader.eos ++
    flagBit s.reader.halt ++ 0#1

/-- A host write of w to STATUS: clears the sticky bits i in 8..14 with w[i] = 1, and ERRCODE if w[15] = 1 (10_state.md R37). -/
def Errors.write (w : Word) (x : Errors) : Errors :=
  { sticky := x.sticky &&& ~~~(w.extractLsb' 8 7),
    errcode := if w.getLsbD 15 then 0#4 else x.errcode }

/-- The actions of BR_RESET (41_bitreader.md R156): the buffer and the halt, marker and end-of-stream flags; SRCPOS, CONSUMED,
LASTRST and LASTRST_VALID stay. -/
def Reader.clear (r : Reader) : Reader :=
  { r with bracc := 0#32, bitcnt := 0, halt := false, eos := false, marker := 0#8, markerValid := false }

end Sys2Proof.Machine
end

