-- ==== Sys2Proof/Machine/BitReader.lean ====
section
/-! DEFINITION. The byte-stuffing-aware bit reader (41_bitreader.md): its internal operations R151–R154, which every stream command
uses, and the commands BR_RESET, BR_GETBITS, BR_PEEKBITS. -/

namespace Sys2Proof.Machine

/-- The halt at end of stream (41_bitreader.md R151): HALT and EOS, no bits. -/
def Reader.endOfStream (r : Reader) : Reader := { r with halt := true, eos := true }

/-- The halt at a marker (41_bitreader.md R151): SRCPOS, which is at the code byte, goes back to the 0xFF before it. -/
def Reader.meetMarker (code : Byte) (r : Reader) : Reader :=
  { r with marker := code, markerValid := true, halt := true, srcpos := r.srcpos - 1#32 }

/-- The loop of FetchDataByte after a 0xFF, on the number of valid SRC bytes left at SRCPOS (41_bitreader.md R151):
with none left the 0xFF dangles, 0x00 is stuffing, 0xFF is fill, any other byte is a marker code. -/
def afterFF (m : Source) : Nat → Reader → Option Byte × Reader
  | 0, r => (none, r.endOfStream)
  | left + 1, r =>
    let nx := m.byte r.srcpos
    if nx = 0x00#8 then (some 0xFF#8, { r with srcpos := r.srcpos + 1#32 })
    else if nx = 0xFF#8 then afterFF m left { r with srcpos := r.srcpos + 1#32 }
    else (none, r.meetMarker nx)

/-- How many valid SRC bytes stand at or after SRCPOS. -/
def Source.left (m : Source) (r : Reader) : Nat := m.len.toNat - r.srcpos.toNat

/-- `FetchDataByte()` (41_bitreader.md R151): one data byte, or none where the supply halts. Called only when HALT = 0. -/
def fetchDataByte (m : Source) (r : Reader) : Option Byte × Reader :=
  match srcRead m r with
  | (none, r') => (none, r'.endOfStream)
  | (some b, r') => if b = 0xFF#8 then afterFF m (m.left r') r' else (some b, r')

/-- Eight fresh bits enter the accumulator on the right (41_bitreader.md R152). -/
def Reader.push (b : Byte) (r : Reader) : Reader :=
  { r with bracc := (r.bracc <<< 8) ||| b.setWidth 32, bitcnt := r.bitcnt + 8 }

/-- The loop of Refill(n) on a bound of its iterations (41_bitreader.md R152). -/
def refillLoop (m : Source) (n : Nat) : Nat → Reader → Reader
  | 0, r => r
  | fuel + 1, r =>
    if r.bitcnt < n ∧ r.halt = false then
      match fetchDataByte m r with
      | (none, r') => refillLoop m n fuel r'
      | (some b, r') => refillLoop m n fuel (r'.push b)
    else r

/-- `Refill(n)` (41_bitreader.md R152). An iteration adds 8 bits or halts, so n iterations are enough (log 11). -/
def refill (m : Source) (n : Nat) (r : Reader) : Reader := refillLoop m n n r

/-- The next n of the buffered bits, missing bits 0 on the right (41_bitreader.md R153). -/
def Reader.top (n : Nat) (r : Reader) : Nat :=
  if n ≤ r.bitcnt then (r.bracc.toNat / 2 ^ (r.bitcnt - n)) % 2 ^ n
  else (r.bracc.toNat * 2 ^ (n - r.bitcnt)) % 2 ^ n

/-- `PeekBits(n)` (41_bitreader.md R153). -/
def peekBits (m : Source) (n : Nat) (r : Reader) : Nat × Reader :=
  if n = 0 then (0, r)
  else
    let r' := refill m n r
    (r'.top n, r')

/-- Drop the next n bits: the count is clamped at 0, zero-filled bits are counted (41_bitreader.md R154). -/
def Reader.consume (n : Nat) (r : Reader) : Reader :=
  { r with
    bitcnt := r.bitcnt - n
    bracc := BitVec.ofNat 32 (r.bracc.toNat % 2 ^ (r.bitcnt - n))
    consumed := r.consumed + BitVec.ofNat 32 n }

/-- `GetBits(n)` (41_bitreader.md R154). -/
def getBits (m : Source) (n : Nat) (r : Reader) : Nat × Reader :=
  let p := peekBits m n r
  (p.1, p.2.consume n)

/-- BR_RESET (41_bitreader.md R156). -/
def execBrReset (s : State) : Result := .next { s with reader := s.reader.clear }

/-- BR_GETBITS n (41_bitreader.md R157). -/
def execBrGetbits (n : BitVec 5) (s : State) : Result :=
  let g := getBits s.source n.toNat s.reader
  .next (guardOperands (bitCountOk n) s { s with result := BitVec.ofNat 32 g.1, reader := g.2 })

/-- BR_PEEKBITS n (41_bitreader.md R158). -/
def execBrPeekbits (n : BitVec 5) (s : State) : Result :=
  let p := peekBits s.source n.toNat s.reader
  .next (guardOperands (bitCountOk n) s { s with result := BitVec.ofNat 32 p.1, reader := p.2 })

end Sys2Proof.Machine
end

