-- ==== Sys2Proof/Machine/Operands.lean ====
section
/-! DEFINITION. The operand forms: the Huffman slot of formats T and E, the component of formats E and U (30_encoding.md R115),
and the target block of the entropy commands (43_entropy.md R220, R221). -/

namespace Sys2Proof.Machine

/-- Slot number 4·class + id (10_state.md R55, 30_encoding.md R115). -/
def slotIndex : HuffClass → BitVec 2 → Fin 8
  | .dc, i => ⟨i.toNat, by omega⟩
  | .ac, i => ⟨4 + i.toNat, by omega⟩

/-- The slot operand's contents. -/
def State.slot (k : HuffClass) (i : BitVec 2) (s : State) : HuffSlot := s.ht[slotIndex k i]

/-- PRED<c> for c ≤ 2 (10_state.md R46); a component above 2 is illegal before this is read (30_encoding.md R116). -/
def State.predOf (c : BitVec 2) (s : State) : Coef := s.pred.toList.getD c.toNat 0#16

/-- Write PRED<c> for c ≤ 2. -/
def setPred (c : BitVec 2) (v : Coef) (p : Vector Coef 3) : Vector Coef 3 := p.setIfInBounds c.toNat v

/-- DISCARD_SENTINEL (00_scope.md R5). -/
def discardSentinel : Coef := 1#16

/-- The scratch block seeded from the bitmap: the sentinel at every remembered non-zero position (43_entropy.md R220). -/
def seedScratch (nz : BitVec 64) : Block := tabulate 64 fun i => if nz.getLsbD (zzInv i) then discardSentinel else 0#16

/-- `SelectTarget(D)`: the block the command decodes into (43_entropy.md R220). -/
def State.selectTarget (d : Mode) (s : State) : Block :=
  match d with
  | .store => s.coef
  | .discard => seedScratch s.nzmask

/-- The target block as the command leaves it: in COEF or in SCRATCH (43_entropy.md R220; log 13). -/
def State.storeTarget (d : Mode) (t : Block) (s : State) : State :=
  match d with
  | .store => { s with coef := t }
  | .discard => { s with scratch := t }

/-- The bits of the bitmap write-back over zigzag positions lo..hi: bit k set when T[ZZ[k]] ≠ 0 (43_entropy.md R221). -/
def nonzeroBits (t : Block) (lo hi : Nat) : BitVec 64 :=
  BitVec.ofFnLE fun k => decide (lo ≤ k.val) && decide (k.val ≤ hi) && decide (t[zz k.val] ≠ 0#16)

end Sys2Proof.Machine
end

