-- ==== Sys2Proof/Machine/Huffman.lean ====
section
/-! DEFINITION. Huffman tables, Decode, receive+extend and quantisation tables (42_huffman.md): construction R181–R184,
HT_DEFINE, HT_DECODE, HT_RECEIVE_EXTEND, QT_DEFINE. A length l = 1..16 is the index j = l − 1. -/

namespace Sys2Proof.Machine

/-! ### Construction -/

/-- COUNTS[j + 1], 0 past length 16. -/
def countAt (c : Vector Byte 16) (j : Nat) : Nat := (entry c j).toNat

/-- start(j + 1): the value of `code` at the top of that iteration of BuildCodes (42_huffman.md R181, R182). -/
def startCode (c : Vector Byte 16) : Nat → Nat
  | 0 => 0
  | j + 1 => (startCode c j + countAt c j) * 2

/-- first(j + 1) = Σ COUNTS of the shorter lengths (42_huffman.md R182); firstIndex c 16 is the number of symbols. -/
def firstIndex (c : Vector Byte 16) : Nat → Nat
  | 0 => 0
  | j + 1 => firstIndex c j + countAt c j

/-- (SIZE[k], CODE[k]) for each symbol index k in order (42_huffman.md R181). -/
def codeTable (c : Vector Byte 16) : List (Nat × Nat) :=
  (List.range 16).flatMap fun j => (List.range (countAt c j)).map fun i => (j + 1, startCode c j + i)

/-- MAXCODE[j + 1] (42_huffman.md R182). -/
def maxCode (c : Vector Byte 16) (j : Nat) : Int :=
  if 0 < countAt c j then (startCode c j : Int) + countAt c j - 1 else -1

/-- The index of the symbol whose code of at most 8 bits begins the 8-bit prefix p (42_huffman.md R183; log 12). -/
def fastIndex (c : Vector Byte 16) (p : Nat) : Option Nat :=
  (codeTable c).findIdx? fun sc => decide (sc.1 ≤ 8) && decide (p / 2 ^ (8 - sc.1) = sc.2)

/-- FASTLEN[p] (42_huffman.md R183). -/
def fastLen (c : Vector Byte 16) (p : Nat) : Nat :=
  match fastIndex c p with
  | some k => ((codeTable c).getD k (0, 0)).1
  | none => 0

/-- FASTSYM[p] (42_huffman.md R183). -/
def fastSym (c : Vector Byte 16) (v : Vector Byte 256) (p : Nat) : Byte :=
  match fastIndex c p with
  | some k => entry v k
  | none => 0#8

/-- CodeLengthsOK: no length has more codes than fit in its bits (42_huffman.md R184). -/
def codeLengthsOk (c : Vector Byte 16) : Bool :=
  (List.range 16).all fun j => decide (startCode c j + countAt c j ≤ 2 ^ (j + 1))

/-- The whole slot as the functions of COUNTS and HUFFVAL (42_huffman.md R181–R183, R185). -/
def buildSlot (c : Vector Byte 16) (v : Vector Byte 256) : HuffSlot :=
  { valid := true
    nvals := BitVec.ofNat 9 (firstIndex c 16)
    counts := c
    mincode := tabulate 16 fun j => BitVec.ofNat 17 (startCode c j)
    maxcode := tabulate 16 fun j => BitVec.ofInt 32 (maxCode c j)
    valptr := tabulate 16 fun j => BitVec.ofNat 9 (firstIndex c j)
    huffval := v
    fastlen := tabulate 256 fun p => BitVec.ofNat 4 (fastLen c p)
    fastsym := tabulate 256 fun p => fastSym c v p }

/-- A list of bytes as a fixed array, 0 past its end. -/
def padBytes (n : Nat) (bs : List Byte) : Vector Byte n := tabulate n fun i => bs.getD i 0#8

/-! ### Table definitions -/

/-- RESULT of a table definition: the bytes it read, with bit 31 set when it failed (42_huffman.md R185). -/
def defineResult (failed : Bool) (start stop : Word) : Word :=
  if failed then 0x80000000#32 ||| (stop - start) else stop - start

/-- `Fail(code)` of a table definition: the error is raised, RESULT written, no table changed (42_huffman.md R185). -/
def State.failDefine (e : ErrorCode) (r : Reader) (s : State) : State :=
  { s with
    errors := s.errors.raise e
    reader := r
    result := defineResult true s.reader.srcpos r.srcpos }

/-- The body of one Huffman table at SRCPOS, with the checks of HT_DEFINE in their order (30_encoding.md R121,
42_huffman.md R185): the slot it names and its new contents, or the error. -/
def parseHuffTable (m : Source) (r : Reader) : Except ErrorCode (Fin 8 × HuffSlot) × Reader :=
  match srcRead m r with
  | (none, r1) => (.error .parseEos, r1)
  | (some t, r1) =>
    if 1#4 < t.extractLsb' 4 4 ∨ 3#4 < t.extractLsb' 0 4 then (.error .parseIndex, r1)
    else
      match readBytes m 16 r1 with
      | (none, r2) => (.error .parseEos, r2)
      | (some cs, r2) =>
        let c := padBytes 16 cs
        let n := firstIndex c 16
        if 256 < n then (.error .parseCount, r2)
        else
          match readBytes m n r2 with
          | (none, r3) => (.error .parseEos, r3)
          | (some vs, r3) =>
            if codeLengthsOk c then
              (.ok (slotIndex (HuffClass.ofBit (t.getLsbD 4)) (t.extractLsb' 0 2), buildSlot c (padBytes 256 vs)), r3)
            else (.error .parseCodelen, r3)

/-- HT_DEFINE's state change (42_huffman.md R185). -/
def State.htDefine (s : State) : State :=
  match parseHuffTable s.source s.reader with
  | (.error e, r) => s.failDefine e r
  | (.ok (i, sl), r) => { s with reader := r, ht := s.ht.set i sl, result := defineResult false s.reader.srcpos r.srcpos }

/-- HT_DEFINE (42_huffman.md R185). -/
def execHtDefine (s : State) : Result := .next s.htDefine

/-- Entry k of a quantisation table body: a byte, or two bytes big-endian (30_encoding.md R122, 20_memory.md R94). -/
def quantEntry (wide : Bool) (bs : List Byte) (k : Nat) : BitVec 16 :=
  if wide then bs.getD (2 * k) 0#8 ++ bs.getD (2 * k + 1) 0#8 else (bs.getD k 0#8).setWidth 16

/-- The body of one quantisation table at SRCPOS, with the checks of QT_DEFINE in their order (42_huffman.md R200):
the table it names and its entries in natural order, or the error. -/
def parseQuantTable (m : Source) (r : Reader) : Except ErrorCode (Fin 4 × Vector (BitVec 16) 64) × Reader :=
  match srcRead m r with
  | (none, r1) => (.error .parseEos, r1)
  | (some t, r1) =>
    if 1#4 < t.extractLsb' 4 4 ∨ 3#4 < t.extractLsb' 0 4 then (.error .parseIndex, r1)
    else
      let wide := t.getLsbD 4
      match readBytes m (if wide then 128 else 64) r1 with
      | (none, r2) => (.error .parseEos, r2)
      | (some bs, r2) =>
        (.ok ((t.extractLsb' 0 2).toFin, tabulate 64 fun i => quantEntry wide bs (zzInv i)), r2)

/-- QT_DEFINE's state change (42_huffman.md R200). -/
def State.qtDefine (s : State) : State :=
  match parseQuantTable s.source s.reader with
  | (.error e, r) => s.failDefine e r
  | (.ok (q, t), r) => { s with reader := r, qt := s.qt.set q t, result := defineResult false s.reader.srcpos r.srcpos }

/-- QT_DEFINE (42_huffman.md R200). -/
def execQtDefine (s : State) : Result := .next s.qtDefine

/-! ### Decode -/

/-- What `Decode` returns: symbol, length, and the error it raises if it is bad (42_huffman.md R190). -/
structure Decoded where
  sym : Byte
  len : Nat
  bad : Option ErrorCode
deriving DecidableEq, Repr

/-- The comparison of the slow path at index j (length j + 1): signed, MAXCODE may be −1 (42_huffman.md R190). -/
def codeMatches (sl : HuffSlot) (j code : Nat) : Bool := decide ((code : Int) ≤ (entry sl.maxcode j).toInt)

/-- HUFFVAL[VALPTR[l] + code − MINCODE[l]] at index j (42_huffman.md R190); an index outside HUFFVAL, which no slot built by
HT_DEFINE gives, reads a free value (log 7). -/
def slowSymbol (sl : HuffSlot) (j code : Nat) : Byte :=
  let k : Int := (entry sl.valptr j).toNat + (code : Int) - (entry sl.mincode j).toNat
  if 0 ≤ k ∧ k < 256 then entry sl.huffval k.toNat else Config.huffvalOutside k

/-- The slow path with `left` more lengths to try after the current one: the code read so far has 16 − left bits
(42_huffman.md R190, R192). -/
def slowDecode (m : Source) (sl : HuffSlot) : Nat → Nat → Reader → Decoded × Reader
  | 0, code, r =>
    if codeMatches sl 15 code then ({ sym := slowSymbol sl 15 code, len := 16, bad := none }, r)
    else ({ sym := 0#8, len := 16, bad := some .badCode }, r)
  | left + 1, code, r =>
    if codeMatches sl (14 - left) code then ({ sym := slowSymbol sl (14 - left) code, len := 15 - left, bad := none }, r)
    else
      let g := getBits m 1 r
      slowDecode m sl left (2 * code + g.1) g.2

/-- `Decode(slot)` on the slot's contents (42_huffman.md R190): undefined slot, fast path, slow path from length 1. -/
def slotDecode (m : Source) (sl : HuffSlot) (r : Reader) : Decoded × Reader :=
  if sl.valid then
    let p := peekBits m 8 r
    let l := (entry sl.fastlen p.1).toNat
    if l ≠ 0 then ({ sym := entry sl.fastsym p.1, len := l, bad := none }, (getBits m l p.2).2)
    else
      let g := getBits m 1 p.2
      slowDecode m sl 15 g.1 g.2
  else ({ sym := 0#8, len := 0, bad := some .badTable }, r)

/-- RESULT of HT_DECODE: bad << 31 | len << 8 | sym (42_huffman.md R195). -/
def decodeResult (d : Decoded) : Word := flagBit d.bad.isSome ++ 0#18 ++ BitVec.ofNat 5 d.len ++ d.sym

/-- HT_DECODE k, i (42_huffman.md R195). -/
def execHtDecode (k : HuffClass) (i : BitVec 2) (s : State) : Result :=
  let d := slotDecode s.source (s.slot k i) s.reader
  .next { s with reader := d.2, errors := s.errors.raiseOpt d.1.bad, result := decodeResult d.1 }

/-! ### Receive and extend -/

/-- `Extend(v, s)` (42_huffman.md R193). -/
def extend (v n : Nat) : Int :=
  if n = 0 then 0
  else if v < 2 ^ (n - 1) then (v : Int) - 2 ^ n + 1
  else v

/-- `ReceiveExtend(s)` (42_huffman.md R194). -/
def receiveExtend (m : Source) (n : Nat) (r : Reader) : Int × Reader :=
  let g := getBits m n r
  (extend g.1 n, g.2)

/-- HT_RECEIVE_EXTEND n (42_huffman.md R196). -/
def execHtReceiveExtend (n : BitVec 5) (s : State) : Result :=
  let v := receiveExtend s.source n.toNat s.reader
  .next (guardOperands (bitCountOk n) s { s with result := BitVec.ofInt 32 v.1, reader := v.2 })

end Sys2Proof.Machine
end

