-- ==== Sys2Proof/Machine/Entropy.lean ====
section
/-! DEFINITION. The entropy decoder (43_entropy.md): ED_SCAN_START, ED_RESTART and the five block commands. A block command works
on a `BlockRun` and writes the machine's registers when it ends (log 13). -/

namespace Sys2Proof.Machine

/-! ### Scan start and restart -/

/-- ED_SCAN_START (43_entropy.md R224). -/
def execEdScanStart (s : State) : Result :=
  .next { s with reader := s.reader.clear, pred := Vector.replicate 3 0#16, eobrun := 0#16 }

/-- `while HALT == 0: FetchDataByte()` on a bound of its iterations (43_entropy.md R225). -/
def skipLoop (m : Source) : Nat → Reader → Reader
  | 0, r => r
  | fuel + 1, r => if r.halt then r else skipLoop m fuel (fetchDataByte m r).2

/-- The reader at the next marker or end of stream, the buffered bits dropped (43_entropy.md R225). Every fetch that does not halt
advances SRCPOS, so one more iteration than there are bytes left is enough (log 11). -/
def skipToMarker (m : Source) (r : Reader) : Reader :=
  skipLoop m (m.left r + 1) { r with bracc := 0#32, bitcnt := 0 }

/-- A detected RST0–RST7 marker: 0xD0 ≤ MARKER ≤ 0xD7 (43_entropy.md R225). -/
def Reader.atRestart (r : Reader) : Bool := r.markerValid && decide (0xD0#8 ≤ r.marker) && decide (r.marker ≤ 0xD7#8)

/-- SRCPOS + 2, a free value where that does not fit 32 bits (43_entropy.md R225; log 6). -/
def stepOverMarker (draws : Nat) (pos : Word) : Word :=
  if pos.toNat + 2 < 2 ^ 32 then pos + 2#32 else Config.srcposOverflow draws

/-- Free values drawn by stepping over the marker at `pos` (log 6). -/
def drawsForMarker (pos : Word) : Nat := if pos.toNat + 2 < 2 ^ 32 then 0 else 1

/-- ED_RESTART's state change (43_entropy.md R225). EOS is not among the fields the restart-marker branch clears. -/
def State.restart (s : State) : State :=
  let r := skipToMarker s.source s.reader
  let s1 := { s with pred := Vector.replicate 3 0#16, eobrun := 0#16 }
  if r.atRestart then
    { s1 with
      reader := { r with
        srcpos := stepOverMarker s.freeDraws r.srcpos
        lastrst := r.marker.setWidth 3
        lastrstValid := true
        halt := false
        markerValid := false
        marker := 0#8 }
      freeDraws := s.freeDraws + drawsForMarker r.srcpos }
  else { s1 with reader := r, errors := s.errors.raise .rstMiss }

/-- ED_RESTART (43_entropy.md R225). -/
def execEdRestart (s : State) : Result := .next s.restart

/-! ### The working state of a block command -/

/-- What a block command changes while it decodes. -/
structure BlockRun where
  reader : Reader
  errors : Errors
  /-- the target block T -/
  t : Block
  eobrun : BitVec 16
deriving DecidableEq, Repr

/-- The start of a block command in mode D: target selection first (43_entropy.md R220). -/
def State.startBlock (d : Mode) (s : State) : BlockRun :=
  { reader := s.reader, errors := s.errors, t := s.selectTarget d, eobrun := s.eobrun }

/-- The end of a block command: its registers, the bitmap write-back over lo..hi (43_entropy.md R221), and RESULT, the bits
consumed (R222). -/
def State.finishBlock (d : Mode) (lo hi : Nat) (b : BlockRun) (s : State) : State :=
  State.storeTarget d b.t
    { s with
      reader := b.reader
      errors := b.errors
      eobrun := b.eobrun
      nzmask := s.nzmask ||| nonzeroBits b.t lo hi
      result := b.reader.consumed - s.reader.consumed }

def BlockRun.raise (e : ErrorCode) (b : BlockRun) : BlockRun := { b with errors := b.errors.raise e }

/-- `GetBits(n)` within a block command. -/
def BlockRun.getBits (m : Source) (n : Nat) (b : BlockRun) : Nat × BlockRun :=
  let g := Machine.getBits m n b.reader
  (g.1, { b with reader := g.2 })

/-- `ReceiveExtend(n)` within a block command. -/
def BlockRun.receiveExtend (m : Source) (n : Nat) (b : BlockRun) : Int × BlockRun :=
  let v := Machine.receiveExtend m n b.reader
  (v.1, { b with reader := v.2 })

/-- `Decode` within a block command: a bad decode raises its error and its symbol 0 is used like any other (42_huffman.md R192). -/
def BlockRun.decode (m : Source) (sl : HuffSlot) (b : BlockRun) : Nat × BlockRun :=
  let d := slotDecode m sl b.reader
  (d.1.sym.toNat, { b with reader := d.2, errors := b.errors.raiseOpt d.1.bad })

/-- T[ZZ[k]] <- v. -/
def BlockRun.setAt (k : Nat) (v : Int) (b : BlockRun) : BlockRun := { b with t := b.t.set (zz k) (wrap16 v) }

/-- `DcDiff(td)` (43_entropy.md R223). -/
def dcDiff (m : Source) (sl : HuffSlot) (b : BlockRun) : Int × BlockRun :=
  let d := b.decode m sl
  if 15 < d.1 then (0, d.2.raise .badSym)
  else if 11 < d.1 then (d.2.raise .badSym).receiveExtend m d.1
  else d.2.receiveExtend m d.1

/-- The run/size loop shared by ED_BASELINE (hi = 63, al = 0) and ED_AC_FIRST (hi = SE, al = AL), from position k on, on a bound of
its symbols; `eob r` is what an end-of-band symbol of run r does (43_entropy.md R226, R229). At most 64 symbols are decoded
(70_reset_and_hazards.md R352; log 11). -/
def runLoop (m : Source) (sl : HuffSlot) (hi al : Nat) (eob : Nat → BlockRun → BlockRun) : Nat → Nat → BlockRun → BlockRun
  | 0, _, b => b
  | fuel + 1, k, b =>
    if hi < k then b
    else
      let d := b.decode m sl
      let r := d.1 / 16
      let size := d.1 % 16
      if size = 0 then
        if r = 15 then runLoop m sl hi al eob fuel (k + 16) d.2
        else eob r d.2
      else
        let v := d.2.receiveExtend m size
        if hi < k + r then v.2.raise .badRun
        else runLoop m sl hi al eob fuel (k + r + 1) (v.2.setAt (k + r) (v.1 * 2 ^ al))

/-- PRED<c> + DcDiff(td), wrapped (43_entropy.md R226, R227). -/
def nextPred (p : Coef) (diff : Int) : Coef := wrap16 (p.toInt + diff)

/-! ### Block commands -/

/-- A baseline block's EOB ends the block (43_entropy.md R226). -/
def baselineEob (_ : Nat) (b : BlockRun) : BlockRun := b

/-- ED_BASELINE's decode (43_entropy.md R226): the new predictor and the working state at its end. -/
def baselineRun (m : Source) (dc ac : HuffSlot) (p : Coef) (b : BlockRun) : Coef × BlockRun :=
  let v := dcDiff m dc { b with t := Vector.replicate 64 0#16 }
  let p' := nextPred p v.1
  (p', runLoop m ac 63 0 baselineEob 64 1 (v.2.setAt 0 p'.toInt))

/-- ED_BASELINE c, td, ta, D (43_entropy.md R226). -/
def execEdBaseline (c td ta : BitVec 2) (d : Mode) (s : State) : Result :=
  let b := baselineRun s.source (s.slot .dc td) (s.slot .ac ta) (s.predOf c) (s.startBlock d)
  .next (guardOperands (componentOk c) s (State.finishBlock d 0 63 b.2 { s with pred := setPred c b.1 s.pred }))

/-- ED_DC_FIRST's decode (43_entropy.md R227): the point transform shifts what is stored, not the predictor. -/
def dcFirstRun (m : Source) (dc : HuffSlot) (al : Nat) (p : Coef) (b : BlockRun) : Coef × BlockRun :=
  let v := dcDiff m dc b
  let p' := nextPred p v.1
  (p', v.2.setAt 0 (p'.toInt * 2 ^ al))

/-- ED_DC_FIRST c, td, D; ta has no effect (43_entropy.md R227). -/
def execEdDcFirst (c td _ta : BitVec 2) (d : Mode) (s : State) : Result :=
  let b := dcFirstRun s.source (s.slot .dc td) s.scancfg.al.toNat (s.predOf c) (s.startBlock d)
  .next (guardOperands (componentOk c) s (State.finishBlock d 0 0 b.2 { s with pred := setPred c b.1 s.pred }))

/-- ED_DC_REFINE's decode (43_entropy.md R228): one bit, OR'ed in at position al of the 16-bit pattern. -/
def dcRefineRun (m : Source) (al : Nat) (b : BlockRun) : BlockRun :=
  let g := b.getBits m 1
  if g.1 = 1 then { g.2 with t := g.2.t.set 0 (g.2.t[0] ||| (1#16 <<< al)) } else g.2

/-- ED_DC_REFINE c, D; td and ta have no effect (43_entropy.md R228). -/
def execEdDcRefine (c _td _ta : BitVec 2) (d : Mode) (s : State) : Result :=
  .next (guardOperands (componentOk c) s
    (State.finishBlock d 0 0 (dcRefineRun s.source s.scancfg.al.toNat (s.startBlock d)) s))

/-- An end-of-band run symbol of AC-first: EOBRUN <- 2^r + GetBits(r) − 1 (43_entropy.md R229, R231). -/
def acFirstEob (m : Source) (r : Nat) (b : BlockRun) : BlockRun :=
  let g := b.getBits m r
  { g.2 with eobrun := BitVec.ofNat 16 (2 ^ r + g.1 - 1) }

/-- ED_AC_FIRST's decode (43_entropy.md R229). -/
def acFirstRun (m : Source) (ac : HuffSlot) (cfg : ScanCfg) (b : BlockRun) : BlockRun :=
  if 0#16 < b.eobrun then { b with eobrun := b.eobrun - 1#16 }
  else runLoop m ac cfg.se.toNat cfg.al.toNat (acFirstEob m) 64 cfg.ss.toNat b

/-- ED_AC_FIRST c, ta, D; td has no effect (43_entropy.md R229). -/
def execEdAcFirst (c _td ta : BitVec 2) (d : Mode) (s : State) : Result :=
  .next (guardOperands (componentOk c) s
    (State.finishBlock d s.scancfg.ss.toNat s.scancfg.se.toNat
      (acFirstRun s.source (s.slot .ac ta) s.scancfg (s.startBlock d)) s))

/-- `Correct(k)`: one correction bit; if 1, the coefficient moves p1 away from zero (43_entropy.md R230). -/
def correct (m : Source) (p1 : Int) (k : Nat) (b : BlockRun) : BlockRun :=
  let g := b.getBits m 1
  let x := g.2.t[zz k].toInt
  if g.1 = 1 then g.2.setAt k (if 0 < x then x + p1 else x - p1) else g.2

/-- The pass over coefficients before a new one is placed, on a bound of the positions passed: non-zero ones are corrected, r zero
ones skipped; where it stops (43_entropy.md R230). -/
def passLoop (m : Source) (p1 : Int) (se : Nat) : Nat → Nat → Nat → BlockRun → Nat × BlockRun
  | 0, k, _, b => (k, b)
  | fuel + 1, k, r, b =>
    if se < k then (k, b)
    else if b.t[zz k] ≠ 0#16 then passLoop m p1 se fuel (k + 1) r (correct m p1 k b)
    else if r = 0 then (k, b)
    else passLoop m p1 se fuel (k + 1) (r - 1) b

/-- The tail of an end-of-band run: a correction bit for every non-zero coefficient left (43_entropy.md R230). -/
def tailLoop (m : Source) (p1 : Int) (se : Nat) : Nat → Nat → BlockRun → BlockRun
  | 0, _, b => b
  | fuel + 1, k, b =>
    if se < k then b
    else tailLoop m p1 se fuel (k + 1) (if b.t[zz k] ≠ 0#16 then correct m p1 k b else b)

/-- How the symbol loop of AC-refine ends: `stopped` by a BADSYM, else at position `k`. -/
structure RefineEnd where
  stopped : Bool
  k : Nat
  run : BlockRun
deriving DecidableEq, Repr

/-- The new coefficient of a size-1 symbol: its sign bit, 1 positive (43_entropy.md R230); none for ZRL. -/
def newValue (m : Source) (p1 : Int) (size : Nat) (b : BlockRun) : Option Int × BlockRun :=
  if size = 1 then
    let g := b.getBits m 1
    (some (if g.1 = 1 then p1 else -p1), g.2)
  else (none, b)

/-- Place the new coefficient at position k, or raise BADRUN where no zero position is left in range (43_entropy.md R230). -/
def placeNew (se k : Nat) (new : Option Int) (b : BlockRun) : BlockRun :=
  match new with
  | none => b
  | some v => if k ≤ se then b.setAt k v else b.raise .badRun

/-- The symbol loop of AC-refine, on a bound of its symbols (43_entropy.md R230). -/
def refineLoop (m : Source) (ac : HuffSlot) (p1 : Int) (se : Nat) : Nat → Nat → BlockRun → RefineEnd
  | 0, k, b => { stopped := false, k := k, run := b }
  | fuel + 1, k, b =>
    if se < k then { stopped := false, k := k, run := b }
    else
      let d := b.decode m ac
      let r := d.1 / 16
      let size := d.1 % 16
      if size = 0 ∧ r ≠ 15 then
        let g := d.2.getBits m r
        { stopped := false, k := k, run := { g.2 with eobrun := BitVec.ofNat 16 (2 ^ r + g.1) } }
      else if 1 < size then { stopped := true, k := k, run := d.2.raise .badSym }
      else
        let nv := newValue m p1 size d.2
        let p := passLoop m p1 se 64 k r nv.2
        refineLoop m ac p1 se fuel (p.1 + 1) (placeNew se p.1 nv.1 p.2)

/-- The end-of-band run part of AC-refine: the tail, then one block less to go (43_entropy.md R230). -/
def refineTail (m : Source) (p1 : Int) (se k : Nat) (b : BlockRun) : BlockRun :=
  if 0#16 < b.eobrun then
    let b' := tailLoop m p1 se 64 k b
    { b' with eobrun := b'.eobrun - 1#16 }
  else b

/-- ED_AC_REFINE's decode (43_entropy.md R230). -/
def acRefineRun (m : Source) (ac : HuffSlot) (cfg : ScanCfg) (b : BlockRun) : BlockRun :=
  let p1 : Int := 2 ^ cfg.al.toNat
  let e : RefineEnd :=
    if b.eobrun = 0#16 then refineLoop m ac p1 cfg.se.toNat 64 cfg.ss.toNat b
    else { stopped := false, k := cfg.ss.toNat, run := b }
  if e.stopped then e.run else refineTail m p1 cfg.se.toNat e.k e.run

/-- ED_AC_REFINE c, ta, D; td has no effect (43_entropy.md R230). -/
def execEdAcRefine (c _td ta : BitVec 2) (d : Mode) (s : State) : Result :=
  .next (guardOperands (componentOk c) s
    (State.finishBlock d s.scancfg.ss.toNat s.scancfg.se.toNat
      (acRefineRun s.source (s.slot .ac ta) s.scancfg (s.startBlock d)) s))

end Sys2Proof.Machine
end

