-- ==== Sys2Proof/Machine/Idct.lean ====
section
/-! DEFINITION. The inverse DCT (44_idct.md): IDCT and its integer arithmetic R271–R276, on exact integers (R278). -/

namespace Sys2Proof.Machine

/-- Entry i of an array of integers, 0 past its end. -/
def intAt {n : Nat} (x : Vector Int n) (i : Nat) : Int := (x[i]?).getD 0

/-- PASS1_BITS and CONST_BITS (44_idct.md R272). -/
def pass1Bits : Nat := 2
def constBits : Nat := 13

/-- `Descale(x, n)` (44_idct.md R272): round half up. -/
def descale (x : Int) (n : Nat) : Int := asr (x + 2 ^ (n - 1)) n

/-- The 1-D kernel on eight inputs (44_idct.md R273), with the constants of R272. -/
def kernel (i : Vector Int 8) : Vector Int 8 :=
  -- even part
  let z := (i[2] + i[6]) * 4433
  let t2 := z - i[6] * 15137
  let t3 := z + i[2] * 6270
  let t0 := (i[0] + i[4]) * 2 ^ constBits
  let t1 := (i[0] - i[4]) * 2 ^ constBits
  let t10 := t0 + t3
  let t13 := t0 - t3
  let t11 := t1 + t2
  let t12 := t1 - t2
  -- odd part
  let z1 := -(i[7] + i[1]) * 7373
  let z2 := -(i[5] + i[3]) * 20995
  let z5 := ((i[7] + i[3]) + (i[5] + i[1])) * 9633
  let z3 := -(i[7] + i[3]) * 16069 + z5
  let z4 := -(i[5] + i[1]) * 3196 + z5
  let a0 := i[7] * 2446 + z1 + z3
  let a1 := i[5] * 16819 + z2 + z4
  let a2 := i[3] * 25172 + z2 + z3
  let a3 := i[1] * 12299 + z1 + z4
  #v[t10 + a3, t11 + a2, t12 + a1, t13 + a0, t13 - a0, t12 - a1, t11 - a2, t10 - a3]

/-- All inputs of a line but the first are 0 (44_idct.md R274, R275). -/
def onlyFirst (x : Vector Int 8) : Bool :=
  decide (x[1] = 0) && decide (x[2] = 0) && decide (x[3] = 0) && decide (x[4] = 0) && decide (x[5] = 0) && decide (x[6] = 0) &&
    decide (x[7] = 0)

/-- One column of pass 1 (44_idct.md R274). -/
def pass1Column (x : Vector Int 8) : Vector Int 8 :=
  if onlyFirst x then Vector.replicate 8 (x[0] * 2 ^ pass1Bits)
  else tabulate 8 fun j => descale (intAt (kernel x) j) (constBits - pass1Bits)

/-- `Limit(v)`: level shift and clamp (44_idct.md R276). -/
def limit (v : Int) : Int := clamp (v + 128) 0 255

/-- One row of pass 2 (44_idct.md R275). -/
def pass2Row (w : Vector Int 8) : Vector Int 8 :=
  if onlyFirst w then Vector.replicate 8 (limit (descale w[0] (pass1Bits + 3)))
  else tabulate 8 fun j => limit (descale (intAt (kernel w) j) (constBits + pass1Bits + 3))

/-- Column `col` and row `r` of an 8×8 array in natural order. -/
def column (x : Vector Int 64) (col : Nat) : Vector Int 8 := tabulate 8 fun r => intAt x (8 * r + col)
def row (x : Vector Int 64) (r : Nat) : Vector Int 8 := tabulate 8 fun j => intAt x (8 * r + j)

/-- Pass 1 over the columns (44_idct.md R274). -/
def pass1 (x : Vector Int 64) : Vector Int 64 := tabulate 64 fun i => intAt (pass1Column (column x (i % 8))) (i / 8)

/-- Pass 2 over the rows (44_idct.md R275). -/
def pass2 (w : Vector Int 64) : Vector Int 64 := tabulate 64 fun i => intAt (pass2Row (row w (i / 8))) (i % 8)

/-- Dequantisation: exact products in natural order (44_idct.md R271). -/
def dequantise (x : Block) (q : Vector (BitVec 16) 64) : Vector Int 64 :=
  tabulate 64 fun i => (entry x i).toInt * ((entry q i).toNat : Int)

/-- The samples of a block (44_idct.md R270). -/
def idctBlock (x : Block) (q : Vector (BitVec 16) 64) : Vector Byte 64 :=
  let y := pass2 (pass1 (dequantise x q))
  tabulate 64 fun i => BitVec.ofInt 8 (intAt y i)

/-- IDCT q (44_idct.md R270). -/
def execIdct (q : BitVec 2) (s : State) : Result := .next { s with sample := idctBlock s.coef s.qt[q.toFin] }

end Sys2Proof.Machine
end

