-- ==== Sys2Proof/Machine/System.lean ====
section
/-! DEFINITION. The system commands NOP, SOFT_RESET, COEF_CLEAR (40_system.md). -/

namespace Sys2Proof.Machine

/-- Every piece of HUFFDEC state at its reset value; SRC, the host's side and the model's own fields stay
(10_state.md R64, 70_reset_and_hazards.md R340). -/
def State.resetBlock (s : State) : State :=
  { State.reset with
    src := s.src
    srcEpoch := s.srcEpoch
    hostQueue := s.hostQueue
    readData := s.readData
    freeDraws := s.freeDraws }

/-- NOP (40_system.md R140). -/
def execNop (s : State) : Result := .next s

/-- SOFT_RESET (40_system.md R141). -/
def execSoftReset (s : State) : Result := .next s.resetBlock

/-- COEF_CLEAR (40_system.md R142). -/
def execCoefClear (s : State) : Result := .next { s with coef := Vector.replicate 64 0#16 }

end Sys2Proof.Machine
end

