-- ==== Sys2Proof/Machine/Dispatch.lean ====
section
/-! DEFINITION. One arm per command (30_encoding.md R117): the meaning each opcode's rule gives it. -/

namespace Sys2Proof.Machine

def exec (i : Instr) (s : State) : Host.Outcome State Fault Refusal :=
  match i with
  | .nop => Sys2Proof.Machine.execNop s
  | .softReset => Sys2Proof.Machine.execSoftReset s
  | .coefClear => Sys2Proof.Machine.execCoefClear s
  | .brReset => Sys2Proof.Machine.execBrReset s
  | .brGetbits n => Sys2Proof.Machine.execBrGetbits n s
  | .brPeekbits n => Sys2Proof.Machine.execBrPeekbits n s
  | .htDefine => Sys2Proof.Machine.execHtDefine s
  | .htDecode k t => Sys2Proof.Machine.execHtDecode k t s
  | .htReceiveExtend n => Sys2Proof.Machine.execHtReceiveExtend n s
  | .qtDefine => Sys2Proof.Machine.execQtDefine s
  | .edScanStart => Sys2Proof.Machine.execEdScanStart s
  | .edRestart => Sys2Proof.Machine.execEdRestart s
  | .edBaseline c td ta d => Sys2Proof.Machine.execEdBaseline c td ta d s
  | .edDcFirst c td ta d => Sys2Proof.Machine.execEdDcFirst c td ta d s
  | .edDcRefine c td ta d => Sys2Proof.Machine.execEdDcRefine c td ta d s
  | .edAcFirst c td ta d => Sys2Proof.Machine.execEdAcFirst c td ta d s
  | .edAcRefine c td ta d => Sys2Proof.Machine.execEdAcRefine c td ta d s
  | .idct q => Sys2Proof.Machine.execIdct q s
  | .ccYcc => Sys2Proof.Machine.execCcYcc s
  | .ccGray => Sys2Proof.Machine.execCcGray s
  | .upMap c px py => Sys2Proof.Machine.execUpMap c px py s

end Sys2Proof.Machine
end

