-- ==== Sys2Proof/Machine/HostPort.lean ====
section
/-! DEFINITION. The register space as the host reads and writes it (10_state.md R33–R58): the register map, one offset at a time.
CMD (0x0004) executes a command and stands in Machine/Execute.lean. -/

namespace Sys2Proof.Machine

/-- FRAMECFG as the host reads it: VMAX and HMAX are computed (10_state.md R50). -/
def State.framecfg (s : State) : Word :=
  0#17 ++ BitVec.ofNat 3 (vMax s.factors) ++ 0#1 ++ BitVec.ofNat 3 (hMax s.factors) ++ 0#6 ++ s.ncomp

/-- A COMPCFG register (10_state.md R51). -/
def CompCfg.word (f : CompCfg) : Word := 0#25 ++ f.v ++ 0#1 ++ f.h

/-- SCANCFG (10_state.md R44). -/
def ScanCfg.word (c : ScanCfg) : Word := 0#8 ++ c.al ++ c.ah ++ 0#2 ++ c.se ++ 0#2 ++ c.ss

/-- COMPCFG<j>, factors 0 past component 2. -/
def State.comp (j : Nat) (s : State) : CompCfg := (s.compcfg[j]?).getD { h := 0#3, v := 0#3 }

/-- The control registers 0x0000–0x00FC (10_state.md R34): 0 for CMD (R36) and for an offset no register occupies (R33). -/
def State.controlReg (s : State) (off : Nat) : Word :=
  match off with
  | 0x00 => 0x48554646#32
  | 0x08 => s.status
  | 0x0C => s.result
  | 0x10 => s.reader.srcpos
  | 0x14 => s.srclen
  | 0x18 => s.reader.brstate
  | 0x1C => s.reader.bracc
  | 0x20 => s.reader.consumed
  | 0x24 => s.scancfg.word
  | 0x28 => s.eobrun.setWidth 32
  | 0x2C => s.pred[0].signExtend 32
  | 0x30 => s.pred[1].signExtend 32
  | 0x34 => s.pred[2].signExtend 32
  | 0x38 => s.nzmask.extractLsb' 0 32
  | 0x3C => s.nzmask.extractLsb' 32 32
  | 0x40 => s.ccin.setWidth 32
  | 0x44 => s.ccout.setWidth 32
  | 0x48 => s.framecfg
  | 0x4C => (s.comp 0).word
  | 0x50 => (s.comp 1).word
  | 0x54 => (s.comp 2).word
  | _ => 0#32

/-- The registers of one Huffman slot at a byte offset within it (10_state.md R56). -/
def HuffSlot.reg (sl : HuffSlot) (off : Nat) : Word :=
  if off = 0x000 then (BitVec.ofBool sl.valid).setWidth 32
  else if off = 0x004 then sl.nvals.setWidth 32
  else if off < 0x040 then 0#32
  else if off < 0x080 then (entry sl.counts ((off - 0x040) / 4)).setWidth 32
  else if off < 0x0C0 then (entry sl.mincode ((off - 0x080) / 4)).setWidth 32
  else if off < 0x100 then entry sl.maxcode ((off - 0x0C0) / 4)
  else if off < 0x140 then (entry sl.valptr ((off - 0x100) / 4)).setWidth 32
  else if off < 0x400 then 0#32
  else if off < 0x800 then (entry sl.huffval ((off - 0x400) / 4)).setWidth 32
  else if off < 0xC00 then
    (entry sl.fastlen ((off - 0x800) / 4) ++ entry sl.fastsym ((off - 0x800) / 4)).setWidth 32
  else 0#32

/-- A host read of the register at an offset that is a multiple of 4 (10_state.md R33, R34). The 16-bit fields COEF, SCRATCH and PRED
are sign-extended, all others zero-extended (00_scope.md R11). -/
def State.readReg (s : State) (off : Nat) : Word :=
  if off < 0x0100 then s.controlReg off
  else if off < 0x0200 then (entry s.coef ((off - 0x0100) / 4)).signExtend 32
  else if off < 0x0300 then (entry s.scratch ((off - 0x0200) / 4)).signExtend 32
  else if off < 0x0400 then (entry s.sample ((off - 0x0300) / 4)).setWidth 32
  else if off < 0x1000 then 0#32
  else if off < 0x9000 then ((s.ht[off / 0x1000 - 1]?).getD HuffSlot.reset).reg (off % 0x1000)
  else if off < 0x9400 then
    (entry ((s.qt[(off - 0x9000) / 0x100]?).getD (Vector.replicate 64 0#16)) (off % 0x100 / 4)).setWidth 32
  else 0#32

/-- A COMPCFG write stores its two fields (10_state.md R51). -/
def CompCfg.ofWord (v : Word) : CompCfg := { h := v.extractLsb' 0 3, v := v.extractLsb' 4 3 }

/-- A SCANCFG write stores its four fields (10_state.md R44). -/
def ScanCfg.ofWord (v : Word) : ScanCfg :=
  { ss := v.extractLsb' 0 6, se := v.extractLsb' 8 6, ah := v.extractLsb' 16 4, al := v.extractLsb' 20 4 }

/-- A host write of v to a register other than CMD (10_state.md R33, R34): stored in the register's writable fields; STATUS is W1C and
ERRCLR (R37); a write to a read-only or unoccupied offset is ignored. -/
def State.writeReg (off : Nat) (v : Word) (s : State) : State :=
  match off with
  | 0x08 => { s with errors := s.errors.write v }
  | 0x10 => { s with reader := { s.reader with srcpos := v } }
  | 0x14 => { s with srclen := v }
  | 0x24 => { s with scancfg := ScanCfg.ofWord v }
  | 0x28 => { s with eobrun := v.setWidth 16 }
  | 0x2C => { s with pred := s.pred.set 0 (v.setWidth 16) }
  | 0x30 => { s with pred := s.pred.set 1 (v.setWidth 16) }
  | 0x34 => { s with pred := s.pred.set 2 (v.setWidth 16) }
  | 0x38 => { s with nzmask := s.nzmask.extractLsb' 32 32 ++ v }
  | 0x3C => { s with nzmask := v ++ s.nzmask.extractLsb' 0 32 }
  | 0x40 => { s with ccin := v.setWidth 24 }
  | 0x48 => { s with ncomp := v.setWidth 2 }
  | 0x4C => { s with compcfg := s.compcfg.set 0 (CompCfg.ofWord v) }
  | 0x50 => { s with compcfg := s.compcfg.set 1 (CompCfg.ofWord v) }
  | 0x54 => { s with compcfg := s.compcfg.set 2 (CompCfg.ofWord v) }
  | off =>
    if 0x0100 ≤ off ∧ off < 0x0200 then { s with coef := s.coef.setIfInBounds ((off - 0x0100) / 4) (v.setWidth 16) }
    else s

/-- The byte a byte-addressed bus shows at address a, where the platform maps the register space at REG_BASE: bit 0 of each register
at its lowest byte address (20_memory.md R96, R99); none outside the window. -/
def State.busByte (s : State) (a : Nat) : Option Byte :=
  if Config.regBase ≤ a ∧ a < Config.regBase + 0x10000 then
    let off := a - Config.regBase
    some ((s.readReg (off / 4 * 4)).extractLsb' (8 * (off % 4)) 8)
  else none

end Sys2Proof.Machine
end

