-- ==== Sys2Proof/Machine/Execute.lean ====
section
/-! DEFINITION. What one host action does (70_reset_and_hazards.md R353): a CMD write executes its word (30_encoding.md R113); the
other accesses read or store; a byte is placed in SRC; power-on resets the block. -/

namespace Sys2Proof.Machine

/-- `Execute(w)` (30_encoding.md R113): an illegal word raises ILLEGAL and has no other effect (60_exceptions.md R316). -/
def runCommand (w : Word) (s : State) : Result :=
  match decode w with
  | .ok i => exec i s
  | .error _ => .next (s.raise .illegal)

/-- The offset of CMD (10_state.md R34, R36). -/
def cmdOffset : BitVec 16 := 0x0004#16

/-- The only host access with a meaning: 32 bits at a multiple of 4 (20_memory.md R97). -/
def wordAccess (off : BitVec 16) (bytes : Nat) : Bool := decide (bytes = 4) && decide (off.toNat % 4 = 0)

/-- A host register read: the data, and no side effect (10_state.md R33). -/
def hostRead (off : BitVec 16) (bytes : Nat) (s : State) : Result :=
  if wordAccess off bytes then .next { s with readData := s.readReg off.toNat } else .refused .hostAccessNotAlignedWord

/-- A host register write (10_state.md R33, R36). -/
def hostWrite (off : BitVec 16) (bytes : Nat) (v : Word) (s : State) : Result :=
  if wordAccess off bytes then
    if off = cmdOffset then runCommand v s else .next (s.writeReg off.toNat v)
  else .refused .hostAccessNotAlignedWord

/-- Power-on reset: HUFFDEC as R64 says, SRC unspecified again (70_reset_and_hazards.md R340, R341; log 16). -/
def State.powerOn (s : State) : State := { s.resetBlock with src := [], srcEpoch := s.srcEpoch + 1 }

/-- One host action (70_reset_and_hazards.md R353). -/
def hostStep (e : HostEvent) (s : State) : Result :=
  match e with
  | .read off bytes => hostRead off bytes s
  | .write off bytes v => hostWrite off bytes v s
  | .placeSrc a b => .next { s with src := s.src.write a.toNat b }
  | .powerOnReset => .next s.powerOn

/-- The host's oldest pending action happens; with none pending nothing does: HUFFDEC never starts a step on its own
(10_state.md R30, 20_memory.md R101, 60_exceptions.md R328). -/
def takeEvent (s : State) : Result :=
  match s.hostQueue with
  | [] => .next s
  | e :: q => hostStep e { s with hostQueue := q }

/-- The host is about to write w to CMD. -/
def State.pendCommand (w : Word) (s : State) : State :=
  { s with hostQueue := .write cmdOffset 4 w :: s.hostQueue }

end Sys2Proof.Machine
end

