-- ==== Sys2Proof/Machine/Step.lean ====
section
/-! DEFINITION. One step of the machine: the host's oldest pending action, which for a CMD write is one whole command. -/

namespace Sys2Proof.Machine

/-- One step (10_state.md R30, 20_memory.md R101). -/
def step : State → Host.Outcome State Fault Refusal := takeEvent

/-- The state in which the next step runs the command whose word is w: HUFFDEC fetches nothing, the host writes each command word to
CMD (10_state.md R31), so the word becomes the host's next pending action (log 2). -/
def State.withFetchWord (s : State) (nbits w : Nat) : State := s.pendCommand (BitVec.ofNat 32 (w % 2 ^ nbits))

end Sys2Proof.Machine
end

