-- ==== Sys2Proof/Safety.lean ====
section
/-! DEFINITION. What claims call a good state and a safe run: the invariants the spec states of the machine's state, and a run that no
refusal stops. -/

namespace Sys2Proof.Machine

/-- The bit reader's invariants (41_bitreader.md R150): 0 ≤ BITCNT ≤ 23 and BRACC[31:BITCNT] = 0. -/
def Reader.Buffered (r : Reader) : Prop := r.bitcnt ≤ 23 ∧ r.bracc.toNat < 2 ^ r.bitcnt

/-- MARKER's legal values (10_state.md R41): 0x01–0xFE when MARKER_VALID = 1, else 0. -/
def Reader.MarkerLegal (r : Reader) : Prop :=
  if r.markerValid then r.marker ≠ 0x00#8 ∧ r.marker ≠ 0xFF#8 else r.marker = 0x00#8

/-- HALT's meaning (10_state.md R41): halted by a marker or by end of stream, by one of the two. -/
def Reader.HaltCaused (r : Reader) : Prop :=
  (r.halt = true ↔ r.eos = true ∨ r.markerValid = true) ∧ ¬(r.eos = true ∧ r.markerValid = true)

/-- The slot invariant (10_state.md R57): a defined slot is exactly the functions of COUNTS and HUFFVAL, of at most 256 symbols, with
HUFFVAL 0 past them and counts that passed the over-subscription check (42_huffman.md R184, R185); an undefined one holds its reset
values. -/
def HuffSlot.Consistent (sl : HuffSlot) : Prop :=
  if sl.valid then
    sl = buildSlot sl.counts sl.huffval ∧ codeLengthsOk sl.counts = true ∧ firstIndex sl.counts 16 ≤ 256 ∧
      ∀ i, firstIndex sl.counts 16 ≤ i → entry sl.huffval i = 0#8
  else sl = HuffSlot.reset

/-- ERRCODE is 0 or a code of 60_exceptions.md R312: "Codes 11–15 are never written". -/
def Errors.CodeLegal (x : Errors) : Prop := x.errcode.toNat ≤ 10

/-- Every invariant together, with SRC in canonical form. -/
structure State.Good (s : State) : Prop where
  buffered : s.reader.Buffered
  marker : s.reader.MarkerLegal
  halted : s.reader.HaltCaused
  slots : ∀ i : Fin 8, s.ht[i].Consistent
  errcode : s.errors.CodeLegal
  memory : s.src.wf = true

/-- An event whose register access is an aligned 32-bit word (20_memory.md R97). -/
def HostEvent.isWordAccess : HostEvent → Bool
  | .read off bytes => wordAccess off bytes
  | .write off bytes _ => wordAccess off bytes
  | .placeSrc _ _ => true
  | .powerOnReset => true

/-- A host that makes only the accesses the spec gives a meaning (20_memory.md R97). -/
def State.HostLegal (s : State) : Prop := s.hostQueue.all HostEvent.isWordAccess = true

/-- A run of n steps that nothing stops. -/
def SafeRun (n : Nat) (s : State) : Prop := ∃ t : State, Host.Core.run Sys2Proof.core n s = .next t

end Sys2Proof.Machine
end

