-- ==== Sys2Proof/Certificates/Slice0/Obligations.lean ====
section
/-! DEFINITION. The statements about HUFFDEC, one `def Obligations.<Name> : Prop` each, taken from the numbered rules of spec/.
The first part writes some of the rules' pseudocode out a second time, in the rule's own terms, for the statements to compare the
model with. -/

namespace Sys2Proof.Spec

open Sys2Proof.Machine

/-! ### Encodings -/

/-- The (mask, match) pairs of spec/opcode_table.json, row by row (30_encoding.md R112, R117). -/
def opcodeRows : List (Word × Word) :=
  [(0xFFFFFFFF#32, 0x00000000#32), (0xFFFFFFFF#32, 0x00000001#32), (0xFFFFFFFF#32, 0x00000002#32)] ++
  [(0xFFFFFFFF#32, 0x00000010#32), (0xFFFFE0FF#32, 0x00000011#32), (0xFFFFE0FF#32, 0x00000012#32)] ++
  [(0xFFFFFFFF#32, 0x00000020#32), (0xFFFFECFF#32, 0x00000021#32), (0xFFFFE0FF#32, 0x00000022#32)] ++
  [(0xFFFFFFFF#32, 0x00000028#32), (0xFFFFFFFF#32, 0x00000030#32), (0xFFFFFFFF#32, 0x00000031#32)] ++
  [(0xFFFEC0FF#32, 0x00000032#32), (0xFFFEC0FF#32, 0x00000033#32), (0xFFFEC0FF#32, 0x00000034#32)] ++
  [(0xFFFEC0FF#32, 0x00000035#32), (0xFFFEC0FF#32, 0x00000036#32), (0xFFFFFCFF#32, 0x00000040#32)] ++
  [(0xFFFFFFFF#32, 0x00000050#32), (0xFFFFFFFF#32, 0x00000051#32), (0xE0E0FCFF#32, 0x00000058#32)]

/-- The operand value checks of 30_encoding.md R116 on a word, UP_MAP's register checks apart. -/
abbrev operandChecks (w : Word) : Prop :=
  (w.extractLsb' 0 8 ∈ [0x11#8, 0x12#8, 0x22#8] → (w.extractLsb' 8 5).toNat ≤ 16) ∧
    (w.extractLsb' 0 8 ∈ [0x32#8, 0x33#8, 0x34#8, 0x35#8, 0x36#8, 0x58#8] → (w.extractLsb' 8 2).toNat ≤ 2)

/-- The D bit and the k bit as numbers (30_encoding.md R112). -/
def modeBit : Mode → Nat
  | .store => 0
  | .discard => 1
def classBit : HuffClass → Nat
  | .dc => 0
  | .ac => 1

/-- A word of format E: opcode | D<<16 | ta<<12 | td<<10 | c<<8 (43_entropy.md R226–R230). -/
def wordE (op : Nat) (c td ta : BitVec 2) (d : Mode) : Nat :=
  op + c.toNat * 2 ^ 8 + td.toNat * 2 ^ 10 + ta.toNat * 2 ^ 12 + modeBit d * 2 ^ 16

/-- The word of each command as its own rule writes it ("Encoding: …"), in plain arithmetic. -/
def wordNat : Instr → Nat
  | .nop => 0x00
  | .softReset => 0x01
  | .coefClear => 0x02
  | .brReset => 0x10
  | .brGetbits n => 0x11 + n.toNat * 2 ^ 8
  | .brPeekbits n => 0x12 + n.toNat * 2 ^ 8
  | .htDefine => 0x20
  | .htDecode k i => 0x21 + classBit k * 2 ^ 12 + i.toNat * 2 ^ 8
  | .htReceiveExtend n => 0x22 + n.toNat * 2 ^ 8
  | .qtDefine => 0x28
  | .edScanStart => 0x30
  | .edRestart => 0x31
  | .edBaseline c td ta d => wordE 0x32 c td ta d
  | .edDcFirst c td ta d => wordE 0x33 c td ta d
  | .edDcRefine c td ta d => wordE 0x34 c td ta d
  | .edAcFirst c td ta d => wordE 0x35 c td ta d
  | .edAcRefine c td ta d => wordE 0x36 c td ta d
  | .idct q => 0x40 + q.toNat * 2 ^ 8
  | .ccYcc => 0x50
  | .ccGray => 0x51
  | .upMap c px py => 0x58 + c.toNat * 2 ^ 8 + px.toNat * 2 ^ 16 + py.toNat * 2 ^ 24

/-- The word of a command decodes to it. -/
def Encodes (i : Instr) : Prop := decode (BitVec.ofNat 32 (wordNat i)) = .ok i

/-! ### Errors -/

/-- What an illegal command leaves: E_ILLEGAL set, ERRCODE = 1 if it was 0, nothing else changed (60_exceptions.md R316). -/
def afterIllegal (s : State) : State :=
  { s with
    errors :=
      { sticky := s.errors.sticky ||| 0b0000001#7
        errcode := if s.errors.errcode = 0#4 then 1#4 else s.errors.errcode } }

/-- Column "code" and column "sticky bit" of 60_exceptions.md R312. -/
def errorTable : List (ErrorCode × Nat × Nat) :=
  [(.illegal, 1, 8), (.parseEos, 2, 9), (.parseIndex, 3, 9), (.parseCount, 4, 9), (.parseCodelen, 5, 9)] ++
  [(.badTable, 6, 10), (.badCode, 7, 11), (.badSym, 8, 12), (.badRun, 9, 13), (.rstMiss, 10, 14)]

/-- Column "raised by" of 60_exceptions.md R312, with the "Errors" of each command's rule: the sticky bits (bit 0 = E_ILLEGAL)
a well-formed command may set. -/
def mayRaise : Instr → BitVec 7
  | .nop | .softReset | .coefClear | .brReset | .brGetbits _ | .brPeekbits _ | .htReceiveExtend _ | .edScanStart => 0#7
  | .idct _ | .ccYcc | .ccGray | .edDcRefine _ _ _ _ => 0#7
  | .htDefine | .qtDefine => 0b0000010#7
  | .htDecode _ _ => 0b0001100#7
  | .edBaseline _ _ _ _ => 0b0111100#7
  | .edDcFirst _ _ _ _ => 0b0011100#7
  | .edAcFirst _ _ _ _ => 0b0101100#7
  | .edAcRefine _ _ _ _ => 0b0111100#7
  | .edRestart => 0b1000000#7
  | .upMap _ _ _ => 0b0000001#7

/-! ### Registers -/

/-- The offsets a host write stores to (10_state.md R34, column "access": RW), STATUS and CMD apart. -/
abbrev writableOffset (off : Nat) : Prop :=
  off ∈ [0x10, 0x14, 0x24, 0x28, 0x2C, 0x30, 0x34, 0x38, 0x3C, 0x40, 0x48, 0x4C, 0x50, 0x54] ∨ (0x100 ≤ off ∧ off < 0x200)

/-- What a read gives after a write of v (10_state.md R39–R52, 00_scope.md R11); FRAMECFG apart. -/
def readBack (off : Nat) (v : Word) : Word :=
  if off ∈ [0x10, 0x14, 0x38, 0x3C] then v
  else if off = 0x24 then v &&& 0x00FF3F3F#32
  else if off = 0x28 then v &&& 0x0000FFFF#32
  else if off = 0x40 then v &&& 0x00FFFFFF#32
  else if off ∈ [0x4C, 0x50, 0x54] then v &&& 0x00000077#32
  else (v.setWidth 16).signExtend 32

/-- What every register reads after reset: ID its constant, the others 0 (40_system.md R141). -/
def ReadsAsReset (s : State) : Prop := ∀ off, off % 4 = 0 → s.readReg off = if off = 0 then 0x48554646#32 else 0#32

/-- A flag as a number. -/
def bit (b : Bool) : Nat := if b then 1 else 0

/-- STATUS as a number (10_state.md R37): BUSY and ERRCLR 0. -/
def statusValue (s : State) : Nat :=
  bit s.reader.halt * 2 ^ 1 + bit s.reader.eos * 2 ^ 2 + bit s.reader.markerValid * 2 ^ 3 + s.errors.sticky.toNat * 2 ^ 8 +
    s.errors.errcode.toNat * 2 ^ 16

/-- BRSTATE as a number (10_state.md R41). -/
def brstateValue (r : Reader) : Nat :=
  r.bitcnt % 2 ^ 5 + bit r.halt * 2 ^ 8 + bit r.eos * 2 ^ 9 + bit r.markerValid * 2 ^ 10 + r.marker.toNat * 2 ^ 16 +
    r.lastrst.toNat * 2 ^ 24 + bit r.lastrstValid * 2 ^ 27

/-- COMPCFG<j> as a number (10_state.md R51). -/
def compcfgValue (f : CompCfg) : Nat := f.h.toNat + f.v.toNat * 2 ^ 4

/-! ### Stream -/

/-- The k bytes at and after address a are 0xFF. -/
abbrev ffRun (m : Source) (a : Word) (k : Nat) : Prop := ∀ j, j < k → m.byte (a + BitVec.ofNat 32 j) = 0xFF#8

/-- k calls of FetchDataByte, their bytes dropped. -/
def iterFetch (m : Source) : Nat → Reader → Reader
  | 0, r => r
  | k + 1, r => iterFetch m k (fetchDataByte m r).2

/-! ### Huffman tables -/

/-- COUNTS[l] for l = 1..16. -/
def countOf (c : Vector Byte 16) (l : Nat) : Nat := (entry c (l - 1)).toNat

/-- The loop of BuildCodes from length l on, for `left` lengths (42_huffman.md R181): (SIZE, CODE) of each symbol in order. -/
def codesFrom (c : Vector Byte 16) : Nat → Nat → Nat → List (Nat × Nat)
  | 0, _, _ => []
  | left + 1, l, code =>
    (List.range (countOf c l)).map (fun j => (l, code + j)) ++ codesFrom c left (l + 1) ((code + countOf c l) * 2)

/-- SIZE and CODE (42_huffman.md R181). -/
def codes (c : Vector Byte 16) : List (Nat × Nat) := codesFrom c 16 1 0

/-- The loop of CodeLengthsOK from length l on, for `left` lengths (42_huffman.md R184). -/
def lengthsOkFrom (c : Vector Byte 16) : Nat → Nat → Nat → Bool
  | 0, _, _ => true
  | left + 1, l, code => decide (code + countOf c l ≤ 2 ^ l) && lengthsOkFrom c left (l + 1) ((code + countOf c l) * 2)

/-- The value of `code` at the top of iteration l (42_huffman.md R181, R182). -/
def startOf (c : Vector Byte 16) : Nat → Nat
  | 0 => 0
  | 1 => 0
  | l + 2 => (startOf c (l + 1) + countOf c (l + 1)) * 2

/-- The writes to FASTLEN and FASTSYM in the order of 42_huffman.md R183: address, length, symbol. -/
def fastWrites (c : Vector Byte 16) (v : Vector Byte 256) : List (Nat × Nat × Byte) :=
  (codes c).zipIdx.flatMap fun x =>
    if x.1.1 ≤ 8 then
      (List.range (2 ^ (8 - x.1.1))).map fun j => (x.1.2 * 2 ^ (8 - x.1.1) + j, x.1.1, entry v x.2)
    else []

/-- FAST after those writes, from all zeros (42_huffman.md R183). -/
def fastTable (c : Vector Byte 16) (v : Vector Byte 256) : List (Nat × Byte) :=
  (fastWrites c v).foldl (fun tab w => tab.set w.1 w.2) (List.replicate 256 (0, 0#8))

/-- The slow path alone, from length 1 (42_huffman.md R190). -/
def slowPath (m : Source) (sl : HuffSlot) (r : Reader) : Decoded × Reader :=
  slowDecode m sl 15 (getBits m 1 r).1 (getBits m 1 r).2

/-- The slow path from length 9 (42_huffman.md R191). -/
def slowPathFromNine (m : Source) (sl : HuffSlot) (r : Reader) : Decoded × Reader :=
  slowDecode m sl 7 (getBits m 9 r).1 (getBits m 9 r).2

/-! ### Table definitions -/

/-- Byte j of the table body at SRCPOS. -/
def bodyByte (s : State) (j : Nat) : Byte := s.source.byte (s.reader.srcpos + BitVec.ofNat 32 j)

/-- SRC holds at least n bytes from SRCPOS on. -/
abbrev bodyHas (s : State) (n : Nat) : Prop := s.reader.srcpos.toNat + n ≤ s.srclen.toNat

/-- The bytes left from SRCPOS on. -/
def bodyLeft (s : State) : Nat := s.srclen.toNat - s.reader.srcpos.toNat

/-- `Fail(code)` after n bytes (42_huffman.md R185): the error, SRCPOS and RESULT; no table. -/
def failedDefine (s : State) (e : ErrorCode) (n : Nat) : State :=
  { s with
    errors := s.errors.raise e
    reader := { s.reader with srcpos := s.reader.srcpos + BitVec.ofNat 32 n }
    result := 0x80000000#32 ||| BitVec.ofNat 32 n }

/-- tc > 1 or th > 3, and pq > 1 or tq > 3 (42_huffman.md R185, R200). -/
abbrev badTag (t : Byte) : Prop := 1 < t.toNat / 16 ∨ 3 < t.toNat % 16

/-- COUNTS, n and HUFFVAL of the table body at SRCPOS (30_encoding.md R121). -/
def bodyCounts (s : State) : Vector Byte 16 := tabulate 16 fun j => bodyByte s (1 + j)
def bodyTotal (s : State) : Nat := ((List.range 16).map fun j => (bodyByte s (1 + j)).toNat).sum
def bodyValues (s : State) : Vector Byte 256 := tabulate 256 fun i => if i < bodyTotal s then bodyByte s (17 + i) else 0#8

/-- Entry k of the quantisation table body at SRCPOS (30_encoding.md R122): two bytes each, most significant first, when Pq = 1. -/
def bodyQuant (s : State) (k : Nat) : Nat :=
  if (bodyByte s 0).toNat / 16 = 1 then (bodyByte s (1 + 2 * k)).toNat * 256 + (bodyByte s (2 + 2 * k)).toNat
  else (bodyByte s (1 + k)).toNat

/-- Length of the quantisation table body (30_encoding.md R122). -/
def quantLength (s : State) : Nat := if (bodyByte s 0).toNat / 16 = 1 then 129 else 65

/-- Anti-diagonal d of the 8×8 grid as natural indices: even ones walked with the row decreasing, odd ones with the row increasing
(10_state.md R62). -/
def antiDiagonal (d : Nat) : List Nat :=
  let down := ((List.range 8).filter fun r => decide (r ≤ d) && decide (d - r < 8)).map fun r => 8 * r + (d - r)
  if d % 2 = 0 then down.reverse else down

/-- The walk of the anti-diagonals r + c = 0..14 that defines ZZ (10_state.md R62). -/
def zigzagWalk : List Nat := (List.range 15).flatMap antiDiagonal

/-! ### Block commands -/

/-- The errors after a decode that raises an error or none (42_huffman.md R190). -/
def raised (x : Errors) : Option ErrorCode → Errors
  | none => x
  | some e => x.raise e

/-- The working state at the start of a block command, and the state at its end: RESULT (43_entropy.md R222), the bitmap write-back over
lo..hi (R221), and the target in COEF or in SCRATCH (R220). -/
def blockStart (d : Mode) (s : State) : BlockRun :=
  { reader := s.reader, errors := s.errors, t := s.selectTarget d, eobrun := s.eobrun }
def blockDone (d : Mode) (lo hi : Nat) (b : BlockRun) (s : State) : State :=
  { s with
    reader := b.reader
    errors := b.errors
    eobrun := b.eobrun
    result := b.reader.consumed - s.reader.consumed
    nzmask := s.nzmask ||| BitVec.ofFnLE fun k => decide (lo ≤ k.val ∧ k.val ≤ hi ∧ b.t[zz k.val] ≠ 0#16)
    coef := if d = .store then b.t else s.coef
    scratch := if d = .store then s.scratch else b.t }

/-- One `Decode` within a block command: the symbol, and the working state after it (42_huffman.md R190). -/
def decodeStep (m : Source) (sl : HuffSlot) (b : BlockRun) : Nat × BlockRun :=
  ((slotDecode m sl b.reader).1.sym.toNat,
    { b with reader := (slotDecode m sl b.reader).2, errors := raised b.errors (slotDecode m sl b.reader).1.bad })

/-- The value of `GetBits(n)`, and the working state after it. -/
def bitsAt (m : Source) (n : Nat) (b : BlockRun) : Nat := (getBits m n b.reader).1
def afterBits (m : Source) (n : Nat) (b : BlockRun) : BlockRun := { b with reader := (getBits m n b.reader).2 }

/-- `T[ZZ[k]] <- wrap16(v)` and `raise Error(e)` on the working state. -/
def storedAt (k : Nat) (v : Int) (b : BlockRun) : BlockRun := { b with t := b.t.set (zz k) (wrap16 v) }
def withError (e : ErrorCode) (b : BlockRun) : BlockRun := { b with errors := b.errors.raise e }

/-- `EOBRUN <- 2^r + GetBits(r) − 1` of AC-first (43_entropy.md R229). -/
def endOfBand (m : Source) (r : Nat) (b : BlockRun) : BlockRun :=
  { afterBits m r b with eobrun := BitVec.ofNat 16 (2 ^ r + bitsAt m r b - 1) }

/-- `Correct(k)` (43_entropy.md R230): a bit of 1 moves the coefficient p1 away from zero, a bit of 0 leaves it. -/
def correction (m : Source) (p1 : Int) (k : Nat) (b : BlockRun) : BlockRun :=
  if bitsAt m 1 b = 1 then
    if 0 < b.t[zz k].toInt then storedAt k (b.t[zz k].toInt + p1) (afterBits m 1 b)
    else storedAt k (b.t[zz k].toInt - p1) (afterBits m 1 b)
  else afterBits m 1 b

/-- `newval` of AC-refine for a symbol of size s (43_entropy.md R230): a sign bit of 1 is positive; 0 for size 0. -/
def newvalOf (m : Source) (p1 : Int) (size : Nat) (b : BlockRun) : Int :=
  if size = 1 then (if bitsAt m 1 b = 1 then p1 else -p1) else 0
def afterNewval (m : Source) (size : Nat) (b : BlockRun) : BlockRun := if size = 1 then afterBits m 1 b else b

/-- The placement of `newval` at position k (43_entropy.md R230): BADRUN where no zero position is left in range. -/
def placed (se k : Nat) (newval : Int) (b : BlockRun) : BlockRun :=
  if newval ≠ 0 then (if k ≤ se then storedAt k newval b else withError .badRun b) else b

/-- The five block commands with given operands (43_entropy.md R220). -/
def blockCommands (c td ta : BitVec 2) (d : Mode) : List Instr :=
  [.edBaseline c td ta d, .edDcFirst c td ta d, .edDcRefine c td ta d, .edAcFirst c td ta d, .edAcRefine c td ta d]

/-- The mode of a block command, none for another command. -/
def blockMode : Instr → Option Mode
  | .edBaseline _ _ _ d | .edDcFirst _ _ _ d | .edDcRefine _ _ _ d | .edAcFirst _ _ _ d | .edAcRefine _ _ _ d => some d
  | _ => none

/-- The zigzag range of the bitmap write-back (43_entropy.md R221). -/
def writeBackRange (s : State) : Instr → Nat × Nat
  | .edBaseline _ _ _ _ => (0, 63)
  | .edAcFirst _ _ _ _ | .edAcRefine _ _ _ _ => (s.scancfg.ss.toNat, s.scancfg.se.toNat)
  | _ => (0, 0)

/-- The block a command of mode D works in, as a state holds it. -/
def targetIn (d : Mode) (s : State) : Block :=
  match d with
  | .store => s.coef
  | .discard => s.scratch

/-- Commands that update the predictors (10_state.md R46), EOBRUN (R45), the bit reader or SRCPOS (R63, R31), CONSUMED (R43),
RESULT (R38). -/
def writesPred : Instr → Bool
  | .edScanStart | .edRestart | .edBaseline _ _ _ _ | .edDcFirst _ _ _ _ => true
  | _ => false
def writesEobrun : Instr → Bool
  | .edScanStart | .edRestart | .edAcFirst _ _ _ _ | .edAcRefine _ _ _ _ => true
  | _ => false
def consumesBits : Instr → Bool
  | .brGetbits _ | .htDecode _ _ | .htReceiveExtend _ => true
  | .edBaseline _ _ _ _ | .edDcFirst _ _ _ _ | .edDcRefine _ _ _ _ | .edAcFirst _ _ _ _ | .edAcRefine _ _ _ _ => true
  | _ => false
def movesReader : Instr → Bool
  | .brReset | .brPeekbits _ | .htDefine | .qtDefine | .edScanStart | .edRestart => true
  | i => consumesBits i
def writesResult : Instr → Bool
  | .brPeekbits _ | .htDefine | .qtDefine | .ccYcc | .ccGray | .upMap _ _ _ => true
  | i => consumesBits i

/-- The block as seen through its zero pattern over lo..hi: T[ZZ[k]] = 0 alike (43_entropy.md R232). -/
abbrev SamePattern (t u : Block) (lo hi : Nat) : Prop := ∀ k, lo ≤ k → k ≤ hi → (t[zz k] = 0#16 ↔ u[zz k] = 0#16)

/-- One correction step of AC-refine: the coefficient one step away from zero (43_entropy.md R230). -/
def corrected (al : BitVec 4) (x : Coef) : Coef :=
  wrap16 (if 0 < x.toInt then x.toInt + 2 ^ al.toNat else x.toInt - 2 ^ al.toNat)

/-! ### Upsampler -/

/-- H and V of component j (45_color_upsample.md R294): 1×1 for a single component. -/
def upH (s : State) (j : Nat) : Nat := if s.ncomp.toNat = 1 then 1 else (s.comp j).h.toNat
def upV (s : State) (j : Nat) : Nat := if s.ncomp.toNat = 1 then 1 else (s.comp j).v.toNat

/-- Hmax and Vmax over the NCOMP components. -/
def upHmax (s : State) : Nat := ((List.range s.ncomp.toNat).map (upH s)).foldl max 0
def upVmax (s : State) : Nat := ((List.range s.ncomp.toNat).map (upV s)).foldl max 0

/-- The legality checks of UP_MAP (45_color_upsample.md R294). -/
abbrev UpLegal (s : State) (c px py : Nat) : Prop :=
  s.ncomp.toNat ≠ 0 ∧ c < s.ncomp.toNat ∧
    (∀ j, j < s.ncomp.toNat → 1 ≤ upH s j ∧ upH s j ≤ 4 ∧ 1 ≤ upV s j ∧ upV s j ≤ 4) ∧ px < 8 * upHmax s ∧ py < 8 * upVmax s

def upSx (s : State) (c px : Nat) : Nat := px * upH s c / upHmax s
def upSy (s : State) (c py : Nat) : Nat := py * upV s c / upVmax s
def upOff (s : State) (c : Nat) : Nat := ((List.range c).map fun j => upH s j * upV s j).sum

/-! ### Register map -/

/-- The control registers with an unsigned reading, offset by offset (10_state.md R34–R51). -/
def controlReadings (s : State) : List (Nat × Nat) :=
  [(0x00, 0x48554646), (0x04, 0), (0x08, statusValue s), (0x0C, s.result.toNat), (0x10, s.reader.srcpos.toNat)] ++
  [(0x14, s.srclen.toNat), (0x18, brstateValue s.reader), (0x1C, s.reader.bracc.toNat), (0x20, s.reader.consumed.toNat)] ++
  [(0x24, s.scancfg.ss.toNat + s.scancfg.se.toNat * 2 ^ 8 + s.scancfg.ah.toNat * 2 ^ 16 + s.scancfg.al.toNat * 2 ^ 20)] ++
  [(0x28, s.eobrun.toNat), (0x38, s.nzmask.toNat % 2 ^ 32), (0x3C, s.nzmask.toNat / 2 ^ 32), (0x40, s.ccin.toNat)] ++
  [(0x44, s.ccout.toNat), (0x48, s.ncomp.toNat + upHmax s * 2 ^ 8 + upVmax s * 2 ^ 12)] ++
  [(0x4C, compcfgValue s.compcfg[0]), (0x50, compcfgValue s.compcfg[1]), (0x54, compcfgValue s.compcfg[2])]

/-- The registers of Huffman slot n (10_state.md R56), field by field at 0x1000 + 0x1000·n + the field's offset. -/
def SlotReadings (s : State) (n : Fin 8) : Prop :=
  (s.readReg (0x1000 + 0x1000 * n)).toNat = bit s.ht[n].valid ∧
    (s.readReg (0x1000 + 0x1000 * n + 0x004)).toNat = s.ht[n].nvals.toNat ∧
    (∀ j : Fin 16,
      (s.readReg (0x1000 + 0x1000 * n + 0x040 + 4 * j)).toNat = s.ht[n].counts[j].toNat ∧
      (s.readReg (0x1000 + 0x1000 * n + 0x080 + 4 * j)).toNat = s.ht[n].mincode[j].toNat ∧
      (s.readReg (0x1000 + 0x1000 * n + 0x0C0 + 4 * j)).toInt = s.ht[n].maxcode[j].toInt ∧
      (s.readReg (0x1000 + 0x1000 * n + 0x100 + 4 * j)).toNat = s.ht[n].valptr[j].toNat) ∧
    ∀ i : Fin 256,
      (s.readReg (0x1000 + 0x1000 * n + 0x400 + 4 * i)).toNat = s.ht[n].huffval[i].toNat ∧
      (s.readReg (0x1000 + 0x1000 * n + 0x800 + 4 * i)).toNat = s.ht[n].fastlen[i].toNat * 2 ^ 8 + s.ht[n].fastsym[i].toNat

/-- The offsets a register occupies (10_state.md R34, R56). -/
def occupiedOffset (off : Nat) : Prop :=
  off ≤ 0x54 ∨ (0x0100 ≤ off ∧ off < 0x0400) ∨
    (0x1000 ≤ off ∧ off < 0x9000 ∧
      (off % 0x1000 = 0x000 ∨ off % 0x1000 = 0x004 ∨ (0x040 ≤ off % 0x1000 ∧ off % 0x1000 < 0x140) ∨
        (0x400 ≤ off % 0x1000 ∧ off % 0x1000 < 0xC00))) ∨
    (0x9000 ≤ off ∧ off < 0x9400)

/-- What a read gives at every aligned offset (10_state.md R33–R58, 00_scope.md R11): signed fields as their integer, the others as
their number, 0 where no register stands. -/
def ReadsAsTheRegisterMap (s : State) : Prop :=
  (∀ x ∈ controlReadings s, (s.readReg x.1).toNat = x.2) ∧
    (∀ c : Fin 3, (s.readReg (0x2C + 4 * c)).toInt = s.pred[c].toInt) ∧
    (∀ i : Fin 64,
      (s.readReg (0x0100 + 4 * i)).toInt = s.coef[i].toInt ∧ (s.readReg (0x0200 + 4 * i)).toInt = s.scratch[i].toInt ∧
      (s.readReg (0x0300 + 4 * i)).toNat = s.sample[i].toNat) ∧
    (∀ n : Fin 8, SlotReadings s n) ∧
    (∀ (q : Fin 4) (i : Fin 64), (s.readReg (0x9000 + 0x100 * q + 4 * i)).toNat = s.qt[q][i].toNat) ∧
    ∀ off, off % 4 = 0 → ¬occupiedOffset off → s.readReg off = 0#32

/-! ### Inverse DCT -/

/-- The constants of 44_idct.md R272. -/
def f0298 : Int := 2446
def f0390 : Int := 3196
def f0541 : Int := 4433
def f0765 : Int := 6270
def f0899 : Int := 7373
def f1175 : Int := 9633
def f1501 : Int := 12299
def f1847 : Int := 15137
def f1961 : Int := 16069
def f2053 : Int := 16819
def f2562 : Int := 20995
def f3072 : Int := 25172

/-- The even part of the kernel of 44_idct.md R273 as combinations of its inputs: t10, t11 (t13 and t12 with the sign of the i2, i6
terms changed). -/
def evenSum (i0 i4 : Int) : Int := 2 ^ 13 * i0 + 2 ^ 13 * i4
def evenDiff (i0 i4 : Int) : Int := 2 ^ 13 * i0 - 2 ^ 13 * i4
def evenOuter (i2 i6 : Int) : Int := (f0541 + f0765) * i2 + f0541 * i6
def evenInner (i2 i6 : Int) : Int := f0541 * i2 + (f0541 - f1847) * i6

/-- The odd part of the kernel of 44_idct.md R273 as combinations of its inputs: the final a0, a1, a2, a3. -/
def oddA0 (i1 i3 i5 i7 : Int) : Int :=
  (f0298 - f0899 - f1961 + f1175) * i7 + f1175 * i5 + (f1175 - f1961) * i3 + (f1175 - f0899) * i1
def oddA1 (i1 i3 i5 i7 : Int) : Int :=
  f1175 * i7 + (f2053 - f2562 - f0390 + f1175) * i5 + (f1175 - f2562) * i3 + (f1175 - f0390) * i1
def oddA2 (i1 i3 i5 i7 : Int) : Int :=
  (f1175 - f1961) * i7 + (f1175 - f2562) * i5 + (f3072 - f2562 - f1961 + f1175) * i3 + f1175 * i1
def oddA3 (i1 i3 i5 i7 : Int) : Int :=
  (f1175 - f0899) * i7 + (f1175 - f0390) * i5 + f1175 * i3 + (f1501 - f0899 - f0390 + f1175) * i1

/-- The eight outputs of the kernel (44_idct.md R273) as combinations of its inputs. -/
def kernelOutputs (v : Vector Int 8) : List Int :=
  [evenSum v[0] v[4] + evenOuter v[2] v[6] + oddA3 v[1] v[3] v[5] v[7]] ++
  [evenDiff v[0] v[4] + evenInner v[2] v[6] + oddA2 v[1] v[3] v[5] v[7]] ++
  [evenDiff v[0] v[4] - evenInner v[2] v[6] + oddA1 v[1] v[3] v[5] v[7]] ++
  [evenSum v[0] v[4] - evenOuter v[2] v[6] + oddA0 v[1] v[3] v[5] v[7]] ++
  [evenSum v[0] v[4] - evenOuter v[2] v[6] - oddA0 v[1] v[3] v[5] v[7]] ++
  [evenDiff v[0] v[4] - evenInner v[2] v[6] - oddA1 v[1] v[3] v[5] v[7]] ++
  [evenDiff v[0] v[4] + evenInner v[2] v[6] - oddA2 v[1] v[3] v[5] v[7]] ++
  [evenSum v[0] v[4] + evenOuter v[2] v[6] - oddA3 v[1] v[3] v[5] v[7]]

/-- Every value the even part of 44_idct.md R273 computes, in its order: each sum, product and difference. -/
def evenTerms (v : Vector Int 8) : List Int :=
  let z1 := (v[2] + v[6]) * f0541
  let t2 := z1 - v[6] * f1847
  let t3 := z1 + v[2] * f0765
  let t0 := (v[0] + v[4]) * 2 ^ 13
  let t1 := (v[0] - v[4]) * 2 ^ 13
  [v[2] + v[6], z1, v[6] * f1847, t2, v[2] * f0765, t3] ++ [v[0] + v[4], t0, v[0] - v[4], t1] ++
    [t0 + t3, t0 - t3, t1 + t2, t1 - t2]

/-- Every value the odd part of 44_idct.md R273 computes, in its order. -/
def oddTerms (v : Vector Int 8) : List Int :=
  let z1 := -(v[7] + v[1]) * f0899
  let z2 := -(v[5] + v[3]) * f2562
  let z3' := -(v[7] + v[3]) * f1961
  let z4' := -(v[5] + v[1]) * f0390
  let z5 := ((v[7] + v[3]) + (v[5] + v[1])) * f1175
  let z3 := z3' + z5
  let z4 := z4' + z5
  [v[7] + v[1], v[5] + v[3], v[7] + v[3], v[5] + v[1], (v[7] + v[3]) + (v[5] + v[1]), z5] ++
    [v[7] * f0298, v[5] * f2053, v[3] * f3072, v[1] * f1501] ++ [z1, z2, z3', z4', z3, z4] ++
    [v[7] * f0298 + z1, v[5] * f2053 + z2, v[3] * f3072 + z2, v[1] * f1501 + z1] ++
    [v[7] * f0298 + z1 + z3, v[5] * f2053 + z2 + z4, v[3] * f3072 + z2 + z3, v[1] * f1501 + z1 + z4]

/-- Every value the kernel of 44_idct.md R273 computes, its eight outputs last. -/
def kernelTerms (v : Vector Int 8) : List Int := evenTerms v ++ oddTerms v ++ kernelOutputs v

/-! ### Colour -/

/-- A colour channel as an integer formula: Y + ((term + 2^15) >> 16), clamped (45_color_upsample.md R290). -/
def channelValue (y : Byte) (term : Int) : Int := min 255 (max 0 ((y.toNat : Int) + (term + 32768) / 65536))

/-- `Pack565` on channel values (45_color_upsample.md R292). -/
def packed (r g b : Nat) : Nat := r / 8 * 2048 + g / 4 * 32 + b / 8

end Sys2Proof.Spec

open Sys2Proof Sys2Proof.Machine Sys2Proof.Spec

/-! ### Encoding -/

/-- R112–R117: a well-formed command survives encoding, its word is the one its rule writes, and a command term whose operand value
check fails is refused for that. -/
def Obligations.DecodeOfEncode : Prop :=
  ∀ i : Instr, (encode i).toNat = wordNat i ∧ decode (encode i) = if i.wellFormed then .ok i else .error (.operandValue i)

/-- R114: a legal word decodes to exactly one command, which has that word as its only encoding. -/
def Obligations.DecodedWordIsEncoding : Prop :=
  ∀ (w : Word) (i : Instr), decode w = .ok i → i.wellFormed = true ∧ encode i = w ∧ ∀ j, encode j = w → j = i

/-- R113, R114, R116, R118: a word decodes exactly when a row of the opcode table matches it and the operand value checks that need no
register pass. UP_MAP's further checks (R294), which R116 counts among the operand value checks of format U, read FRAMECFG and COMPCFG and
are not in the decoder but in the meaning of UP_MAP (log 8, DEDUCED): a UP_MAP word that fails only those decodes, and is illegal
(IllegalCommandOnlyRaisesIllegal). -/
def Obligations.LegalWordsAreTheTableRows : Prop :=
  ∀ w : Word, (∃ i, decode w = .ok i) ↔ (∃ row ∈ opcodeRows, w &&& row.1 = row.2) ∧ operandChecks w

/-- Words of the spec's encodings, written out, decode to the commands they stand for; some words of R114, R116 and R118 do not. -/
def Obligations.WrittenWordsDecode : Prop :=
  decode 0x00000000#32 = .ok .nop ∧ decode 0x00001011#32 = .ok (.brGetbits 16#5) ∧
    decode 0x00001221#32 = .ok (.htDecode .ac 2#2) ∧ decode 0x00011932#32 = .ok (.edBaseline 1#2 2#2 1#2 .discard) ∧
    decode 0x00000340#32 = .ok (.idct 3#2) ∧ decode 0x03090158#32 = .ok (.upMap 1#2 9#5 3#5) ∧
    decode 0x00000003#32 = .error (.unknownOpcode 0x03#8) ∧ decode 0x00000421#32 = .error (.reservedBit .T) ∧
    decode 0x00001111#32 = .error (.operandValue (.brGetbits 17#5))

/-! ### Steps -/

/-- R30, R36, R113: when the host's next action is a CMD write of a legal word, the step is `exec` of the decoded command, on the
state with that action taken off the queue. The queue of host actions is the model's own (log 1, DESIGN CHOICE); the second clause, that
`withFetchWord` makes the very next step run its word, is the model's choice (log 2, DESIGN CHOICE) and no rule of the spec. -/
def Obligations.StepRunsDecodedCommand : Prop :=
  ∀ (s : State) (w : Word) (i : Instr), decode w = .ok i →
    (∀ q, s.hostQueue = .write 0x0004#16 4 w :: q → step s = exec i { s with hostQueue := q }) ∧
      step (s.withFetchWord 32 w.toNat) = exec i s

/-- R316, R113: an illegal command word sets E_ILLEGAL, and ERRCODE if it was 0, and changes nothing else: an undecodable word, a
command whose operand value check fails, and an illegal UP_MAP. -/
def Obligations.IllegalCommandOnlyRaisesIllegal : Prop :=
  (∀ (s : State) (w : Word) (q : List HostEvent) (e : DecodeError), s.hostQueue = .write 0x0004#16 4 w :: q → decode w = .error e →
    step s = .next (afterIllegal { s with hostQueue := q })) ∧
    (∀ (i : Instr) (s : State), i.wellFormed = false → exec i s = .next (afterIllegal s)) ∧
    ∀ (s : State) (c : BitVec 2) (px py : BitVec 5), ¬UpLegal s c.toNat px.toNat py.toNat →
      exec (.upMap c px py) s = .next (afterIllegal s)

/-- R30, R33–R58: with no host action pending nothing happens; an aligned word read returns the register and has no side effect; and what
each register reads, offset by offset: STATUS and BRSTATE bit by bit, the computed FRAMECFG fields, the signed and unsigned fields, every
field of the Huffman slots and the quantisation tables, and 0 where no register stands (the queue of host actions and the field that keeps
the read data are the model's own, logs 1 and 3). -/
def Obligations.HostReadHasNoSideEffect : Prop :=
  ∀ s : State, ReadsAsTheRegisterMap s ∧ (s.hostQueue = [] → step s = .next s) ∧
    ∀ (off : BitVec 16) (q : List HostEvent), s.hostQueue = .read off 4 :: q → off.toNat % 4 = 0 →
      step s = .next { s with hostQueue := q, readData := s.readReg off.toNat }

/-- R97, R310: a step is refused exactly when the host's next action is a register access that is not an aligned 32-bit word; no
command is ever refused, whatever errors are recorded, and nothing faults. -/
def Obligations.OnlyUnalignedHostAccessIsRefused : Prop :=
  ∀ s : State,
    (∀ r : Refusal, step s = .refused r ↔
      r = .hostAccessNotAlignedWord ∧ ∃ (e : HostEvent) (q : List HostEvent), s.hostQueue = e :: q ∧
        ∃ (off : BitVec 16) (bytes : Nat), (e = .read off bytes ∨ ∃ v, e = .write off bytes v) ∧ (bytes ≠ 4 ∨ off.toNat % 4 ≠ 0)) ∧
      ∀ f : Fault, step s ≠ .fault f

/-- R37, R318: a host write of w to STATUS clears each sticky bit i in 8..14 with w[i] = 1, sets ERRCODE to 0 if w[15] = 1, and changes
nothing else. -/
def Obligations.StatusWriteClearsWrittenOnes : Prop :=
  ∀ (s : State) (w : Word) (q : List HostEvent), s.hostQueue = .write 0x0008#16 4 w :: q →
    ∃ e : Errors, step s = .next { s with hostQueue := q, errors := e } ∧
      (∀ i, i < 7 → e.sticky.getLsbD i = (s.errors.sticky.getLsbD i && !w.getLsbD (i + 8))) ∧
      e.errcode = (if w.getLsbD 15 then 0#4 else s.errors.errcode)

/-- R33, R34, R39–R52: a host write to an aligned offset other than CMD and STATUS is stored in the writable fields of its register and
read back, leaves what every other register reads as it was (but FRAMECFG, whose HMAX and VMAX a COMPCFG write changes), and is
ignored where the register is read-only or absent. -/
def Obligations.HostWriteIsReadBack : Prop :=
  ∀ (s : State) (off : BitVec 16) (v : Word) (q : List HostEvent), s.hostQueue = .write off 4 v :: q →
    off.toNat % 4 = 0 → off ≠ 0x0004#16 → off ≠ 0x0008#16 →
    ∃ t : State, step s = .next t ∧ t.hostQueue = q ∧ t.src = s.src ∧
      (writableOffset off.toNat → off ≠ 0x0048#16 → t.readReg off.toNat = readBack off.toNat v) ∧
      (off = 0x0048#16 → t.readReg 0x48 &&& 0x000000FF#32 = v &&& 0x00000003#32) ∧
      (¬writableOffset off.toNat → t = { s with hostQueue := q }) ∧
      ∀ o, o % 4 = 0 → o ≠ off.toNat → ¬(o = 0x48 ∧ off.toNat ∈ [0x4C, 0x50, 0x54]) → t.readReg o = s.readReg o

/-- R91: the host places a byte; a read sees the byte last placed at its address, every other address as before, and the
end-of-stream sentinel at or past SRCLEN whatever SRC holds there. -/
def Obligations.SrcByteIsTheOneLastPlaced : Prop :=
  ∀ (s : State) (a : Word) (b : Byte) (q : List HostEvent), s.hostQueue = .placeSrc a b :: q →
    ∃ t : State, step s = .next t ∧ t = { s with hostQueue := q, src := t.src } ∧
      (∀ x : Word, t.source.byte x = if x = a then b else s.source.byte x) ∧
      ∀ r : Reader, t.srclen ≤ r.srcpos → srcRead t.source r = (none, r)

/-- R141: SOFT_RESET sets every register to its reset value, so that ID reads 0x48554646 and every other register 0, and leaves SRC
(and the host's side, which the model keeps in State) as it was. -/
def Obligations.SoftResetResetsEveryRegister : Prop :=
  Encodes .softReset ∧ ∀ s : State, ∃ t : State, exec .softReset s = .next t ∧ ReadsAsReset t ∧
    t = { State.reset with
      src := s.src, srcEpoch := s.srcEpoch, hostQueue := s.hostQueue, readData := s.readData, freeDraws := s.freeDraws }

/-- R340, R341, R64: after power-on reset, and in the model's reset state, every register reads its reset value, the same as after
SOFT_RESET, and no byte is placed in SRC (how a power-on inside a run is represented is the model's choice, log 16). -/
def Obligations.PowerOnResetsEveryRegister : Prop :=
  ReadsAsReset State.reset ∧ State.reset.src = [] ∧
    ∀ (s : State) (q : List HostEvent), s.hostQueue = .powerOnReset :: q → ∃ t u : State, step s = .next t ∧ ReadsAsReset t ∧ t.src = [] ∧
      exec .softReset { s with hostQueue := q } = .next u ∧ t = { u with src := [], srcEpoch := t.srcEpoch }

/-- R97, R310, R319: a host that makes only aligned 32-bit accesses is never stopped, from any state and for any number of steps. -/
def Obligations.LegalHostIsNeverStopped : Prop :=
  ∀ (s : State) (n : Nat), s.HostLegal → SafeRun n s

/-! ### Invariants -/

/-- The reset state meets every invariant. -/
def Obligations.ResetStateIsGood : Prop := State.reset.Good ∧ State.reset.HostLegal

/-- R150, R41: every step keeps BITCNT ≤ 23 with BRACC[31:BITCNT] = 0, MARKER's legal values, and HALT's meaning (halted by exactly one
of end of stream and a marker). -/
def Obligations.StepKeepsReaderInvariants : Prop :=
  ∀ s t : State, s.reader.Buffered → s.reader.MarkerLegal → s.reader.HaltCaused → step s = .next t →
    t.reader.Buffered ∧ t.reader.MarkerLegal ∧ t.reader.HaltCaused

/-- R57: every step keeps each slot the function of its COUNTS and HUFFVAL that R181–R183 give, of at most 256 symbols, or undefined at
its reset values. -/
def Obligations.StepKeepsSlotsConsistent : Prop :=
  ∀ s t : State, (∀ i : Fin 8, s.ht[i].Consistent) → step s = .next t → ∀ i : Fin 8, t.ht[i].Consistent

/-- R312 ("Codes 11–15 are never written") and the canonical form of SRC, kept by every step. -/
def Obligations.StepKeepsErrcodeAndMemory : Prop :=
  ∀ s t : State, s.errors.CodeLegal → s.src.wf = true → step s = .next t → t.errors.CodeLegal ∧ t.src.wf = true

/-! ### Rules over all commands -/

/-- What each command may write (10_state.md R38, R43–R58, R63; 40_system.md R144): no command but SOFT_RESET writes a register outside
this list, no command writes SRC or the host's side, and no command clears an NZMASK bit. -/
def Obligations.CommandsWriteOnlyTheirState : Prop :=
  ∀ (i : Instr) (s t : State), exec i s = .next t → i ≠ .softReset →
    (t.src = s.src ∧ t.srcEpoch = s.srcEpoch ∧ t.hostQueue = s.hostQueue ∧ t.readData = s.readData) ∧
    (t.srclen = s.srclen ∧ t.scancfg = s.scancfg ∧ t.ccin = s.ccin ∧ t.ncomp = s.ncomp ∧ t.compcfg = s.compcfg) ∧
    (t.ht ≠ s.ht → i = .htDefine) ∧ (t.qt ≠ s.qt → i = .qtDefine) ∧ (t.sample ≠ s.sample → ∃ q, i = .idct q) ∧
    (t.ccout ≠ s.ccout → i = .ccYcc ∨ i = .ccGray) ∧
    (t.coef ≠ s.coef → i = .coefClear ∨ blockMode i = some .store) ∧ (t.scratch ≠ s.scratch → blockMode i = some .discard) ∧
    (t.nzmask ≠ s.nzmask → (blockMode i).isSome = true) ∧ s.nzmask &&& t.nzmask = s.nzmask ∧
    (t.pred ≠ s.pred → writesPred i = true) ∧ (t.eobrun ≠ s.eobrun → writesEobrun i = true) ∧
    ((t.reader.lastrst ≠ s.reader.lastrst ∨ t.reader.lastrstValid ≠ s.reader.lastrstValid ∨ t.freeDraws ≠ s.freeDraws) → i = .edRestart) ∧
    (t.reader ≠ s.reader → movesReader i = true) ∧ (t.reader.consumed ≠ s.reader.consumed → consumesBits i = true) ∧
    (t.result ≠ s.result → writesResult i = true)

/-- R311, R312, R314: a well-formed command other than SOFT_RESET only adds sticky bits, and only those its rule raises; ERRCODE keeps the
first code recorded, and a code recorded by the command is one of a bit it raised. -/
def Obligations.CommandsRaiseOnlyTheirErrors : Prop :=
  ∀ (i : Instr) (s t : State), i.wellFormed = true → i ≠ .softReset → exec i s = .next t →
    ∃ new : BitVec 7, new &&& ~~~(mayRaise i) = 0#7 ∧ t.errors.sticky = s.errors.sticky ||| new ∧
      (s.errors.errcode ≠ 0#4 → t.errors.errcode = s.errors.errcode) ∧
      (s.errors.errcode = 0#4 → new = 0#7 → t.errors.errcode = 0#4) ∧
      (s.errors.errcode = 0#4 → new ≠ 0#7 →
        ∃ e : ErrorCode, t.errors.errcode = e.code ∧ new.getLsbD (e.statusBit - 8) = true)

/-- R311 with the columns "code" and "sticky bit" of R312: `raise Error(code)` sets the code's sticky bit, keeps the others, and sets
ERRCODE only if it was 0; no other state changes. -/
def Obligations.RaiseRecordsTheError : Prop :=
  ∀ (e : ErrorCode) (s : State), ∃ code bit, (e, code, bit) ∈ errorTable ∧
    s.raise e = { s with errors := (s.raise e).errors } ∧
    (∀ j, j < 7 → (s.raise e).errors.sticky.getLsbD j = (s.errors.sticky.getLsbD j || decide (j + 8 = bit))) ∧
    (s.raise e).errors.errcode.toNat = if s.errors.errcode = 0#4 then code else s.errors.errcode.toNat

/-- R63, R310: no command reads an error bit or ERRCODE: whatever errors are recorded, a command leaves the same state, errors apart. -/
def Obligations.ErrorsNeverChangeComputation : Prop :=
  ∀ (i : Instr) (s t : State) (x : Errors), exec i s = .next t → ∃ y : Errors, exec i { s with errors := x } = .next { t with errors := y }

/-- R90, R91: no command depends on the bytes of SRC at or past SRCLEN: with another SRC that agrees below SRCLEN it leaves the same
state. -/
def Obligations.BytesPastSrclenDoNotMatter : Prop :=
  ∀ (i : Instr) (s t : State) (cells : Memory) (epoch : Nat),
    (∀ a : Word, a < s.srclen → ({ cells := cells, epoch := epoch, len := s.srclen } : Source).byte a = s.source.byte a) →
    exec i s = .next t → exec i { s with src := cells, srcEpoch := epoch } = .next { t with src := cells, srcEpoch := epoch }

/-- R31, R92, R160: with SRCPOS ≤ SRCLEN, no command but SOFT_RESET moves SRCPOS back or past SRCLEN, an ED_RESTART that steps over a
marker it finds included. (A reader that had already halted at a marker is shut out for ED_RESTART: the host may have moved SRCPOS or
SRCLEN since.) -/
def Obligations.SrcposMovesForwardWithinSrclen : Prop :=
  ∀ (i : Instr) (s t : State), s.reader.HaltCaused → s.reader.srcpos ≤ s.srclen → i ≠ .softReset →
    (i = .edRestart → s.reader.halt = false) → exec i s = .next t →
    s.reader.srcpos ≤ t.reader.srcpos ∧ t.reader.srcpos ≤ t.srclen

/-! ### System commands and the bit reader -/

/-- R140 and R142: NOP changes no state, and a NOP word with a bit of CMD[31:8] set is illegal; COEF_CLEAR zeroes COEF and changes
nothing else. -/
def Obligations.NopAndCoefClear : Prop :=
  Encodes .nop ∧ (∀ s : State, exec .nop s = .next s) ∧
    (∀ w : Word, w.extractLsb' 0 8 = 0x00#8 → w ≠ 0#32 → ∃ e, decode w = .error e) ∧
    Encodes .coefClear ∧
    ∀ s : State, ∃ z : Block, (∀ i : Fin 64, z[i] = 0#16) ∧ exec .coefClear s = .next { s with coef := z }

/-- R92: SrcRead at or past SRCLEN is the sentinel and moves nothing; below it, it returns the byte at SRCPOS and moves SRCPOS on by one,
which never wraps. -/
def Obligations.SrcReadReturnsByteOrSentinel : Prop :=
  ∀ (m : Source) (r : Reader), (m.len ≤ r.srcpos → srcRead m r = (none, r)) ∧
    (r.srcpos < m.len → ∃ p : Word, p.toNat = r.srcpos.toNat + 1 ∧
      srcRead m r = (some (m.byte r.srcpos), { r with srcpos := p }))

/-- R151, R159, R160, every case of FetchDataByte: end of stream; a plain byte; after k ≥ 1 bytes 0xFF, the end of SRC (no bits), a
stuffing 0x00 (one data byte 0xFF), or a marker code (no bits, SRCPOS at the last 0xFF). -/
def Obligations.FetchUnstuffsAndFindsMarkers : Prop :=
  ∀ (m : Source) (r : Reader),
    (m.len ≤ r.srcpos → fetchDataByte m r = (none, { r with halt := true, eos := true })) ∧
    (r.srcpos < m.len → m.byte r.srcpos ≠ 0xFF#8 →
      fetchDataByte m r = (some (m.byte r.srcpos), { r with srcpos := r.srcpos + 1#32 })) ∧
    ∀ k, 1 ≤ k → r.srcpos.toNat + k ≤ m.len.toNat → ffRun m r.srcpos k →
      (r.srcpos.toNat + k = m.len.toNat → fetchDataByte m r = (none, { r with srcpos := m.len, halt := true, eos := true })) ∧
      (r.srcpos.toNat + k < m.len.toNat → m.byte (r.srcpos + BitVec.ofNat 32 k) = 0x00#8 →
        fetchDataByte m r = (some 0xFF#8, { r with srcpos := r.srcpos + BitVec.ofNat 32 (k + 1) })) ∧
      ∀ x, r.srcpos.toNat + k < m.len.toNat → m.byte (r.srcpos + BitVec.ofNat 32 k) = x → x ≠ 0x00#8 → x ≠ 0xFF#8 →
        fetchDataByte m r =
          (none, { r with srcpos := r.srcpos + BitVec.ofNat 32 (k - 1), halt := true, marker := x, markerValid := true })

/-- R152–R154: Refill(n) is the loop of its rule, with no bound on its iterations; PeekBits(n) and GetBits(n) give the values and leave
the accumulator their rules write, as shifts and masks of BRACC. -/
def Obligations.RefillPeekAndGetFollowTheirRules : Prop :=
  ∀ (m : Source) (n : Nat) (r : Reader), n ≤ 16 →
    (refill m n r =
      if r.bitcnt < n ∧ r.halt = false then
        match fetchDataByte m r with
        | (none, r') => refill m n r'
        | (some b, r') => refill m n { r' with bracc := r'.bracc <<< 8 ||| b.setWidth 32, bitcnt := r'.bitcnt + 8 }
      else r) ∧
    (n = 0 → peekBits m n r = (0, r)) ∧
    (n ≠ 0 → peekBits m n r =
      (((if n ≤ (refill m n r).bitcnt then (refill m n r).bracc >>> ((refill m n r).bitcnt - n)
          else (refill m n r).bracc <<< (n - (refill m n r).bitcnt)) &&& BitVec.ofNat 32 (2 ^ n - 1)).toNat, refill m n r)) ∧
    getBits m n r =
      ((peekBits m n r).1,
        { (peekBits m n r).2 with
          bitcnt := (peekBits m n r).2.bitcnt - n
          bracc := (peekBits m n r).2.bracc &&& BitVec.ofNat 32 (2 ^ ((peekBits m n r).2.bitcnt - n) - 1)
          consumed := r.consumed + BitVec.ofNat 32 n })

/-- R95: bits come most significant first and bytes in address order. The first n ≤ 8 bits of a fresh byte are its top n bits, the rest
stay buffered; and reading a + b bits at once is reading a bits and then b bits, the first ones as the most significant. -/
def Obligations.BitsComeMostSignificantFirst : Prop :=
  ∀ (m : Source) (r : Reader), r.Buffered →
    (∀ n, 1 ≤ n → n ≤ 8 → r.bitcnt = 0 → r.halt = false → r.srcpos < m.len → m.byte r.srcpos ≠ 0xFF#8 →
      getBits m n r = ((m.byte r.srcpos).toNat / 2 ^ (8 - n),
        { r with
          srcpos := r.srcpos + 1#32
          bitcnt := 8 - n
          bracc := BitVec.ofNat 32 ((m.byte r.srcpos).toNat % 2 ^ (8 - n))
          consumed := r.consumed + BitVec.ofNat 32 n })) ∧
    ∀ a b, a + b ≤ 16 →
      getBits m (a + b) r =
        ((getBits m a r).1 * 2 ^ b + (getBits m b (getBits m a r).2).1, (getBits m b (getBits m a r).2).2)

/-- R155: a halted reader reads no byte, delivers its buffered bits and then zeros, and stays halted with SRCPOS where it is until
BR_RESET, ED_SCAN_START, ED_RESTART at a restart marker, or SOFT_RESET (the table definitions, which are not bit-reader operations, still
move SRCPOS). -/
def Obligations.HaltIsSticky : Prop :=
  (∀ (m : Source) (n : Nat) (r : Reader), r.halt = true → r.Buffered → n ≤ 16 →
    (n ≤ r.bitcnt → (getBits m n r).1 = r.bracc.toNat / 2 ^ (r.bitcnt - n)) ∧
    (r.bitcnt ≤ n → (getBits m n r).1 = r.bracc.toNat * 2 ^ (n - r.bitcnt)) ∧
    (peekBits m n r).1 = (getBits m n r).1 ∧ (peekBits m n r).2 = r ∧ (getBits m n r).2.srcpos = r.srcpos ∧
    (getBits m n r).2.consumed = r.consumed + BitVec.ofNat 32 n) ∧
  ∀ (i : Instr) (s t : State), s.reader.halt = true → exec i s = .next t → i ≠ .brReset → i ≠ .edScanStart → i ≠ .softReset →
    (i = .edRestart → s.reader.atRestart = false) →
    t.reader.halt = true ∧ t.reader.eos = s.reader.eos ∧ t.reader.markerValid = s.reader.markerValid ∧
      t.reader.marker = s.reader.marker ∧ (i ≠ .htDefine → i ≠ .qtDefine → t.reader.srcpos = s.reader.srcpos)

/-- R156 and R224: BR_RESET clears the buffer and the halt, end-of-stream and marker fields and nothing else; ED_SCAN_START does that and
zeroes the three predictors and EOBRUN. -/
def Obligations.BrResetAndScanStart : Prop :=
  Encodes .brReset ∧ Encodes .edScanStart ∧ ∀ s : State, ∃ r : Reader,
    r = { s.reader with bracc := 0#32, bitcnt := 0, halt := false, eos := false, marker := 0#8, markerValid := false } ∧
    exec .brReset s = .next { s with reader := r } ∧
    exec .edScanStart s = .next { s with reader := r, pred := #v[0#16, 0#16, 0#16], eobrun := 0#16 }

/-- R157: BR_GETBITS n puts GetBits(n), a value below 2^n, into RESULT and changes nothing else but the reader; CONSUMED grows by n; n = 0
reads and consumes nothing; the bits that are missing past a halt, the n less those Refill(n) has buffered, are 0; n > 16 is illegal. -/
def Obligations.BrGetbitsReturnsTheBits : Prop :=
  ∀ (n : BitVec 5) (s : State),
    (n.toNat ≤ 16 → Encodes (.brGetbits n) ∧ ∃ v : Word,
      exec (.brGetbits n) s = .next { s with result := v, reader := (getBits s.source n.toNat s.reader).2 } ∧
      v.toNat = (getBits s.source n.toNat s.reader).1 ∧ v.toNat < 2 ^ n.toNat ∧
      ((refill s.source n.toNat s.reader).bitcnt < n.toNat →
        (refill s.source n.toNat s.reader).halt = true ∧
        v.toNat % 2 ^ (n.toNat - (refill s.source n.toNat s.reader).bitcnt) = 0) ∧
      (getBits s.source n.toNat s.reader).2.consumed = s.reader.consumed + BitVec.ofNat 32 n.toNat) ∧
    (s.reader.Buffered → exec (.brGetbits 0#5) s = .next { s with result := 0#32 }) ∧
    (16 < n.toNat → exec (.brGetbits n) s = .next (afterIllegal s))

/-- R158: BR_PEEKBITS n puts PeekBits(n) into RESULT and changes nothing else but the reader, of which CONSUMED is unchanged; repeating it
changes nothing; it reads SRC only when fewer than n bits are buffered; n > 16 is illegal (R116). -/
def Obligations.BrPeekbitsIsIdempotent : Prop :=
  ∀ (n : BitVec 5) (s : State),
    (n.toNat ≤ 16 → Encodes (.brPeekbits n) ∧ ∃ t : State, exec (.brPeekbits n) s = .next t ∧
      t = { s with result := t.result, reader := (peekBits s.source n.toNat s.reader).2 } ∧
      t.result.toNat = (peekBits s.source n.toNat s.reader).1 ∧ t.reader.consumed = s.reader.consumed ∧
      (n.toNat ≤ s.reader.bitcnt → t.reader = s.reader) ∧ exec (.brPeekbits n) t = .next t) ∧
    (16 < n.toNat → exec (.brPeekbits n) s = .next (afterIllegal s))

/-! ### Huffman and quantisation tables -/

/-- R181–R184: the code of every symbol, the over-subscription check, the slow-path table and the fast cache of a built slot are those of
the rules' loops, formulas and writes. -/
def Obligations.TableConstructionFollowsTheRules : Prop :=
  ∀ (c : Vector Byte 16) (v : Vector Byte 256),
    codeTable c = codes c ∧ codeLengthsOk c = lengthsOkFrom c 16 1 0 ∧
    (codeLengthsOk c = true → (codes c).length ≤ 256 → ∀ l, 1 ≤ l → l ≤ 16 →
      (entry (buildSlot c v).mincode (l - 1)).toNat = startOf c l ∧
      (entry (buildSlot c v).valptr (l - 1)).toNat = ((codes c).filter fun x => decide (x.1 < l)).length ∧
      (0 < countOf c l → (entry (buildSlot c v).maxcode (l - 1)).toInt = (startOf c l : Int) + countOf c l - 1) ∧
      (countOf c l = 0 → (entry (buildSlot c v).maxcode (l - 1)).toInt = -1)) ∧
    (codeLengthsOk c = true → ∀ p, p < 256 →
      ((entry (buildSlot c v).fastlen p).toNat, entry (buildSlot c v).fastsym p) = (fastTable c v).getD p (0, 0#8))

/-- R187: for counts that pass R184, no two distinct symbol indices share a code and no code is a prefix of another. -/
def Obligations.CodesFormAPrefixCode : Prop :=
  ∀ c : Vector Byte 16, codeLengthsOk c = true → ∀ (j k : Nat) (x y : Nat × Nat), (codes c)[j]? = some x → (codes c)[k]? = some y →
    x.2 < 2 ^ x.1 ∧ (j ≠ k → x.1 ≤ y.1 → y.2 / 2 ^ (y.1 - x.1) ≠ x.2)

/-- R188 and R191: on a slot that meets the slot invariant, Decode gives what the slow path from length 1 gives on the same reader, fast
path or not; and where the fast cache has no entry, what the slow path from length 9 gives. -/
def Obligations.FastPathAgreesWithSlowPath : Prop :=
  ∀ (m : Source) (sl : HuffSlot) (r : Reader), sl.Consistent → sl.valid = true → r.Buffered →
    slotDecode m sl r = slowPath m sl (peekBits m 8 r).2 ∧
    (entry sl.fastlen (peekBits m 8 r).1 = 0#4 → slotDecode m sl r = slowPathFromNine m sl (peekBits m 8 r).2)

/-- R190, R192 with R181: on a slot that meets the slot invariant, Decode returns the symbol whose canonical code comes next in the
stream, with the code's length, and consumes that many bits; if no code comes next it returns symbol 0 and BADCODE after 16 bits. An
undefined slot gives BADTABLE, symbol 0, length 0, and no bits are consumed. -/
def Obligations.DecodeReturnsTheSymbolOfTheNextCode : Prop :=
  ∀ (m : Source) (sl : HuffSlot) (r : Reader),
    (sl.valid = false → slotDecode m sl r = ({ sym := 0#8, len := 0, bad := some .badTable }, r)) ∧
    (sl.Consistent → sl.valid = true → r.Buffered →
      (∀ (k : Nat) (x : Nat × Nat), (codes sl.counts)[k]? = some x → (peekBits m x.1 r).1 = x.2 →
        (slotDecode m sl r).1 = { sym := entry sl.huffval k, len := x.1, bad := none } ∧
        (slotDecode m sl r).2.consumed = r.consumed + BitVec.ofNat 32 x.1) ∧
      ((∀ x ∈ codes sl.counts, (peekBits m x.1 r).1 ≠ x.2) →
        (slotDecode m sl r).1 = { sym := 0#8, len := 16, bad := some .badCode } ∧
        (slotDecode m sl r).2.consumed = r.consumed + 16#32))

/-- R195: HT_DECODE k, i decodes with slot 4·k + i and puts bad << 31 | len << 8 | sym into RESULT; only the reader, the errors and RESULT
change. -/
def Obligations.HtDecodeReturnsSymbolAndLength : Prop :=
  ∀ (k : HuffClass) (i : BitVec 2) (s : State), Encodes (.htDecode k i) ∧
    ∃ (sl : HuffSlot) (t : State), s.ht[4 * classBit k + i.toNat]? = some sl ∧ exec (.htDecode k i) s = .next t ∧
      t = { s with
        reader := (slotDecode s.source sl s.reader).2
        errors := raised s.errors (slotDecode s.source sl s.reader).1.bad
        result := t.result } ∧
      t.result.toNat =
        (if (slotDecode s.source sl s.reader).1.bad.isSome then 2 ^ 31 else 0) +
          (slotDecode s.source sl s.reader).1.len * 2 ^ 8 + (slotDecode s.source sl s.reader).1.sym.toNat ∧
      (slotDecode s.source sl s.reader).1.len ≤ 16 ∧
      (sl.valid = false → t.reader = s.reader ∧ t.result = 0x80000000#32)

/-- R185, R186: HT_DEFINE reads the table body at SRCPOS; its checks run in their order and the first that fails ends the command with its
error, the bytes read, and every slot as it was; a body that passes redefines one slot whole and RESULT is 17 + n. -/
def Obligations.HtDefineDefinesOneSlotOrNone : Prop :=
  Encodes .htDefine ∧ ∀ s : State,
    (¬bodyHas s 1 → exec .htDefine s = .next (failedDefine s .parseEos 0)) ∧
    (bodyHas s 1 → badTag (bodyByte s 0) → exec .htDefine s = .next (failedDefine s .parseIndex 1)) ∧
    (bodyHas s 1 → ¬badTag (bodyByte s 0) →
      (¬bodyHas s 17 → exec .htDefine s = .next (failedDefine s .parseEos (bodyLeft s))) ∧
      (bodyHas s 17 → 256 < bodyTotal s → exec .htDefine s = .next (failedDefine s .parseCount 17)) ∧
      (bodyHas s 17 → bodyTotal s ≤ 256 → ¬bodyHas s (17 + bodyTotal s) →
        exec .htDefine s = .next (failedDefine s .parseEos (bodyLeft s))) ∧
      (bodyTotal s ≤ 256 → bodyHas s (17 + bodyTotal s) → lengthsOkFrom (bodyCounts s) 16 1 0 = false →
        exec .htDefine s = .next (failedDefine s .parseCodelen (17 + bodyTotal s))) ∧
      (bodyTotal s ≤ 256 → bodyHas s (17 + bodyTotal s) → lengthsOkFrom (bodyCounts s) 16 1 0 = true →
        ∃ sl : HuffSlot, sl.valid = true ∧ sl.nvals.toNat = bodyTotal s ∧ sl.counts = bodyCounts s ∧ sl.huffval = bodyValues s ∧
          sl.Consistent ∧
          exec .htDefine s = .next { s with
            reader := { s.reader with srcpos := s.reader.srcpos + BitVec.ofNat 32 (17 + bodyTotal s) }
            ht := s.ht.setIfInBounds (4 * ((bodyByte s 0).toNat / 16) + (bodyByte s 0).toNat % 16) sl
            result := BitVec.ofNat 32 (17 + bodyTotal s) }))

/-- R193, R194, R196: ReceiveExtend(n) reads n bits v and gives v − 2^n + 1 or v, in the two ranges of R194, and 0 with nothing read for
n = 0; HT_RECEIVE_EXTEND puts that value into RESULT in two's complement and changes nothing else but the reader; n > 16 is illegal. -/
def Obligations.ReceiveExtendGivesASignedValue : Prop :=
  (∀ (m : Source) (n : Nat) (r : Reader), 1 ≤ n → n ≤ 16 →
    (receiveExtend m n r).2 = (getBits m n r).2 ∧
    ((getBits m n r).1 < 2 ^ (n - 1) → (receiveExtend m n r).1 = ((getBits m n r).1 : Int) - 2 ^ n + 1 ∧
      -(2 ^ n - 1 : Int) ≤ (receiveExtend m n r).1 ∧ (receiveExtend m n r).1 ≤ -(2 ^ (n - 1) : Int)) ∧
    (2 ^ (n - 1) ≤ (getBits m n r).1 → (receiveExtend m n r).1 = ((getBits m n r).1 : Int) ∧
      (2 ^ (n - 1) : Int) ≤ (receiveExtend m n r).1 ∧ (receiveExtend m n r).1 ≤ (2 ^ n - 1 : Int))) ∧
  (∀ (m : Source) (r : Reader), (receiveExtend m 0 r).1 = 0 ∧ (r.Buffered → (receiveExtend m 0 r).2 = r)) ∧
  ∀ (n : BitVec 5) (s : State),
    (n.toNat ≤ 16 → Encodes (.htReceiveExtend n) ∧ ∃ v : Word,
      exec (.htReceiveExtend n) s = .next { s with result := v, reader := (receiveExtend s.source n.toNat s.reader).2 } ∧
      v.toInt = (receiveExtend s.source n.toNat s.reader).1) ∧
    (16 < n.toNat → exec (.htReceiveExtend n) s = .next (afterIllegal s))

/-- R200, R201, R62: QT_DEFINE reads the table body at SRCPOS, with the checks and the failures of HT_DEFINE's kind; a body that passes puts
entry k of the body at natural index ZZ[k] of one table, and RESULT is 65 or 129. ZZ, here and in every other statement, is the walk of the
anti-diagonals of R62, which visits each of the 64 indices once. -/
def Obligations.QtDefineDefinesOneTableOrNone : Prop :=
  (zigzagWalk.length = 64 ∧ zigzagWalk.Nodup ∧ ∀ k, k < 64 → zigzagWalk[k]? = some (zz k).val) ∧
  Encodes .qtDefine ∧ ∀ s : State,
    (¬bodyHas s 1 → exec .qtDefine s = .next (failedDefine s .parseEos 0)) ∧
    (bodyHas s 1 → badTag (bodyByte s 0) → exec .qtDefine s = .next (failedDefine s .parseIndex 1)) ∧
    (bodyHas s 1 → ¬badTag (bodyByte s 0) → ¬bodyHas s (quantLength s) →
      exec .qtDefine s = .next (failedDefine s .parseEos (bodyLeft s))) ∧
    (¬badTag (bodyByte s 0) → bodyHas s (quantLength s) →
      ∃ q : Vector (BitVec 16) 64, (∀ k, k < 64 → q[zz k].toNat = bodyQuant s k) ∧
        exec .qtDefine s = .next { s with
          reader := { s.reader with srcpos := s.reader.srcpos + BitVec.ofNat 32 (quantLength s) }
          qt := s.qt.setIfInBounds ((bodyByte s 0).toNat % 16) q
          result := BitVec.ofNat 32 (quantLength s) })

/-! ### Entropy decoder -/

/-- R225, R352: ED_RESTART drops the buffered bits, calls FetchDataByte while HALT = 0, which ends, and at a restart marker RST0–RST7 steps
over it, records its number and clears the halt and marker; otherwise it raises RSTMISS and stays halted. Either way the predictors and
EOBRUN become 0 and nothing else changes. (Where SRCPOS + 2 leaves 32 bits the rule states no value, and nothing is said of it: log 6.) -/
def Obligations.RestartFindsTheNextMarker : Prop :=
  Encodes .edRestart ∧ ∀ s : State, ∃ (k : Nat) (q : Reader),
    q = iterFetch s.source k { s.reader with bracc := 0#32, bitcnt := 0 } ∧ q.halt = true ∧
    (∀ j, j < k → (iterFetch s.source j { s.reader with bracc := 0#32, bitcnt := 0 }).halt = false) ∧
    (q.markerValid = true ∧ 0xD0 ≤ q.marker.toNat ∧ q.marker.toNat ≤ 0xD7 →
      ∃ (pos : Word) (draws : Nat), (q.srcpos.toNat + 2 < 2 ^ 32 → pos.toNat = q.srcpos.toNat + 2 ∧ draws = s.freeDraws) ∧
        exec .edRestart s = .next { s with
          reader := { q with
            srcpos := pos
            lastrst := BitVec.ofNat 3 (q.marker.toNat - 0xD0)
            lastrstValid := true
            halt := false
            markerValid := false
            marker := 0#8 }
          pred := #v[0#16, 0#16, 0#16]
          eobrun := 0#16
          freeDraws := draws }) ∧
    (¬(q.markerValid = true ∧ 0xD0 ≤ q.marker.toNat ∧ q.marker.toNat ≤ 0xD7) →
      exec .edRestart s = .next { s with
        reader := q, errors := s.errors.raise .rstMiss, pred := #v[0#16, 0#16, 0#16], eobrun := 0#16 })

/-- R220, R221, R222, the frame of the five block commands: the target is COEF, or SCRATCH seeded with the sentinel from NZMASK; outside the
command's range the target keeps its values; NZMASK gains a bit for each non-zero position of the range and loses none; RESULT is the
number of bits consumed; the other block, every other predictor and everything else is unchanged. -/
def Obligations.BlockCommandsKeepTheirFrame : Prop :=
  (∀ s : State, s.selectTarget .store = s.coef ∧
    ∀ k, k < 64 → (s.selectTarget .discard)[zz k] = if s.nzmask.getLsbD k then 1#16 else 0#16) ∧
  ∀ (c td ta : BitVec 2) (d : Mode) (s : State) (i : Instr), c.toNat ≤ 2 → i ∈ blockCommands c td ta d →
    Encodes i ∧ ∃ t : State, exec i s = .next t ∧
      t.result = t.reader.consumed - s.reader.consumed ∧
      (∀ k, k < 64 → t.nzmask.getLsbD k =
        (s.nzmask.getLsbD k ||
          decide ((writeBackRange s i).1 ≤ k ∧ k ≤ (writeBackRange s i).2 ∧ (targetIn d t)[zz k] ≠ 0#16))) ∧
      (∀ k, k < 64 → ¬((writeBackRange s i).1 ≤ k ∧ k ≤ (writeBackRange s i).2) →
        (targetIn d t)[zz k] = (s.selectTarget d)[zz k]) ∧
      (d = .store → t.scratch = s.scratch) ∧ (d = .discard → t.coef = s.coef) ∧
      (∀ j : Fin 3, j.val ≠ c.toNat ∨ writesPred i = false → t.pred[j] = s.pred[j]) ∧
      (writesEobrun i = false → t.eobrun = s.eobrun) ∧
      t.reader.lastrst = s.reader.lastrst ∧ t.reader.lastrstValid = s.reader.lastrstValid ∧
      t = { s with
        reader := t.reader, errors := t.errors, result := t.result, eobrun := t.eobrun, pred := t.pred, nzmask := t.nzmask
        coef := t.coef, scratch := t.scratch }

/-- R226, R229, R230, R352: the loops of the block commands are the while-loops of their rules, with Correct(k), the new value and its
placement written out: the bound on their iterations never cuts one off, from any position on, for any range that ends by position 63. A
correction bit of 1 corrects, a sign bit of 1 is positive, and BADRUN is raised when no zero position is left in range. -/
def Obligations.BlockLoopsAreTheirWhileLoops : Prop :=
  ∀ (m : Source) (ac : HuffSlot) (hi k al : Nat) (b : BlockRun), hi ≤ 63 →
    (∀ eob : Nat → BlockRun → BlockRun,
      runLoop m ac hi al eob 64 k b =
        if hi < k then b
        else
          let d := decodeStep m ac b
          let r := d.1 / 16
          let size := d.1 % 16
          if size = 0 then
            if r = 15 then runLoop m ac hi al eob 64 (k + 16) d.2 else eob r d.2
          else if hi < k + r then withError .badRun (afterBits m size d.2)
          else
            runLoop m ac hi al eob 64 (k + r + 1)
              (storedAt (k + r) ((receiveExtend m size d.2.reader).1 * 2 ^ al) (afterBits m size d.2))) ∧
    (∀ r : Nat,
      passLoop m (2 ^ al) hi 64 k r b =
        if hi < k then (k, b)
        else if b.t[zz k] ≠ 0#16 then passLoop m (2 ^ al) hi 64 (k + 1) r (correction m (2 ^ al) k b)
        else if r = 0 then (k, b)
        else passLoop m (2 ^ al) hi 64 (k + 1) (r - 1) b) ∧
    (tailLoop m (2 ^ al) hi 64 k b =
      if hi < k then b
      else if b.t[zz k] ≠ 0#16 then tailLoop m (2 ^ al) hi 64 (k + 1) (correction m (2 ^ al) k b)
      else tailLoop m (2 ^ al) hi 64 (k + 1) b) ∧
    refineLoop m ac (2 ^ al) hi 64 k b =
      if hi < k then { stopped := false, k := k, run := b }
      else
        let d := decodeStep m ac b
        let r := d.1 / 16
        let size := d.1 % 16
        if size = 0 ∧ r ≠ 15 then
          { stopped := false, k := k, run := { afterBits m r d.2 with eobrun := BitVec.ofNat 16 (2 ^ r + bitsAt m r d.2) } }
        else if 1 < size then { stopped := true, k := k, run := withError .badSym d.2 }
        else
          let p := passLoop m (2 ^ al) hi 64 k r (afterNewval m size d.2)
          refineLoop m ac (2 ^ al) hi 64 (p.1 + 1) (placed hi p.1 (newvalOf m (2 ^ al) size d.2) p.2)

/-- R226: ED_BASELINE zeroes the target, adds DcDiff(td) to PRED<c> and stores it at position 0, runs the AC loop over 1..63, and writes the
bitmap over 0..63; position 0 holds the new predictor at the end; discard mode leaves the same state as store mode, the block in SCRATCH
instead of COEF (R233). -/
def Obligations.BaselineDecodesAWholeBlock : Prop :=
  ∀ (c td ta : BitVec 2) (d : Mode) (s : State) (hc : c.toNat ≤ 2),
    Encodes (.edBaseline c td ta d) ∧
    ∃ (v : Int × BlockRun) (p : Coef) (b : BlockRun) (preds : Vector Coef 3),
      v = dcDiff s.source (s.slot .dc td) { blockStart d s with t := Vector.replicate 64 0#16 } ∧
      p = wrap16 ((s.pred[c.toNat]'(Nat.lt_succ_of_le hc)).toInt + v.1) ∧
      b = runLoop s.source (s.slot .ac ta) 63 0 (fun _ x => x) 64 1 { v.2 with t := v.2.t.set 0 p } ∧ b.t[0] = p ∧
      (∀ j : Fin 3, preds[j] = if j.val = c.toNat then p else s.pred[j]) ∧
      exec (.edBaseline c td ta d) s = .next (blockDone d 0 63 b { s with pred := preds }) ∧
      ∀ t u : State, exec (.edBaseline c td ta .store) s = .next t → exec (.edBaseline c td ta .discard) s = .next u →
        u = { t with coef := s.coef, scratch := t.coef }

/-- R223, R227: DcDiff(td) by the decoded symbol, and ED_DC_FIRST: PRED<c> gets the un-shifted sum, T[0] the sum shifted by AL, both wrapped
to 16 bits; T[1..63] are untouched; ta has no effect. -/
def Obligations.DcFirstShiftsTheSumNotThePredictor : Prop :=
  (∀ (m : Source) (sl : HuffSlot) (b : BlockRun), ∃ (sym : Nat) (b1 : BlockRun),
    sym = (slotDecode m sl b.reader).1.sym.toNat ∧
    b1 = { b with reader := (slotDecode m sl b.reader).2, errors := raised b.errors (slotDecode m sl b.reader).1.bad } ∧
    (15 < sym → dcDiff m sl b = (0, { b1 with errors := b1.errors.raise .badSym })) ∧
    (11 < sym → sym ≤ 15 → dcDiff m sl b =
      ((receiveExtend m sym b1.reader).1,
        { b1 with errors := b1.errors.raise .badSym, reader := (receiveExtend m sym b1.reader).2 })) ∧
    (sym ≤ 11 → dcDiff m sl b = ((receiveExtend m sym b1.reader).1, { b1 with reader := (receiveExtend m sym b1.reader).2 }))) ∧
  ∀ (c td ta : BitVec 2) (d : Mode) (s : State) (hc : c.toNat ≤ 2),
    Encodes (.edDcFirst c td ta d) ∧
    ∃ (v : Int × BlockRun) (p : Coef) (t : Block) (preds : Vector Coef 3),
      v = dcDiff s.source (s.slot .dc td) (blockStart d s) ∧
      p = wrap16 ((s.pred[c.toNat]'(Nat.lt_succ_of_le hc)).toInt + v.1) ∧
      (∀ j : Fin 64, t[j] = if j.val = 0 then wrap16 (p.toInt * 2 ^ s.scancfg.al.toNat) else (s.selectTarget d)[j]) ∧
      (∀ j : Fin 3, preds[j] = if j.val = c.toNat then p else s.pred[j]) ∧
      exec (.edDcFirst c td ta d) s = .next (blockDone d 0 0 { v.2 with t := t } { s with pred := preds })

/-- R228: ED_DC_REFINE reads one bit and, if it is 1, ORs 2^AL into the 16-bit pattern of T[0]; T[1..63] are untouched, RESULT is 1, and c, td
and ta have no effect. -/
def Obligations.DcRefineOrsOneBit : Prop :=
  ∀ (c td ta : BitVec 2) (d : Mode) (s : State), c.toNat ≤ 2 →
    Encodes (.edDcRefine c td ta d) ∧
    ∃ (t : Block) (u : State),
      (∀ j : Fin 64, t[j] =
        if j.val = 0 ∧ (getBits s.source 1 s.reader).1 = 1 then
          wrap16 (((s.selectTarget d)[j].toNat ||| 2 ^ s.scancfg.al.toNat : Nat) : Int)
        else (s.selectTarget d)[j]) ∧
      u = blockDone d 0 0 { blockStart d s with reader := (getBits s.source 1 s.reader).2, t := t } s ∧
      exec (.edDcRefine c td ta d) s = .next u ∧ u.result = 1#32

/-- R229: ED_AC_FIRST with EOBRUN > 0 only decrements it; otherwise it runs the symbol loop from SS, storing values shifted by AL; with
EOBRUN > 0, or SS > SE, no bit is read, RESULT is 0 and the target keeps its values; td has no effect. -/
def Obligations.AcFirstHonoursTheEndOfBandRun : Prop :=
  ∀ (c td ta : BitVec 2) (d : Mode) (s : State), c.toNat ≤ 2 →
    Encodes (.edAcFirst c td ta d) ∧
    ∃ b : BlockRun,
      (0 < s.eobrun.toNat → b = { blockStart d s with eobrun := s.eobrun - 1#16 }) ∧
      (s.eobrun.toNat = 0 → b =
        runLoop s.source (s.slot .ac ta) s.scancfg.se.toNat s.scancfg.al.toNat (endOfBand s.source) 64 s.scancfg.ss.toNat
          (blockStart d s)) ∧
      exec (.edAcFirst c td ta d) s = .next (blockDone d s.scancfg.ss.toNat s.scancfg.se.toNat b s) ∧
      (0 < s.eobrun.toNat ∨ s.scancfg.se.toNat < s.scancfg.ss.toNat →
        ∃ t : State, exec (.edAcFirst c td ta d) s = .next t ∧ t.result = 0#32 ∧ t.reader = s.reader ∧ t.errors = s.errors ∧
          targetIn d t = s.selectTarget d ∧ t.eobrun.toNat = s.eobrun.toNat - 1)

/-- R230: ED_AC_REFINE runs the symbol loop from SS when EOBRUN = 0, ends at once after a BADSYM, and otherwise runs the tail when EOBRUN is then
above 0; with EOBRUN > 0 on entry it decodes no symbol: RESULT is the number of non-zero positions of the range, one correction bit
each, and EOBRUN is decremented; td has no effect. -/
def Obligations.AcRefineTailReadsOneBitPerNonzeroCoefficient : Prop :=
  ∀ (c td ta : BitVec 2) (d : Mode) (s : State), c.toNat ≤ 2 →
    Encodes (.edAcRefine c td ta d) ∧
    ∃ (e : RefineEnd) (b : BlockRun),
      (s.eobrun.toNat = 0 → e =
        refineLoop s.source (s.slot .ac ta) (2 ^ s.scancfg.al.toNat) s.scancfg.se.toNat 64 s.scancfg.ss.toNat (blockStart d s)) ∧
      (0 < s.eobrun.toNat → e = { stopped := false, k := s.scancfg.ss.toNat, run := blockStart d s }) ∧
      (e.stopped = true ∨ e.run.eobrun = 0#16 → b = e.run) ∧
      (e.stopped = false → 0 < e.run.eobrun.toNat → b =
        { tailLoop s.source (2 ^ s.scancfg.al.toNat) s.scancfg.se.toNat 64 e.k e.run with eobrun := e.run.eobrun - 1#16 }) ∧
      exec (.edAcRefine c td ta d) s = .next (blockDone d s.scancfg.ss.toNat s.scancfg.se.toNat b s) ∧
      (0 < s.eobrun.toNat →
        ∃ t : State, exec (.edAcRefine c td ta d) s = .next t ∧ t.errors = s.errors ∧ t.eobrun.toNat = s.eobrun.toNat - 1 ∧
          t.result.toNat = ((List.range 64).filter fun k =>
            decide (s.scancfg.ss.toNat ≤ k) && decide (k ≤ s.scancfg.se.toNat) && decide ((s.selectTarget d)[zz k] ≠ 0#16)).length)

/-- R231, R45: an end-of-band run symbol of run r with extra value e consumes its r extra bits and leaves EOBRUN = 2^r + e − 1, in AC-first at
once and with nothing else changed, in AC-refine after the tail, at whatever position it stands; and no command leaves an EOBRUN above the
old one and 32766. -/
def Obligations.EndOfBandRunArithmetic : Prop :=
  (∀ (m : Source) (r : Nat) (b : BlockRun), r ≤ 14 → ∃ run : BitVec 16,
    acFirstEob m r b = { b with reader := (getBits m r b.reader).2, eobrun := run } ∧
    run.toNat + 1 = 2 ^ r + (getBits m r b.reader).1 ∧ run.toNat ≤ 32766) ∧
  (∀ (m : Source) (ac : HuffSlot) (p1 : Int) (se k r : Nat) (b : BlockRun), k ≤ se → se ≤ 63 → r ≤ 14 → (decodeStep m ac b).1 = 16 * r →
    (refineLoop m ac p1 se 64 k b).stopped = false ∧ (refineLoop m ac p1 se 64 k b).k = k ∧
    (refineLoop m ac p1 se 64 k b).run =
      { (decodeStep m ac b).2 with
        reader := (getBits m r (decodeStep m ac b).2.reader).2
        eobrun := (refineLoop m ac p1 se 64 k b).run.eobrun } ∧
    (refineTail m p1 se k (refineLoop m ac p1 se 64 k b).run).eobrun.toNat + 1 =
      2 ^ r + (getBits m r (decodeStep m ac b).2.reader).1) ∧
  ∀ (i : Instr) (s t : State), exec i s = .next t → t.eobrun.toNat ≤ max s.eobrun.toNat 32766

/-- R232: for AL ≤ 14, what ED_AC_REFINE does to the stream, the errors and EOBRUN, and the zero pattern it leaves, depend on the target
only through its zero pattern over SS..SE; so with NZMASK exact over SS..SE, discard mode leaves the same state as store mode, the
blocks apart. -/
def Obligations.AcRefineDependsOnlyOnTheZeroPattern : Prop :=
  (∀ (m : Source) (ac : HuffSlot) (cfg : ScanCfg) (b b' : BlockRun), cfg.al.toNat ≤ 14 →
    b'.reader = b.reader → b'.errors = b.errors → b'.eobrun = b.eobrun → SamePattern b.t b'.t cfg.ss.toNat cfg.se.toNat →
    (acRefineRun m ac cfg b').reader = (acRefineRun m ac cfg b).reader ∧
      (acRefineRun m ac cfg b').errors = (acRefineRun m ac cfg b).errors ∧
      (acRefineRun m ac cfg b').eobrun = (acRefineRun m ac cfg b).eobrun ∧
      SamePattern (acRefineRun m ac cfg b).t (acRefineRun m ac cfg b').t cfg.ss.toNat cfg.se.toNat) ∧
  ∀ (c td ta : BitVec 2) (s : State), c.toNat ≤ 2 → s.scancfg.al.toNat ≤ 14 →
    (∀ k, s.scancfg.ss.toNat ≤ k → k ≤ s.scancfg.se.toNat → (s.nzmask.getLsbD k = true ↔ s.coef[zz k] ≠ 0#16)) →
    ∃ t u : State, exec (.edAcRefine c td ta .store) s = .next t ∧ exec (.edAcRefine c td ta .discard) s = .next u ∧
      u = { t with coef := s.coef, scratch := u.scratch }

/-- R229, R230: within SS..SE, ED_AC_FIRST leaves each position as it was or at a non-zero value shifted by AL; ED_AC_REFINE leaves a
non-zero coefficient as it was or one step further from zero, and a zero one at 0, 2^AL or −2^AL. -/
def Obligations.AcCommandsChangeCoefficientsOneWay : Prop :=
  ∀ (c td ta : BitVec 2) (d : Mode) (s : State), c.toNat ≤ 2 → ∃ t u : State,
    exec (.edAcFirst c td ta d) s = .next t ∧ exec (.edAcRefine c td ta d) s = .next u ∧
    ∀ k, s.scancfg.ss.toNat ≤ k → k ≤ s.scancfg.se.toNat →
      ((targetIn d t)[zz k] = (s.selectTarget d)[zz k] ∨
        ∃ v : Int, v ≠ 0 ∧ -(2 ^ 15) < v ∧ v < 2 ^ 15 ∧ (targetIn d t)[zz k] = wrap16 (v * 2 ^ s.scancfg.al.toNat)) ∧
      ((s.selectTarget d)[zz k] ≠ 0#16 →
        (targetIn d u)[zz k] = (s.selectTarget d)[zz k] ∨
          (targetIn d u)[zz k] = corrected s.scancfg.al (s.selectTarget d)[zz k]) ∧
      ((s.selectTarget d)[zz k] = 0#16 →
        (targetIn d u)[zz k] = 0#16 ∨ (targetIn d u)[zz k] = wrap16 (2 ^ s.scancfg.al.toNat) ∨
          (targetIn d u)[zz k] = wrap16 (-(2 ^ s.scancfg.al.toNat)))

/-- R352, R222: a block command consumes at most 64·(16 + 16) + 16 bits. -/
def Obligations.BlockCommandsConsumeBoundedBits : Prop :=
  ∀ (c td ta : BitVec 2) (d : Mode) (s : State) (i : Instr), c.toNat ≤ 2 → i ∈ blockCommands c td ta d →
    ∃ t : State, exec i s = .next t ∧ t.result.toNat ≤ 64 * (16 + 16) + 16

/-! ### Inverse DCT -/

/-- R270, R271, R276: IDCT q multiplies COEF by QT[q] entry by entry, exactly, runs the two passes and writes the results, which are all in
0..255, to SAMPLE; nothing else changes. -/
def Obligations.IdctWritesTheSamplesOfTheBlock : Prop :=
  ∀ (q : BitVec 2) (s : State), Encodes (.idct q) ∧ ∃ (x : Vector Int 64) (y : Vector Byte 64),
    (∀ i : Fin 64, x[i] = s.coef[i].toInt * (s.qt[q.toFin][i].toNat : Int)) ∧
    (∀ i : Fin 64, (y[i].toNat : Int) = (pass2 (pass1 x))[i]) ∧
    exec (.idct q) s = .next { s with sample := y }

/-- R272–R276: the kernel's eight outputs are the integer combinations of R273 with the constants of R272, and each pass is the full kernel
on every column and row, descaled and (pass 2) limited: the fast paths change nothing. -/
def Obligations.IdctFastPathsEqualTheKernel : Prop :=
  (∀ v : Vector Int 8, (kernel v).toList = kernelOutputs v) ∧
  ∀ (x : Vector Int 64) (r j : Fin 8),
    intAt (pass1 x) (8 * r + j) = (intAt (kernel (tabulate 8 fun n => intAt x (8 * n + j))) r + 2 ^ 10) / 2 ^ 11 ∧
    intAt (pass2 x) (8 * r + j) =
      min 255 (max 0 ((intAt (kernel (tabulate 8 fun n => intAt x (8 * r + n))) j + 2 ^ 17) / 2 ^ 18 + 128))

/-- R277: with only COEF[0] non-zero, every sample is clamp(((x + 4) >> 3) + 128, 0, 255) for x = COEF[0]·QT[q][0]. -/
def Obligations.DcOnlyBlockIsFlat : Prop :=
  ∀ (q : BitVec 2) (s : State), (∀ i : Fin 64, i.val ≠ 0 → s.coef[i] = 0#16) → ∃ y : Vector Byte 64,
    exec (.idct q) s = .next { s with sample := y } ∧
    ∀ i : Fin 64, (y[i].toNat : Int) =
      min 255 (max 0 ((s.coef[(0 : Fin 64)].toInt * (s.qt[q.toFin][(0 : Fin 64)].toNat : Int) + 4) / 8 + 128))

/-- R278: the kernel's gain is at most 61214, and no value it computes on the way, partial sums included, has a gain above 2^16; so for every
COEF and QT the products stay below 2^31, all of pass 1's kernel below 2^47, W below 2^36, all of pass 2's kernel below 2^52, and with the
rounding terms of Descale everything fits a signed 64-bit word. -/
def Obligations.IdctIntermediatesFitSixtyFourBits : Prop :=
  (∀ (v : Vector Int 8) (bound : Int), (∀ n : Fin 8, |v[n]| ≤ bound) →
    (∀ n : Fin 8, (kernel v)[n] ∈ kernelTerms v ∧ |(kernel v)[n]| ≤ 61214 * bound) ∧
    ∀ x ∈ kernelTerms v, |x| ≤ 2 ^ 16 * bound) ∧
  ∀ (b : Block) (q : Vector (BitVec 16) 64),
    (∀ i : Fin 64, |(dequantise b q)[i]| < 2 ^ 31 ∧ |(pass1 (dequantise b q))[i]| < 2 ^ 36) ∧
    ∀ n : Fin 8,
      (∀ x ∈ kernelTerms (column (dequantise b q) n), |x| < 2 ^ 47 ∧ |x + 2 ^ 10| < 2 ^ 63) ∧
      ∀ x ∈ kernelTerms (row (pass1 (dequantise b q)) n), |x| < 2 ^ 52 ∧ |x + 2 ^ 17| < 2 ^ 63

/-! ### Colour and upsampling -/

/-- R290–R292: CC_YCC computes the three channels from CCIN by the fixed-point formulas, rounded and clamped, and writes CCOUT and the RGB565
pixel in RESULT; nothing else changes. -/
def Obligations.CcYccConvertsThePixel : Prop :=
  Encodes .ccYcc ∧ ∀ s : State, ∃ (y cb cr r g b : Byte),
    s.ccin.toNat = y.toNat + cb.toNat * 2 ^ 8 + cr.toNat * 2 ^ 16 ∧
    (r.toNat : Int) = channelValue y (91881 * ((cr.toNat : Int) - 128)) ∧
    (g.toNat : Int) = channelValue y (-22554 * ((cb.toNat : Int) - 128) - 46802 * ((cr.toNat : Int) - 128)) ∧
    (b.toNat : Int) = channelValue y (116130 * ((cb.toNat : Int) - 128)) ∧
    exec .ccYcc s = .next { s with
      ccout := BitVec.ofNat 24 (r.toNat + g.toNat * 2 ^ 8 + b.toNat * 2 ^ 16)
      result := BitVec.ofNat 32 (packed r.toNat g.toNat b.toNat) }

/-- R293: CC_GRAY writes Y to the three channels and packs it, ignores Cb and Cr, and gives what CC_YCC gives for Cb = Cr = 128. -/
def Obligations.CcGrayIsYccAtNeutralChroma : Prop :=
  Encodes .ccGray ∧ ∀ s : State, ∃ y : Byte, y.toNat = s.ccin.toNat % 2 ^ 8 ∧
    exec .ccGray s = .next { s with
      ccout := BitVec.ofNat 24 (y.toNat + y.toNat * 2 ^ 8 + y.toNat * 2 ^ 16)
      result := BitVec.ofNat 32 (packed y.toNat y.toNat y.toNat) } ∧
    ∃ t : State, exec .ccYcc { s with ccin := BitVec.ofNat 24 (y.toNat + 128 * 2 ^ 8 + 128 * 2 ^ 16) } = .next t ∧
      exec .ccGray s = .next { t with ccin := s.ccin }

/-- R294, R296: a legal UP_MAP puts block << 8 | sample into RESULT and changes nothing else; the block is one of the component's own, fewer than
48 in all, and a component of full resolution keeps the pixel's position (an illegal one is in IllegalCommandOnlyRaisesIllegal). -/
def Obligations.UpMapFindsTheOwningSample : Prop :=
  ∀ (s : State) (c : BitVec 2) (px py : BitVec 5), UpLegal s c.toNat px.toNat py.toNat →
    Encodes (.upMap c px py) ∧ ∃ block sample : Nat,
      block = upOff s c.toNat + upSy s c.toNat py.toNat / 8 * upH s c.toNat + upSx s c.toNat px.toNat / 8 ∧
      sample = upSy s c.toNat py.toNat % 8 * 8 + upSx s c.toNat px.toNat % 8 ∧
      exec (.upMap c px py) s = .next { s with result := BitVec.ofNat 32 (block * 2 ^ 8 + sample) } ∧
      upSx s c.toNat px.toNat < 8 * upH s c.toNat ∧ upSy s c.toNat py.toNat < 8 * upV s c.toNat ∧
      upOff s c.toNat ≤ block ∧ block < upOff s c.toNat + upH s c.toNat * upV s c.toNat ∧ block < 48 ∧ sample < 64 ∧
      (upH s c.toNat = upHmax s → upSx s c.toNat px.toNat = px.toNat) ∧ (upV s c.toNat = upVmax s → upSy s c.toNat py.toNat = py.toNat)
end

