-- ==== Sys2Proof/Laws/State.lean ====
section
/-! SUPPORT. One lemma per field per named update of the state records, each true by the update's definition, so that no proof unfolds
a record update. -/

namespace Sys2Proof.Machine

/-! #### State.raise -/

@[simp] theorem State.raise_errors (e : ErrorCode) (s : State) : (s.raise e).errors = s.errors.raise e := rfl
@[simp] theorem State.raise_result (e : ErrorCode) (s : State) : (s.raise e).result = s.result := rfl
@[simp] theorem State.raise_reader (e : ErrorCode) (s : State) : (s.raise e).reader = s.reader := rfl
@[simp] theorem State.raise_srclen (e : ErrorCode) (s : State) : (s.raise e).srclen = s.srclen := rfl
@[simp] theorem State.raise_scancfg (e : ErrorCode) (s : State) : (s.raise e).scancfg = s.scancfg := rfl
@[simp] theorem State.raise_eobrun (e : ErrorCode) (s : State) : (s.raise e).eobrun = s.eobrun := rfl
@[simp] theorem State.raise_pred (e : ErrorCode) (s : State) : (s.raise e).pred = s.pred := rfl
@[simp] theorem State.raise_nzmask (e : ErrorCode) (s : State) : (s.raise e).nzmask = s.nzmask := rfl
@[simp] theorem State.raise_ccin (e : ErrorCode) (s : State) : (s.raise e).ccin = s.ccin := rfl
@[simp] theorem State.raise_ccout (e : ErrorCode) (s : State) : (s.raise e).ccout = s.ccout := rfl
@[simp] theorem State.raise_ncomp (e : ErrorCode) (s : State) : (s.raise e).ncomp = s.ncomp := rfl
@[simp] theorem State.raise_compcfg (e : ErrorCode) (s : State) : (s.raise e).compcfg = s.compcfg := rfl
@[simp] theorem State.raise_coef (e : ErrorCode) (s : State) : (s.raise e).coef = s.coef := rfl
@[simp] theorem State.raise_scratch (e : ErrorCode) (s : State) : (s.raise e).scratch = s.scratch := rfl
@[simp] theorem State.raise_sample (e : ErrorCode) (s : State) : (s.raise e).sample = s.sample := rfl
@[simp] theorem State.raise_ht (e : ErrorCode) (s : State) : (s.raise e).ht = s.ht := rfl
@[simp] theorem State.raise_qt (e : ErrorCode) (s : State) : (s.raise e).qt = s.qt := rfl
@[simp] theorem State.raise_src (e : ErrorCode) (s : State) : (s.raise e).src = s.src := rfl
@[simp] theorem State.raise_srcEpoch (e : ErrorCode) (s : State) : (s.raise e).srcEpoch = s.srcEpoch := rfl
@[simp] theorem State.raise_hostQueue (e : ErrorCode) (s : State) : (s.raise e).hostQueue = s.hostQueue := rfl
@[simp] theorem State.raise_readData (e : ErrorCode) (s : State) : (s.raise e).readData = s.readData := rfl
@[simp] theorem State.raise_freeDraws (e : ErrorCode) (s : State) : (s.raise e).freeDraws = s.freeDraws := rfl

/-! #### State.pendCommand -/

@[simp] theorem State.pendCommand_errors (w : Word) (s : State) : (s.pendCommand w).errors = s.errors := rfl
@[simp] theorem State.pendCommand_result (w : Word) (s : State) : (s.pendCommand w).result = s.result := rfl
@[simp] theorem State.pendCommand_reader (w : Word) (s : State) : (s.pendCommand w).reader = s.reader := rfl
@[simp] theorem State.pendCommand_srclen (w : Word) (s : State) : (s.pendCommand w).srclen = s.srclen := rfl
@[simp] theorem State.pendCommand_scancfg (w : Word) (s : State) : (s.pendCommand w).scancfg = s.scancfg := rfl
@[simp] theorem State.pendCommand_eobrun (w : Word) (s : State) : (s.pendCommand w).eobrun = s.eobrun := rfl
@[simp] theorem State.pendCommand_pred (w : Word) (s : State) : (s.pendCommand w).pred = s.pred := rfl
@[simp] theorem State.pendCommand_nzmask (w : Word) (s : State) : (s.pendCommand w).nzmask = s.nzmask := rfl
@[simp] theorem State.pendCommand_ccin (w : Word) (s : State) : (s.pendCommand w).ccin = s.ccin := rfl
@[simp] theorem State.pendCommand_ccout (w : Word) (s : State) : (s.pendCommand w).ccout = s.ccout := rfl
@[simp] theorem State.pendCommand_ncomp (w : Word) (s : State) : (s.pendCommand w).ncomp = s.ncomp := rfl
@[simp] theorem State.pendCommand_compcfg (w : Word) (s : State) : (s.pendCommand w).compcfg = s.compcfg := rfl
@[simp] theorem State.pendCommand_coef (w : Word) (s : State) : (s.pendCommand w).coef = s.coef := rfl
@[simp] theorem State.pendCommand_scratch (w : Word) (s : State) : (s.pendCommand w).scratch = s.scratch := rfl
@[simp] theorem State.pendCommand_sample (w : Word) (s : State) : (s.pendCommand w).sample = s.sample := rfl
@[simp] theorem State.pendCommand_ht (w : Word) (s : State) : (s.pendCommand w).ht = s.ht := rfl
@[simp] theorem State.pendCommand_qt (w : Word) (s : State) : (s.pendCommand w).qt = s.qt := rfl
@[simp] theorem State.pendCommand_src (w : Word) (s : State) : (s.pendCommand w).src = s.src := rfl
@[simp] theorem State.pendCommand_srcEpoch (w : Word) (s : State) : (s.pendCommand w).srcEpoch = s.srcEpoch := rfl
@[simp] theorem State.pendCommand_hostQueue (w : Word) (s : State) : (s.pendCommand w).hostQueue = .write cmdOffset 4 w :: s.hostQueue := rfl
@[simp] theorem State.pendCommand_readData (w : Word) (s : State) : (s.pendCommand w).readData = s.readData := rfl
@[simp] theorem State.pendCommand_freeDraws (w : Word) (s : State) : (s.pendCommand w).freeDraws = s.freeDraws := rfl

/-! #### State.failDefine -/

@[simp] theorem State.failDefine_errors (e : ErrorCode) (r : Reader) (s : State) : (s.failDefine e r).errors = s.errors.raise e := rfl
@[simp] theorem State.failDefine_result (e : ErrorCode) (r : Reader) (s : State) : (s.failDefine e r).result = defineResult true s.reader.srcpos r.srcpos := rfl
@[simp] theorem State.failDefine_reader (e : ErrorCode) (r : Reader) (s : State) : (s.failDefine e r).reader = r := rfl
@[simp] theorem State.failDefine_srclen (e : ErrorCode) (r : Reader) (s : State) : (s.failDefine e r).srclen = s.srclen := rfl
@[simp] theorem State.failDefine_scancfg (e : ErrorCode) (r : Reader) (s : State) : (s.failDefine e r).scancfg = s.scancfg := rfl
@[simp] theorem State.failDefine_eobrun (e : ErrorCode) (r : Reader) (s : State) : (s.failDefine e r).eobrun = s.eobrun := rfl
@[simp] theorem State.failDefine_pred (e : ErrorCode) (r : Reader) (s : State) : (s.failDefine e r).pred = s.pred := rfl
@[simp] theorem State.failDefine_nzmask (e : ErrorCode) (r : Reader) (s : State) : (s.failDefine e r).nzmask = s.nzmask := rfl
@[simp] theorem State.failDefine_ccin (e : ErrorCode) (r : Reader) (s : State) : (s.failDefine e r).ccin = s.ccin := rfl
@[simp] theorem State.failDefine_ccout (e : ErrorCode) (r : Reader) (s : State) : (s.failDefine e r).ccout = s.ccout := rfl
@[simp] theorem State.failDefine_ncomp (e : ErrorCode) (r : Reader) (s : State) : (s.failDefine e r).ncomp = s.ncomp := rfl
@[simp] theorem State.failDefine_compcfg (e : ErrorCode) (r : Reader) (s : State) : (s.failDefine e r).compcfg = s.compcfg := rfl
@[simp] theorem State.failDefine_coef (e : ErrorCode) (r : Reader) (s : State) : (s.failDefine e r).coef = s.coef := rfl
@[simp] theorem State.failDefine_scratch (e : ErrorCode) (r : Reader) (s : State) : (s.failDefine e r).scratch = s.scratch := rfl
@[simp] theorem State.failDefine_sample (e : ErrorCode) (r : Reader) (s : State) : (s.failDefine e r).sample = s.sample := rfl
@[simp] theorem State.failDefine_ht (e : ErrorCode) (r : Reader) (s : State) : (s.failDefine e r).ht = s.ht := rfl
@[simp] theorem State.failDefine_qt (e : ErrorCode) (r : Reader) (s : State) : (s.failDefine e r).qt = s.qt := rfl
@[simp] theorem State.failDefine_src (e : ErrorCode) (r : Reader) (s : State) : (s.failDefine e r).src = s.src := rfl
@[simp] theorem State.failDefine_srcEpoch (e : ErrorCode) (r : Reader) (s : State) : (s.failDefine e r).srcEpoch = s.srcEpoch := rfl
@[simp] theorem State.failDefine_hostQueue (e : ErrorCode) (r : Reader) (s : State) : (s.failDefine e r).hostQueue = s.hostQueue := rfl
@[simp] theorem State.failDefine_readData (e : ErrorCode) (r : Reader) (s : State) : (s.failDefine e r).readData = s.readData := rfl
@[simp] theorem State.failDefine_freeDraws (e : ErrorCode) (r : Reader) (s : State) : (s.failDefine e r).freeDraws = s.freeDraws := rfl

/-! #### State.emitPixel -/

@[simp] theorem State.emitPixel_errors (r g b : Byte) (s : State) : (s.emitPixel r g b).errors = s.errors := rfl
@[simp] theorem State.emitPixel_result (r g b : Byte) (s : State) : (s.emitPixel r g b).result = (pack565 r g b).setWidth 32 := rfl
@[simp] theorem State.emitPixel_reader (r g b : Byte) (s : State) : (s.emitPixel r g b).reader = s.reader := rfl
@[simp] theorem State.emitPixel_srclen (r g b : Byte) (s : State) : (s.emitPixel r g b).srclen = s.srclen := rfl
@[simp] theorem State.emitPixel_scancfg (r g b : Byte) (s : State) : (s.emitPixel r g b).scancfg = s.scancfg := rfl
@[simp] theorem State.emitPixel_eobrun (r g b : Byte) (s : State) : (s.emitPixel r g b).eobrun = s.eobrun := rfl
@[simp] theorem State.emitPixel_pred (r g b : Byte) (s : State) : (s.emitPixel r g b).pred = s.pred := rfl
@[simp] theorem State.emitPixel_nzmask (r g b : Byte) (s : State) : (s.emitPixel r g b).nzmask = s.nzmask := rfl
@[simp] theorem State.emitPixel_ccin (r g b : Byte) (s : State) : (s.emitPixel r g b).ccin = s.ccin := rfl
@[simp] theorem State.emitPixel_ccout (r g b : Byte) (s : State) : (s.emitPixel r g b).ccout = b ++ g ++ r := rfl
@[simp] theorem State.emitPixel_ncomp (r g b : Byte) (s : State) : (s.emitPixel r g b).ncomp = s.ncomp := rfl
@[simp] theorem State.emitPixel_compcfg (r g b : Byte) (s : State) : (s.emitPixel r g b).compcfg = s.compcfg := rfl
@[simp] theorem State.emitPixel_coef (r g b : Byte) (s : State) : (s.emitPixel r g b).coef = s.coef := rfl
@[simp] theorem State.emitPixel_scratch (r g b : Byte) (s : State) : (s.emitPixel r g b).scratch = s.scratch := rfl
@[simp] theorem State.emitPixel_sample (r g b : Byte) (s : State) : (s.emitPixel r g b).sample = s.sample := rfl
@[simp] theorem State.emitPixel_ht (r g b : Byte) (s : State) : (s.emitPixel r g b).ht = s.ht := rfl
@[simp] theorem State.emitPixel_qt (r g b : Byte) (s : State) : (s.emitPixel r g b).qt = s.qt := rfl
@[simp] theorem State.emitPixel_src (r g b : Byte) (s : State) : (s.emitPixel r g b).src = s.src := rfl
@[simp] theorem State.emitPixel_srcEpoch (r g b : Byte) (s : State) : (s.emitPixel r g b).srcEpoch = s.srcEpoch := rfl
@[simp] theorem State.emitPixel_hostQueue (r g b : Byte) (s : State) : (s.emitPixel r g b).hostQueue = s.hostQueue := rfl
@[simp] theorem State.emitPixel_readData (r g b : Byte) (s : State) : (s.emitPixel r g b).readData = s.readData := rfl
@[simp] theorem State.emitPixel_freeDraws (r g b : Byte) (s : State) : (s.emitPixel r g b).freeDraws = s.freeDraws := rfl

/-! #### State.resetBlock -/

@[simp] theorem State.resetBlock_errors (s : State) : (s.resetBlock).errors = State.reset.errors := rfl
@[simp] theorem State.resetBlock_result (s : State) : (s.resetBlock).result = State.reset.result := rfl
@[simp] theorem State.resetBlock_reader (s : State) : (s.resetBlock).reader = State.reset.reader := rfl
@[simp] theorem State.resetBlock_srclen (s : State) : (s.resetBlock).srclen = State.reset.srclen := rfl
@[simp] theorem State.resetBlock_scancfg (s : State) : (s.resetBlock).scancfg = State.reset.scancfg := rfl
@[simp] theorem State.resetBlock_eobrun (s : State) : (s.resetBlock).eobrun = State.reset.eobrun := rfl
@[simp] theorem State.resetBlock_pred (s : State) : (s.resetBlock).pred = State.reset.pred := rfl
@[simp] theorem State.resetBlock_nzmask (s : State) : (s.resetBlock).nzmask = State.reset.nzmask := rfl
@[simp] theorem State.resetBlock_ccin (s : State) : (s.resetBlock).ccin = State.reset.ccin := rfl
@[simp] theorem State.resetBlock_ccout (s : State) : (s.resetBlock).ccout = State.reset.ccout := rfl
@[simp] theorem State.resetBlock_ncomp (s : State) : (s.resetBlock).ncomp = State.reset.ncomp := rfl
@[simp] theorem State.resetBlock_compcfg (s : State) : (s.resetBlock).compcfg = State.reset.compcfg := rfl
@[simp] theorem State.resetBlock_coef (s : State) : (s.resetBlock).coef = State.reset.coef := rfl
@[simp] theorem State.resetBlock_scratch (s : State) : (s.resetBlock).scratch = State.reset.scratch := rfl
@[simp] theorem State.resetBlock_sample (s : State) : (s.resetBlock).sample = State.reset.sample := rfl
@[simp] theorem State.resetBlock_ht (s : State) : (s.resetBlock).ht = State.reset.ht := rfl
@[simp] theorem State.resetBlock_qt (s : State) : (s.resetBlock).qt = State.reset.qt := rfl
@[simp] theorem State.resetBlock_src (s : State) : (s.resetBlock).src = s.src := rfl
@[simp] theorem State.resetBlock_srcEpoch (s : State) : (s.resetBlock).srcEpoch = s.srcEpoch := rfl
@[simp] theorem State.resetBlock_hostQueue (s : State) : (s.resetBlock).hostQueue = s.hostQueue := rfl
@[simp] theorem State.resetBlock_readData (s : State) : (s.resetBlock).readData = s.readData := rfl
@[simp] theorem State.resetBlock_freeDraws (s : State) : (s.resetBlock).freeDraws = s.freeDraws := rfl

/-! #### State.powerOn -/

@[simp] theorem State.powerOn_errors (s : State) : (s.powerOn).errors = State.reset.errors := rfl
@[simp] theorem State.powerOn_result (s : State) : (s.powerOn).result = State.reset.result := rfl
@[simp] theorem State.powerOn_reader (s : State) : (s.powerOn).reader = State.reset.reader := rfl
@[simp] theorem State.powerOn_srclen (s : State) : (s.powerOn).srclen = State.reset.srclen := rfl
@[simp] theorem State.powerOn_scancfg (s : State) : (s.powerOn).scancfg = State.reset.scancfg := rfl
@[simp] theorem State.powerOn_eobrun (s : State) : (s.powerOn).eobrun = State.reset.eobrun := rfl
@[simp] theorem State.powerOn_pred (s : State) : (s.powerOn).pred = State.reset.pred := rfl
@[simp] theorem State.powerOn_nzmask (s : State) : (s.powerOn).nzmask = State.reset.nzmask := rfl
@[simp] theorem State.powerOn_ccin (s : State) : (s.powerOn).ccin = State.reset.ccin := rfl
@[simp] theorem State.powerOn_ccout (s : State) : (s.powerOn).ccout = State.reset.ccout := rfl
@[simp] theorem State.powerOn_ncomp (s : State) : (s.powerOn).ncomp = State.reset.ncomp := rfl
@[simp] theorem State.powerOn_compcfg (s : State) : (s.powerOn).compcfg = State.reset.compcfg := rfl
@[simp] theorem State.powerOn_coef (s : State) : (s.powerOn).coef = State.reset.coef := rfl
@[simp] theorem State.powerOn_scratch (s : State) : (s.powerOn).scratch = State.reset.scratch := rfl
@[simp] theorem State.powerOn_sample (s : State) : (s.powerOn).sample = State.reset.sample := rfl
@[simp] theorem State.powerOn_ht (s : State) : (s.powerOn).ht = State.reset.ht := rfl
@[simp] theorem State.powerOn_qt (s : State) : (s.powerOn).qt = State.reset.qt := rfl
@[simp] theorem State.powerOn_src (s : State) : (s.powerOn).src = [] := rfl
@[simp] theorem State.powerOn_srcEpoch (s : State) : (s.powerOn).srcEpoch = s.srcEpoch + 1 := rfl
@[simp] theorem State.powerOn_hostQueue (s : State) : (s.powerOn).hostQueue = s.hostQueue := rfl
@[simp] theorem State.powerOn_readData (s : State) : (s.powerOn).readData = s.readData := rfl
@[simp] theorem State.powerOn_freeDraws (s : State) : (s.powerOn).freeDraws = s.freeDraws := rfl

/-! #### State.finishBlock, whatever the mode -/

@[simp] theorem State.finishBlock_errors (d : Mode) (lo hi : Nat) (b : BlockRun) (s : State) :
    (State.finishBlock d lo hi b s).errors = b.errors := by cases d <;> rfl
@[simp] theorem State.finishBlock_result (d : Mode) (lo hi : Nat) (b : BlockRun) (s : State) :
    (State.finishBlock d lo hi b s).result = b.reader.consumed - s.reader.consumed := by cases d <;> rfl
@[simp] theorem State.finishBlock_reader (d : Mode) (lo hi : Nat) (b : BlockRun) (s : State) :
    (State.finishBlock d lo hi b s).reader = b.reader := by cases d <;> rfl
@[simp] theorem State.finishBlock_srclen (d : Mode) (lo hi : Nat) (b : BlockRun) (s : State) :
    (State.finishBlock d lo hi b s).srclen = s.srclen := by cases d <;> rfl
@[simp] theorem State.finishBlock_scancfg (d : Mode) (lo hi : Nat) (b : BlockRun) (s : State) :
    (State.finishBlock d lo hi b s).scancfg = s.scancfg := by cases d <;> rfl
@[simp] theorem State.finishBlock_eobrun (d : Mode) (lo hi : Nat) (b : BlockRun) (s : State) :
    (State.finishBlock d lo hi b s).eobrun = b.eobrun := by cases d <;> rfl
@[simp] theorem State.finishBlock_pred (d : Mode) (lo hi : Nat) (b : BlockRun) (s : State) :
    (State.finishBlock d lo hi b s).pred = s.pred := by cases d <;> rfl
@[simp] theorem State.finishBlock_nzmask (d : Mode) (lo hi : Nat) (b : BlockRun) (s : State) :
    (State.finishBlock d lo hi b s).nzmask = s.nzmask ||| nonzeroBits b.t lo hi := by cases d <;> rfl
@[simp] theorem State.finishBlock_ccin (d : Mode) (lo hi : Nat) (b : BlockRun) (s : State) :
    (State.finishBlock d lo hi b s).ccin = s.ccin := by cases d <;> rfl
@[simp] theorem State.finishBlock_ccout (d : Mode) (lo hi : Nat) (b : BlockRun) (s : State) :
    (State.finishBlock d lo hi b s).ccout = s.ccout := by cases d <;> rfl
@[simp] theorem State.finishBlock_ncomp (d : Mode) (lo hi : Nat) (b : BlockRun) (s : State) :
    (State.finishBlock d lo hi b s).ncomp = s.ncomp := by cases d <;> rfl
@[simp] theorem State.finishBlock_compcfg (d : Mode) (lo hi : Nat) (b : BlockRun) (s : State) :
    (State.finishBlock d lo hi b s).compcfg = s.compcfg := by cases d <;> rfl
@[simp] theorem State.finishBlock_sample (d : Mode) (lo hi : Nat) (b : BlockRun) (s : State) :
    (State.finishBlock d lo hi b s).sample = s.sample := by cases d <;> rfl
@[simp] theorem State.finishBlock_ht (d : Mode) (lo hi : Nat) (b : BlockRun) (s : State) :
    (State.finishBlock d lo hi b s).ht = s.ht := by cases d <;> rfl
@[simp] theorem State.finishBlock_qt (d : Mode) (lo hi : Nat) (b : BlockRun) (s : State) :
    (State.finishBlock d lo hi b s).qt = s.qt := by cases d <;> rfl
@[simp] theorem State.finishBlock_src (d : Mode) (lo hi : Nat) (b : BlockRun) (s : State) :
    (State.finishBlock d lo hi b s).src = s.src := by cases d <;> rfl
@[simp] theorem State.finishBlock_srcEpoch (d : Mode) (lo hi : Nat) (b : BlockRun) (s : State) :
    (State.finishBlock d lo hi b s).srcEpoch = s.srcEpoch := by cases d <;> rfl
@[simp] theorem State.finishBlock_hostQueue (d : Mode) (lo hi : Nat) (b : BlockRun) (s : State) :
    (State.finishBlock d lo hi b s).hostQueue = s.hostQueue := by cases d <;> rfl
@[simp] theorem State.finishBlock_readData (d : Mode) (lo hi : Nat) (b : BlockRun) (s : State) :
    (State.finishBlock d lo hi b s).readData = s.readData := by cases d <;> rfl
@[simp] theorem State.finishBlock_freeDraws (d : Mode) (lo hi : Nat) (b : BlockRun) (s : State) :
    (State.finishBlock d lo hi b s).freeDraws = s.freeDraws := by cases d <;> rfl
@[simp] theorem State.finishBlock_store_coef (lo hi : Nat) (b : BlockRun) (s : State) : (State.finishBlock .store lo hi b s).coef = b.t := rfl
@[simp] theorem State.finishBlock_store_scratch (lo hi : Nat) (b : BlockRun) (s : State) :
    (State.finishBlock .store lo hi b s).scratch = s.scratch := rfl
@[simp] theorem State.finishBlock_discard_coef (lo hi : Nat) (b : BlockRun) (s : State) :
    (State.finishBlock .discard lo hi b s).coef = s.coef := rfl
@[simp] theorem State.finishBlock_discard_scratch (lo hi : Nat) (b : BlockRun) (s : State) :
    (State.finishBlock .discard lo hi b s).scratch = b.t := rfl

/-! #### Reader.clear -/

@[simp] theorem Reader.clear_srcpos (r : Reader) : (r.clear).srcpos = r.srcpos := rfl
@[simp] theorem Reader.clear_bracc (r : Reader) : (r.clear).bracc = 0#32 := rfl
@[simp] theorem Reader.clear_bitcnt (r : Reader) : (r.clear).bitcnt = 0 := rfl
@[simp] theorem Reader.clear_halt (r : Reader) : (r.clear).halt = false := rfl
@[simp] theorem Reader.clear_eos (r : Reader) : (r.clear).eos = false := rfl
@[simp] theorem Reader.clear_markerValid (r : Reader) : (r.clear).markerValid = false := rfl
@[simp] theorem Reader.clear_marker (r : Reader) : (r.clear).marker = 0#8 := rfl
@[simp] theorem Reader.clear_lastrst (r : Reader) : (r.clear).lastrst = r.lastrst := rfl
@[simp] theorem Reader.clear_lastrstValid (r : Reader) : (r.clear).lastrstValid = r.lastrstValid := rfl
@[simp] theorem Reader.clear_consumed (r : Reader) : (r.clear).consumed = r.consumed := rfl

/-! #### Reader.endOfStream -/

@[simp] theorem Reader.endOfStream_srcpos (r : Reader) : (r.endOfStream).srcpos = r.srcpos := rfl
@[simp] theorem Reader.endOfStream_bracc (r : Reader) : (r.endOfStream).bracc = r.bracc := rfl
@[simp] theorem Reader.endOfStream_bitcnt (r : Reader) : (r.endOfStream).bitcnt = r.bitcnt := rfl
@[simp] theorem Reader.endOfStream_halt (r : Reader) : (r.endOfStream).halt = true := rfl
@[simp] theorem Reader.endOfStream_eos (r : Reader) : (r.endOfStream).eos = true := rfl
@[simp] theorem Reader.endOfStream_markerValid (r : Reader) : (r.endOfStream).markerValid = r.markerValid := rfl
@[simp] theorem Reader.endOfStream_marker (r : Reader) : (r.endOfStream).marker = r.marker := rfl
@[simp] theorem Reader.endOfStream_lastrst (r : Reader) : (r.endOfStream).lastrst = r.lastrst := rfl
@[simp] theorem Reader.endOfStream_lastrstValid (r : Reader) : (r.endOfStream).lastrstValid = r.lastrstValid := rfl
@[simp] theorem Reader.endOfStream_consumed (r : Reader) : (r.endOfStream).consumed = r.consumed := rfl

/-! #### Reader.meetMarker -/

@[simp] theorem Reader.meetMarker_srcpos (code : Byte) (r : Reader) : (r.meetMarker code).srcpos = r.srcpos - 1#32 := rfl
@[simp] theorem Reader.meetMarker_bracc (code : Byte) (r : Reader) : (r.meetMarker code).bracc = r.bracc := rfl
@[simp] theorem Reader.meetMarker_bitcnt (code : Byte) (r : Reader) : (r.meetMarker code).bitcnt = r.bitcnt := rfl
@[simp] theorem Reader.meetMarker_halt (code : Byte) (r : Reader) : (r.meetMarker code).halt = true := rfl
@[simp] theorem Reader.meetMarker_eos (code : Byte) (r : Reader) : (r.meetMarker code).eos = r.eos := rfl
@[simp] theorem Reader.meetMarker_markerValid (code : Byte) (r : Reader) : (r.meetMarker code).markerValid = true := rfl
@[simp] theorem Reader.meetMarker_marker (code : Byte) (r : Reader) : (r.meetMarker code).marker = code := rfl
@[simp] theorem Reader.meetMarker_lastrst (code : Byte) (r : Reader) : (r.meetMarker code).lastrst = r.lastrst := rfl
@[simp] theorem Reader.meetMarker_lastrstValid (code : Byte) (r : Reader) : (r.meetMarker code).lastrstValid = r.lastrstValid := rfl
@[simp] theorem Reader.meetMarker_consumed (code : Byte) (r : Reader) : (r.meetMarker code).consumed = r.consumed := rfl

/-! #### Reader.push -/

@[simp] theorem Reader.push_srcpos (b : Byte) (r : Reader) : (r.push b).srcpos = r.srcpos := rfl
@[simp] theorem Reader.push_bracc (b : Byte) (r : Reader) : (r.push b).bracc = (r.bracc <<< 8) ||| b.setWidth 32 := rfl
@[simp] theorem Reader.push_bitcnt (b : Byte) (r : Reader) : (r.push b).bitcnt = r.bitcnt + 8 := rfl
@[simp] theorem Reader.push_halt (b : Byte) (r : Reader) : (r.push b).halt = r.halt := rfl
@[simp] theorem Reader.push_eos (b : Byte) (r : Reader) : (r.push b).eos = r.eos := rfl
@[simp] theorem Reader.push_markerValid (b : Byte) (r : Reader) : (r.push b).markerValid = r.markerValid := rfl
@[simp] theorem Reader.push_marker (b : Byte) (r : Reader) : (r.push b).marker = r.marker := rfl
@[simp] theorem Reader.push_lastrst (b : Byte) (r : Reader) : (r.push b).lastrst = r.lastrst := rfl
@[simp] theorem Reader.push_lastrstValid (b : Byte) (r : Reader) : (r.push b).lastrstValid = r.lastrstValid := rfl
@[simp] theorem Reader.push_consumed (b : Byte) (r : Reader) : (r.push b).consumed = r.consumed := rfl

/-! #### Reader.consume -/

@[simp] theorem Reader.consume_srcpos (n : Nat) (r : Reader) : (r.consume n).srcpos = r.srcpos := rfl
@[simp] theorem Reader.consume_bracc (n : Nat) (r : Reader) : (r.consume n).bracc = BitVec.ofNat 32 (r.bracc.toNat % 2 ^ (r.bitcnt - n)) := rfl
@[simp] theorem Reader.consume_bitcnt (n : Nat) (r : Reader) : (r.consume n).bitcnt = r.bitcnt - n := rfl
@[simp] theorem Reader.consume_halt (n : Nat) (r : Reader) : (r.consume n).halt = r.halt := rfl
@[simp] theorem Reader.consume_eos (n : Nat) (r : Reader) : (r.consume n).eos = r.eos := rfl
@[simp] theorem Reader.consume_markerValid (n : Nat) (r : Reader) : (r.consume n).markerValid = r.markerValid := rfl
@[simp] theorem Reader.consume_marker (n : Nat) (r : Reader) : (r.consume n).marker = r.marker := rfl
@[simp] theorem Reader.consume_lastrst (n : Nat) (r : Reader) : (r.consume n).lastrst = r.lastrst := rfl
@[simp] theorem Reader.consume_lastrstValid (n : Nat) (r : Reader) : (r.consume n).lastrstValid = r.lastrstValid := rfl
@[simp] theorem Reader.consume_consumed (n : Nat) (r : Reader) : (r.consume n).consumed = r.consumed + BitVec.ofNat 32 n := rfl

/-! #### State.startBlock -/

@[simp] theorem State.startBlock_reader (d : Mode) (s : State) : (s.startBlock d).reader = s.reader := rfl
@[simp] theorem State.startBlock_errors (d : Mode) (s : State) : (s.startBlock d).errors = s.errors := rfl
@[simp] theorem State.startBlock_t (d : Mode) (s : State) : (s.startBlock d).t = s.selectTarget d := rfl
@[simp] theorem State.startBlock_eobrun (d : Mode) (s : State) : (s.startBlock d).eobrun = s.eobrun := rfl

/-! #### BlockRun.raise -/

@[simp] theorem BlockRun.raise_reader (e : ErrorCode) (b : BlockRun) : (b.raise e).reader = b.reader := rfl
@[simp] theorem BlockRun.raise_errors (e : ErrorCode) (b : BlockRun) : (b.raise e).errors = b.errors.raise e := rfl
@[simp] theorem BlockRun.raise_t (e : ErrorCode) (b : BlockRun) : (b.raise e).t = b.t := rfl
@[simp] theorem BlockRun.raise_eobrun (e : ErrorCode) (b : BlockRun) : (b.raise e).eobrun = b.eobrun := rfl

/-! #### BlockRun.setAt -/

@[simp] theorem BlockRun.setAt_reader (k : Nat) (v : Int) (b : BlockRun) : (b.setAt k v).reader = b.reader := rfl
@[simp] theorem BlockRun.setAt_errors (k : Nat) (v : Int) (b : BlockRun) : (b.setAt k v).errors = b.errors := rfl
@[simp] theorem BlockRun.setAt_t (k : Nat) (v : Int) (b : BlockRun) : (b.setAt k v).t = b.t.set (zz k) (wrap16 v) := rfl
@[simp] theorem BlockRun.setAt_eobrun (k : Nat) (v : Int) (b : BlockRun) : (b.setAt k v).eobrun = b.eobrun := rfl

end Sys2Proof.Machine
end

