-- ==== Sys2Proof/Laws/Memory.lean ====
section
/-! SUPPORT. Laws of tables, of the zigzag permutation and of SRC's canonical memory. -/

namespace Sys2Proof.Machine

/-! ### Tables -/

theorem tabFrom_getElem {α : Type} (f : Nat → α) (i n j : Nat) (h : j < (tabFrom f i n).length) :
    (tabFrom f i n)[j] = f (i + j) := by
  induction n generalizing i j with
  | zero => simp [tabFrom] at h
  | succ n ih =>
    cases j with
    | zero => simp [tabFrom]
    | succ j =>
      have := ih (i + 1) j (by simpa [tabFrom] using h)
      simp only [tabFrom, List.getElem_cons_succ, this]
      congr 1
      omega

@[simp] theorem tabulate_getElem {α : Type} (n : Nat) (f : Nat → α) (i : Nat) (h : i < n) : (tabulate n f)[i] = f i := by
  have := tabFrom_getElem f 0 n i (by simpa [tabFrom_length] using h)
  simpa [tabulate] using this

theorem entry_of_lt {n w : Nat} (v : Vector (BitVec w) n) {i : Nat} (h : i < n) : entry v i = v[i] := by
  simp [entry, h]

theorem entry_of_ge {n w : Nat} (v : Vector (BitVec w) n) {i : Nat} (h : n ≤ i) : entry v i = 0 := by
  simp [entry, Nat.not_lt.mpr h]

theorem entry_tabulate {w : Nat} (n : Nat) (f : Nat → BitVec w) {i : Nat} (h : i < n) : entry (tabulate n f) i = f i := by
  simp [entry_of_lt _ h]

theorem entry_replicate {w : Nat} (n : Nat) (x : BitVec w) {i : Nat} (h : i < n) : entry (Vector.replicate n x) i = x := by
  simp [entry_of_lt _ h]

theorem intAt_of_lt {n : Nat} (v : Vector Int n) {i : Nat} (h : i < n) : intAt v i = v[i] := by
  simp [intAt, h]

theorem intAt_tabulate (n : Nat) (f : Nat → Int) {i : Nat} (h : i < n) : intAt (tabulate n f) i = f i := by
  simp [intAt_of_lt _ h]

/-! ### Zigzag (10_state.md R62) -/

theorem zzInv_zz : ∀ k : Fin 64, zzInv (zz k.val).val = k.val := by decide

theorem zz_zzInv : ∀ i : Fin 64, zz (zzInv i.val) = i := by decide

theorem zzInv_lt : ∀ i : Fin 64, zzInv i.val < 64 := by decide

theorem zz_injective {j k : Nat} (hj : j < 64) (hk : k < 64) (h : zz j = zz k) : j = k := by
  have h1 := zzInv_zz ⟨j, hj⟩
  have h2 := zzInv_zz ⟨k, hk⟩
  simp only at h1 h2
  rw [← h1, ← h2, h]

/-! ### SRC -/

/-- What a placed byte changes (20_memory.md R91): the byte at its address, nothing at any other. -/
theorem Memory.read_write (m : Memory) (a b : Nat) (v : Byte) :
    Memory.read (Memory.write m a v) b = if b = a then some v else Memory.read m b := by
  induction m with
  | nil => by_cases h : b = a <;> simp [Memory.write, Memory.read, h]
  | cons c m ih =>
    obtain ⟨c, u⟩ := c
    unfold Memory.write
    split
    · by_cases h : b = a <;> simp [Memory.read, h]
    · split
      · subst a
        by_cases h : b = c <;> simp [Memory.read, h]
      · by_cases h : b = c
        · have : b ≠ a := by omega
          simp [Memory.read, h]
          omega
        · simp [Memory.read, h, ih]

theorem Memory.risesFrom_write (m : Memory) (lo a : Nat) (v : Byte) (h : Memory.risesFrom lo m = true) (ha : lo ≤ a) :
    Memory.risesFrom lo (Memory.write m a v) = true := by
  induction m generalizing lo with
  | nil => simp [Memory.write, Memory.risesFrom, ha]
  | cons c m ih =>
    obtain ⟨c, u⟩ := c
    simp only [Memory.risesFrom, Bool.and_eq_true, decide_eq_true_eq] at h
    unfold Memory.write
    split
    · simp only [Memory.risesFrom, Bool.and_eq_true, decide_eq_true_eq]
      exact ⟨ha, by omega, h.2⟩
    · split
      · simp only [Memory.risesFrom, Bool.and_eq_true, decide_eq_true_eq]
        refine ⟨ha, ?_⟩
        subst a
        exact h.2
      · simp only [Memory.risesFrom, Bool.and_eq_true, decide_eq_true_eq]
        exact ⟨h.1, ih (c + 1) h.2 (by omega)⟩

theorem Memory.mem_write (m : Memory) (a : Nat) (v : Byte) (x : Host.Cell) (h : x ∈ Memory.write m a v) : x = (a, v) ∨ x ∈ m := by
  induction m with
  | nil => simpa [Memory.write] using h
  | cons c m ih =>
    obtain ⟨c, u⟩ := c
    unfold Memory.write at h
    split at h
    · simpa using h
    · split at h
      · rcases List.mem_cons.mp h with h | h
        · exact .inl h
        · exact .inr (List.mem_cons_of_mem _ h)
      · rcases List.mem_cons.mp h with h | h
        · exact .inr (by simp [h])
        · rcases ih h with h | h
          · exact .inl h
          · exact .inr (List.mem_cons_of_mem _ h)

/-- Placing a byte keeps SRC's canonical form. -/
theorem Memory.write_wf (m : Memory) (a : Nat) (v : Byte) (h : Memory.wf m = true) (ha : a < 2 ^ 32) :
    Memory.wf (Memory.write m a v) = true := by
  simp only [Memory.wf, Bool.and_eq_true, List.all_eq_true, decide_eq_true_eq] at h ⊢
  refine ⟨Memory.risesFrom_write m 0 a v h.1 (Nat.zero_le a), ?_⟩
  intro x hx
  rcases Memory.mem_write m a v x hx with rfl | hx
  · exact ha
  · exact h.2 x hx

theorem State.reset_src_wf : State.reset.src.wf = true := rfl

end Sys2Proof.Machine
end

