-- ==== Sys2Proof/Laws/Arithmetic.lean ====
section
/-! SUPPORT. The narrowing operations of 00_scope.md R9 and the bounded results of the inverse DCT and the colour converter. -/

namespace Sys2Proof.Machine

/-- `clamp` stays in its range. -/
theorem clamp_bounds (x lo hi : Int) (h : lo ≤ hi) : lo ≤ clamp x lo hi ∧ clamp x lo hi ≤ hi := by
  unfold clamp; omega

/-- A value in 0..255 survives narrowing to a byte. -/
theorem toNat_ofInt_byte (x : Int) (h0 : 0 ≤ x) (h1 : x ≤ 255) : ((BitVec.ofInt 8 x).toNat : Int) = x := by
  rw [BitVec.toNat_ofInt]; omega

/-- `Limit` is a sample (44_idct.md R276). -/
theorem limit_bounds (v : Int) : 0 ≤ limit v ∧ limit v ≤ 255 := clamp_bounds _ 0 255 (by decide)

/-- A colour channel is the clamped sum (45_color_upsample.md R290). -/
theorem channel_toNat (y : Byte) (term : Int) : ((channel y term).toNat : Int) = clamp ((y.toNat : Int) + asr (term + 2 ^ 15) 16) 0 255 :=
  toNat_ofInt_byte _ (clamp_bounds _ 0 255 (by decide)).1 (clamp_bounds _ 0 255 (by decide)).2

/-- `wrap16` is the identity on 16-bit values (00_scope.md R9). -/
theorem wrap16_toInt (x : Coef) : wrap16 x.toInt = x := by simp [wrap16]

/-- `wrap16` is 0 exactly on the multiples of 2^16 (00_scope.md R9). -/
theorem wrap16_eq_zero_iff (x : Int) : wrap16 x = 0#16 ↔ x % 65536 = 0 := by
  unfold wrap16
  constructor
  · intro h
    have := congrArg BitVec.toNat h
    rw [BitVec.toNat_ofInt] at this
    simp at this
    omega
  · intro h
    apply BitVec.eq_of_toNat_eq
    rw [BitVec.toNat_ofInt]
    simp
    omega

/-- Where only the first input is not 0, the kernel gives it in all eight outputs, scaled by 2^13 (44_idct.md R274). -/
theorem kernel_of_onlyFirst (x : Vector Int 8) (h : onlyFirst x = true) : kernel x = Vector.replicate 8 (x[0] * 2 ^ 13) := by
  simp only [onlyFirst, Bool.and_eq_true, decide_eq_true_eq] at h
  obtain ⟨⟨⟨⟨⟨⟨h1, h2⟩, h3⟩, h4⟩, h5⟩, h6⟩, h7⟩ := h
  simp only [kernel, h1, h2, h3, h4, h5, h6, h7, constBits]
  simp only [Vector.replicate, Vector.mk.injEq]
  simp
  rfl

end Sys2Proof.Machine
end

