-- ==== Sys2Proof/Laws/Reader.lean ====
section
/-! SUPPORT. What the bit reader's operations can do (41_bitreader.md): one case lemma or frame lemma per operation, and the invariants
of R150 and of the halt and marker fields through each of them. -/

namespace Sys2Proof.Machine

/-! ### SrcRead and raw bytes -/

/-- All that SrcRead can do (20_memory.md R92). -/
theorem srcRead_cases (m : Source) (r : Reader) :
    (m.len ≤ r.srcpos ∧ srcRead m r = (none, r)) ∨
      (r.srcpos < m.len ∧ srcRead m r = (some (m.byte r.srcpos), { r with srcpos := r.srcpos + 1#32 })) := by
  by_cases h : m.len ≤ r.srcpos
  · exact .inl ⟨h, by simp [srcRead, h]⟩
  · exact .inr ⟨by bv_omega, by simp [srcRead, h]⟩

/-- SRCPOS never wraps (20_memory.md R92). -/
theorem srcpos_succ_toNat {m : Source} {r : Reader} (h : r.srcpos < m.len) : (r.srcpos + 1#32).toNat = r.srcpos.toNat + 1 := by
  bv_omega

/-- A raw read moves SRCPOS and nothing else. -/
theorem srcRead_frame (m : Source) (r : Reader) : (srcRead m r).2 = { r with srcpos := (srcRead m r).2.srcpos } := by
  rcases srcRead_cases m r with ⟨-, h⟩ | ⟨-, h⟩ <;> simp [h]

/-- Raw reads move SRCPOS and nothing else. -/
theorem readBytes_frame (m : Source) (n : Nat) (r : Reader) : (readBytes m n r).2 = { r with srcpos := (readBytes m n r).2.srcpos } := by
  induction n generalizing r with
  | zero => rfl
  | succ n ih =>
    rcases srcRead_cases m r with ⟨-, h⟩ | ⟨-, h⟩
    · simp [readBytes, h]
    · have := ih { r with srcpos := r.srcpos + 1#32 }
      simp only [readBytes, h]
      split <;> rename_i heq <;> simp only [heq] at this ⊢ <;> rw [this]

/-- n raw bytes are the n bytes from SRCPOS on, if that many stand before SRCLEN (20_memory.md R92, R93). -/
theorem readBytes_some (m : Source) (n : Nat) (r : Reader) (h : r.srcpos.toNat + n ≤ m.len.toNat) :
    readBytes m n r =
      (some (tabFrom (fun i => m.byte (r.srcpos + BitVec.ofNat 32 i)) 0 n), { r with srcpos := r.srcpos + BitVec.ofNat 32 n }) := by
  suffices H : ∀ (k : Nat) (base : Word) (q : Reader), q.srcpos = base + BitVec.ofNat 32 k → q.srcpos.toNat + n ≤ m.len.toNat →
      readBytes m n q = (some (tabFrom (fun i => m.byte (base + BitVec.ofNat 32 i)) k n),
        { q with srcpos := q.srcpos + BitVec.ofNat 32 n }) from H 0 r.srcpos r (by simp) h
  clear h
  induction n with
  | zero => intro k base q hq _; simp [readBytes, tabFrom]
  | succ n ih =>
    intro k base q hq hn
    rcases srcRead_cases m q with ⟨h, -⟩ | ⟨h, he⟩
    · exfalso; bv_omega
    · have hs := srcpos_succ_toNat h
      have hx : base + BitVec.ofNat 32 k + 1#32 = base + BitVec.ofNat 32 (k + 1) := by
        rw [BitVec.add_assoc, show BitVec.ofNat 32 (k + 1) = BitVec.ofNat 32 k + 1#32 from by simp [BitVec.ofNat_add]]
      have := ih (k + 1) base { q with srcpos := q.srcpos + 1#32 } (by simp [hq, hx]) (by simp only; omega)
      have hn' : q.srcpos + BitVec.ofNat 32 (n + 1) = q.srcpos + 1#32 + BitVec.ofNat 32 n := by
        rw [BitVec.add_assoc, Nat.add_comm n 1, BitVec.ofNat_add]
      simp only [readBytes, he]
      rw [this, tabFrom, hn', hq]

/-! ### FetchDataByte -/

/-- After a 0xFF, only SRCPOS, the halt flags and the marker can change. -/
theorem afterFF_frame (m : Source) (n : Nat) (r : Reader) :
    (afterFF m n r).2 = { r with
      srcpos := (afterFF m n r).2.srcpos, halt := (afterFF m n r).2.halt, eos := (afterFF m n r).2.eos,
      marker := (afterFF m n r).2.marker, markerValid := (afterFF m n r).2.markerValid } := by
  induction n generalizing r with
  | zero => rfl
  | succ n ih =>
    simp only [afterFF]
    split
    · rfl
    · split
      · rw [ih]
      · rfl

/-- FetchDataByte changes only SRCPOS, the halt flags and the marker (41_bitreader.md R151, 10_state.md R63). -/
theorem fetchDataByte_frame (m : Source) (r : Reader) :
    (fetchDataByte m r).2 = { r with
      srcpos := (fetchDataByte m r).2.srcpos, halt := (fetchDataByte m r).2.halt, eos := (fetchDataByte m r).2.eos,
      marker := (fetchDataByte m r).2.marker, markerValid := (fetchDataByte m r).2.markerValid } := by
  rcases srcRead_cases m r with ⟨-, h⟩ | ⟨-, h⟩
  · simp only [fetchDataByte, h]; rfl
  · simp only [fetchDataByte, h]
    split
    · rw [afterFF_frame]
    · rfl

@[simp] theorem fetchDataByte_bracc (m : Source) (r : Reader) : (fetchDataByte m r).2.bracc = r.bracc := by rw [fetchDataByte_frame]
@[simp] theorem fetchDataByte_bitcnt (m : Source) (r : Reader) : (fetchDataByte m r).2.bitcnt = r.bitcnt := by rw [fetchDataByte_frame]
@[simp] theorem fetchDataByte_lastrst (m : Source) (r : Reader) : (fetchDataByte m r).2.lastrst = r.lastrst := by
  rw [fetchDataByte_frame]
@[simp] theorem fetchDataByte_lastrstValid (m : Source) (r : Reader) : (fetchDataByte m r).2.lastrstValid = r.lastrstValid := by
  rw [fetchDataByte_frame]
@[simp] theorem fetchDataByte_consumed (m : Source) (r : Reader) : (fetchDataByte m r).2.consumed = r.consumed := by
  rw [fetchDataByte_frame]

/-- All that the loop after a 0xFF can do: one data byte with no flag changed, or a halt at end of stream, or a halt at a legal marker. -/
theorem afterFF_cases (m : Source) (n : Nat) (r : Reader) :
    (∃ p, afterFF m n r = (some 0xFF#8, { r with srcpos := p })) ∨
      (∃ p, afterFF m n r = (none, { r with srcpos := p, halt := true, eos := true })) ∨
      (∃ p x, x ≠ 0x00#8 ∧ x ≠ 0xFF#8 ∧
        afterFF m n r = (none, { r with srcpos := p, halt := true, marker := x, markerValid := true })) := by
  induction n generalizing r with
  | zero => exact .inr (.inl ⟨r.srcpos, rfl⟩)
  | succ n ih =>
    simp only [afterFF]
    split
    · exact .inl ⟨_, rfl⟩
    · split
      · rcases ih { r with srcpos := r.srcpos + 1#32 } with ⟨p, h⟩ | ⟨p, h⟩ | ⟨p, x, h0, h1, h⟩
        · exact .inl ⟨p, h⟩
        · exact .inr (.inl ⟨p, h⟩)
        · exact .inr (.inr ⟨p, x, h0, h1, h⟩)
      · exact .inr (.inr ⟨_, _, by assumption, by assumption, rfl⟩)

/-- All that FetchDataByte can do (41_bitreader.md R151): a data byte and no flag changed, a halt at end of stream, or a halt at a
marker whose code is neither 0x00 nor 0xFF. -/
theorem fetchDataByte_cases (m : Source) (r : Reader) :
    (∃ b p, fetchDataByte m r = (some b, { r with srcpos := p })) ∨
      (∃ p, fetchDataByte m r = (none, { r with srcpos := p, halt := true, eos := true })) ∨
      (∃ p x, x ≠ 0x00#8 ∧ x ≠ 0xFF#8 ∧
        fetchDataByte m r = (none, { r with srcpos := p, halt := true, marker := x, markerValid := true })) := by
  rcases srcRead_cases m r with ⟨-, h⟩ | ⟨-, h⟩
  · exact .inr (.inl ⟨r.srcpos, by simp [fetchDataByte, h]; rfl⟩)
  · simp only [fetchDataByte, h]
    split
    · rcases afterFF_cases m (m.left { r with srcpos := r.srcpos + 1#32 }) { r with srcpos := r.srcpos + 1#32 } with
        ⟨p, h⟩ | ⟨p, h⟩ | ⟨p, x, h0, h1, h⟩
      · exact .inl ⟨_, p, h⟩
      · exact .inr (.inl ⟨p, h⟩)
      · exact .inr (.inr ⟨p, x, h0, h1, h⟩)
    · exact .inl ⟨_, _, rfl⟩

/-! ### Refill, PeekBits, GetBits -/

/-- Refill changes the buffer, SRCPOS, the halt flags and the marker. -/
theorem refillLoop_frame (m : Source) (n fuel : Nat) (r : Reader) :
    (refillLoop m n fuel r).lastrst = r.lastrst ∧ (refillLoop m n fuel r).lastrstValid = r.lastrstValid ∧
      (refillLoop m n fuel r).consumed = r.consumed := by
  induction fuel generalizing r with
  | zero => exact ⟨rfl, rfl, rfl⟩
  | succ fuel ih =>
    simp only [refillLoop]
    split
    · rcases fetchDataByte_cases m r with ⟨b, p, h⟩ | ⟨p, h⟩ | ⟨p, x, -, -, h⟩ <;> simp only [h] <;>
        exact (ih _).imp id (And.imp id id)
    · exact ⟨rfl, rfl, rfl⟩

@[simp] theorem refill_lastrst (m : Source) (n : Nat) (r : Reader) : (refill m n r).lastrst = r.lastrst := (refillLoop_frame m n n r).1
@[simp] theorem refill_lastrstValid (m : Source) (n : Nat) (r : Reader) : (refill m n r).lastrstValid = r.lastrstValid :=
  (refillLoop_frame m n n r).2.1
@[simp] theorem refill_consumed (m : Source) (n : Nat) (r : Reader) : (refill m n r).consumed = r.consumed := (refillLoop_frame m n n r).2.2

/-- A halted reader is not refilled (41_bitreader.md R155). -/
theorem refill_of_halted (m : Source) (n : Nat) (r : Reader) (h : r.halt = true) : refill m n r = r := by
  cases n with
  | zero => rfl
  | succ n => simp [refill, refillLoop, h]

/-- Enough bits are not refilled. -/
theorem refill_of_enough (m : Source) (n : Nat) (r : Reader) (h : n ≤ r.bitcnt) : refill m n r = r := by
  cases n with
  | zero => rfl
  | succ n => simp [refill, refillLoop, show ¬ r.bitcnt < n + 1 from by omega]

theorem refillLoop_enough (m : Source) (n fuel : Nat) (r : Reader) (h : n ≤ r.bitcnt + 8 * fuel) :
    n ≤ (refillLoop m n fuel r).bitcnt ∨ (refillLoop m n fuel r).halt = true := by
  induction fuel generalizing r with
  | zero => exact .inl (by simpa [refillLoop] using h)
  | succ fuel ih =>
    simp only [refillLoop]
    split
    · rename_i hc
      have stuck : ∀ q : Reader, q.halt = true → (refillLoop m n fuel q).halt = true := by
        intro q hq
        cases fuel with
        | zero => exact hq
        | succ f => simp [refillLoop, hq]
      rcases fetchDataByte_cases m r with ⟨b, p, he⟩ | ⟨p, he⟩ | ⟨p, x, -, -, he⟩ <;> simp only [he]
      · exact ih _ (by simp; omega)
      · exact .inr (stuck _ rfl)
      · exact .inr (stuck _ rfl)
    · rename_i hc
      rcases hr : r.halt with _ | _
      · exact .inl (by simp [hr] at hc; exact hc)
      · exact .inr rfl

/-- After Refill(n), n bits are buffered or the supply is halted (41_bitreader.md R152). -/
theorem refill_enough (m : Source) (n : Nat) (r : Reader) : n ≤ (refill m n r).bitcnt ∨ (refill m n r).halt = true :=
  refillLoop_enough m n n r (by omega)

theorem Reader.Buffered.push {r : Reader} (h : r.Buffered) (hb : r.bitcnt ≤ 15) (b : Byte) : (r.push b).Buffered := by
  refine ⟨by simp; omega, ?_⟩
  have h1 : r.bracc.toNat < 2 ^ r.bitcnt := h.2
  have h2 : r.bracc.toNat < 2 ^ 15 := lt_of_lt_of_le h1 (Nat.pow_le_pow_right (by norm_num) hb)
  have hlt : r.bracc.toNat <<< 8 < 2 ^ 32 := by rw [Nat.shiftLeft_eq]; omega
  simp only [Reader.push_bracc, Reader.push_bitcnt, BitVec.toNat_or, BitVec.toNat_shiftLeft, Nat.mod_eq_of_lt hlt]
  apply Nat.or_lt_two_pow
  · rw [Nat.shiftLeft_eq, pow_add]
    exact Nat.mul_lt_mul_of_pos_right h1 (by norm_num)
  · have hb : (BitVec.setWidth 32 b).toNat < 2 ^ 8 := by
      rw [BitVec.toNat_setWidth, Nat.mod_eq_of_lt (by have := b.isLt; omega)]
      exact b.isLt
    exact lt_of_lt_of_le hb (Nat.pow_le_pow_right (by norm_num) (by omega))

theorem refillLoop_buffered (m : Source) (n fuel : Nat) (r : Reader) (hn : n ≤ 16) (h : r.Buffered) :
    (refillLoop m n fuel r).Buffered := by
  induction fuel generalizing r with
  | zero => exact h
  | succ fuel ih =>
    simp only [refillLoop]
    split
    · rename_i hc
      rcases fetchDataByte_cases m r with ⟨b, p, he⟩ | ⟨p, he⟩ | ⟨p, x, -, -, he⟩ <;> simp only [he]
      · exact ih _ (Reader.Buffered.push h (by show r.bitcnt ≤ 15; omega) b)
      · exact ih _ h
      · exact ih _ h
    · exact h

/-- Refill(n) for n ≤ 16 keeps the buffer's invariants (41_bitreader.md R150). -/
theorem refill_buffered (m : Source) (n : Nat) (r : Reader) (hn : n ≤ 16) (h : r.Buffered) : (refill m n r).Buffered :=
  refillLoop_buffered m n n r hn h

theorem peekBits_snd (m : Source) (n : Nat) (r : Reader) : (peekBits m n r).2 = refill m n r := by
  unfold peekBits
  split
  · subst n; rfl
  · rfl

theorem peekBits_fst (m : Source) (n : Nat) (r : Reader) : (peekBits m n r).1 = (refill m n r).top n := by
  unfold peekBits
  split
  · subst n; simp [Reader.top, Nat.mod_one]
  · rfl

theorem Reader.top_lt (n : Nat) (r : Reader) : r.top n < 2 ^ n := by
  unfold Reader.top
  split <;> exact Nat.mod_lt _ (Nat.two_pow_pos n)

/-- All that GetBits does: the value PeekBits gives, and the bits consumed (41_bitreader.md R154). -/
theorem getBits_eq (m : Source) (n : Nat) (r : Reader) : getBits m n r = ((refill m n r).top n, (refill m n r).consume n) := by
  simp only [getBits, peekBits_fst, peekBits_snd]

theorem getBits_lt (m : Source) (n : Nat) (r : Reader) : (getBits m n r).1 < 2 ^ n := by
  rw [getBits_eq]; exact Reader.top_lt n _

@[simp] theorem getBits_zero (m : Source) (r : Reader) : (getBits m 0 r).1 = 0 := by
  have := getBits_lt m 0 r
  omega

@[simp] theorem getBits_consumed (m : Source) (n : Nat) (r : Reader) : (getBits m n r).2.consumed = r.consumed + BitVec.ofNat 32 n := by
  rw [getBits_eq]; simp

@[simp] theorem getBits_lastrst (m : Source) (n : Nat) (r : Reader) : (getBits m n r).2.lastrst = r.lastrst := by
  rw [getBits_eq]; simp

@[simp] theorem getBits_lastrstValid (m : Source) (n : Nat) (r : Reader) : (getBits m n r).2.lastrstValid = r.lastrstValid := by
  rw [getBits_eq]; simp

theorem Reader.Buffered.consume {r : Reader} (h : r.Buffered) (n : Nat) : (r.consume n).Buffered := by
  refine ⟨by simp; have := h.1; omega, ?_⟩
  simp only [Reader.consume_bracc, Reader.consume_bitcnt, BitVec.toNat_ofNat]
  exact lt_of_le_of_lt (Nat.mod_le _ _) (Nat.mod_lt _ (Nat.two_pow_pos _))

/-- GetBits(n) for n ≤ 16 keeps the buffer's invariants (41_bitreader.md R150). -/
theorem getBits_buffered (m : Source) (n : Nat) (r : Reader) (hn : n ≤ 16) (h : r.Buffered) : (getBits m n r).2.Buffered := by
  rw [getBits_eq]; exact (refill_buffered m n r hn h).consume n

/-! ### Halt and marker fields -/

/-- The two facts about the halt and marker fields that every fetch keeps. -/
def Reader.FlagsLegal (r : Reader) : Prop := r.MarkerLegal ∧ r.HaltCaused

theorem Reader.FlagsLegal.fetch {r : Reader} (h : r.FlagsLegal) (hh : r.halt = false) (m : Source) : (fetchDataByte m r).2.FlagsLegal := by
  obtain ⟨h1, h2, h3⟩ := h
  have he : r.eos = false ∧ r.markerValid = false := by
    constructor <;> by_contra hc <;> simp [hh] at h2 <;> simp_all
  rcases fetchDataByte_cases m r with ⟨b, p, e⟩ | ⟨p, e⟩ | ⟨p, x, h0, hf, e⟩ <;> simp only [e]
  · exact ⟨h1, h2, h3⟩
  · refine ⟨?_, ?_, ?_⟩ <;> simp_all [Reader.MarkerLegal]
  · refine ⟨?_, ?_, ?_⟩ <;> simp_all [Reader.MarkerLegal]

theorem refillLoop_flagsLegal (m : Source) (n fuel : Nat) (r : Reader) (h : r.FlagsLegal) : (refillLoop m n fuel r).FlagsLegal := by
  induction fuel generalizing r with
  | zero => exact h
  | succ fuel ih =>
    simp only [refillLoop]
    split
    · rename_i hc
      have hf := h.fetch hc.2 m
      split <;> rename_i heq <;> simp only [heq] at hf <;> exact ih _ hf
    · exact h

/-- GetBits keeps the halt and marker fields' meaning (10_state.md R41). -/
theorem getBits_flagsLegal (m : Source) (n : Nat) (r : Reader) (h : r.FlagsLegal) : (getBits m n r).2.FlagsLegal := by
  rw [getBits_eq]; exact refillLoop_flagsLegal m n n r h

theorem Reader.clear_flagsLegal (r : Reader) : r.clear.FlagsLegal := by
  refine ⟨?_, ?_, ?_⟩ <;> simp [Reader.MarkerLegal]

end Sys2Proof.Machine
end

