-- ==== Sys2Proof/Laws/Huffman.lean ====
section
/-! SUPPORT. What Decode, receive+extend and the table definitions can do (42_huffman.md), each said once. -/

namespace Sys2Proof.Machine

/-- A property of the bit reader that Refill and GetBits of at most 16 bits keep; every stream operation then keeps it. -/
structure Kept (m : Source) (P : Reader → Prop) : Prop where
  refill : ∀ n ≤ 16, ∀ r, P r → P (Machine.refill m n r)
  getBits : ∀ n ≤ 16, ∀ r, P r → P (Machine.getBits m n r).2

/-- The buffer's invariants are kept (41_bitreader.md R150). -/
theorem kept_buffered (m : Source) : Kept m Reader.Buffered :=
  ⟨fun n hn r h => refill_buffered m n r hn h, fun n hn r h => getBits_buffered m n r hn h⟩

/-- The meaning of the halt and marker fields is kept (10_state.md R41). -/
theorem kept_flagsLegal (m : Source) : Kept m Reader.FlagsLegal :=
  ⟨fun n _ r h => refillLoop_flagsLegal m n n r h, fun n _ r h => getBits_flagsLegal m n r h⟩

/-- LASTRST and LASTRST_VALID are kept (10_state.md R63). -/
theorem kept_lastrst (m : Source) (x : BitVec 3) (v : Bool) : Kept m fun r => r.lastrst = x ∧ r.lastrstValid = v :=
  ⟨fun n _ r h => by simpa using h, fun n _ r h => by simpa using h⟩

/-! ### Decode -/

theorem slowDecode_kept {m : Source} {P : Reader → Prop} (hP : Kept m P) (sl : HuffSlot) (left code : Nat) (r : Reader) (h : P r) :
    P (slowDecode m sl left code r).2 := by
  induction left generalizing code r with
  | zero => simp only [slowDecode]; split <;> exact h
  | succ left ih =>
    simp only [slowDecode]
    split
    · exact h
    · exact ih _ _ (hP.getBits 1 (by norm_num) r h)

theorem fastlen_le (sl : HuffSlot) (p : Nat) : (entry sl.fastlen p).toNat ≤ 16 := by
  have := (entry sl.fastlen p).isLt
  omega

/-- Decode keeps whatever Refill and GetBits keep. -/
theorem slotDecode_kept {m : Source} {P : Reader → Prop} (hP : Kept m P) (sl : HuffSlot) (r : Reader) (h : P r) :
    P (slotDecode m sl r).2 := by
  have h8 : P (peekBits m 8 r).2 := by rw [peekBits_snd]; exact hP.refill 8 (by norm_num) r h
  simp only [slotDecode]
  split
  · split
    · exact hP.getBits _ (fastlen_le sl _) _ h8
    · exact slowDecode_kept hP sl 15 _ _ (hP.getBits 1 (by norm_num) _ h8)
  · exact h

theorem slowDecode_len (m : Source) (sl : HuffSlot) (left code : Nat) (r : Reader) (hl : left ≤ 15) :
    16 - left ≤ (slowDecode m sl left code r).1.len ∧ (slowDecode m sl left code r).1.len ≤ 16 := by
  induction left generalizing code r with
  | zero => simp only [slowDecode]; split <;> simp
  | succ left ih =>
    simp only [slowDecode]
    split
    · simp only; omega
    · have := ih (2 * code + (getBits m 1 r).1) (getBits m 1 r).2 (by omega)
      omega

theorem slowDecode_consumed (m : Source) (sl : HuffSlot) (left code : Nat) (r : Reader) (hl : left ≤ 15) :
    (slowDecode m sl left code r).2.consumed =
      r.consumed + BitVec.ofNat 32 ((slowDecode m sl left code r).1.len - (16 - left)) := by
  induction left generalizing code r with
  | zero => simp only [slowDecode]; split <;> simp
  | succ left ih =>
    simp only [slowDecode]
    split
    · simp only
      rw [show 15 - left - (16 - (left + 1)) = 0 from by omega]
      simp
    · rw [ih _ _ (by omega), getBits_consumed, BitVec.add_assoc, ← BitVec.ofNat_add]
      have := slowDecode_len m sl left (2 * code + (getBits m 1 r).1) (getBits m 1 r).2 (by omega)
      congr 2
      omega

/-- Decode consumes exactly the length it returns (42_huffman.md R190). -/
theorem slotDecode_consumed (m : Source) (sl : HuffSlot) (r : Reader) :
    (slotDecode m sl r).2.consumed = r.consumed + BitVec.ofNat 32 (slotDecode m sl r).1.len := by
  simp only [slotDecode]
  split
  · split
    · simp [peekBits_snd]
    · rw [slowDecode_consumed m sl 15 _ _ (by norm_num), getBits_consumed, peekBits_snd, refill_consumed, BitVec.add_assoc,
        ← BitVec.ofNat_add]
      have := slowDecode_len m sl 15 (getBits m 1 (refill m 8 r)).1 (getBits m 1 (refill m 8 r)).2 (by norm_num)
      congr 2
      omega
  · simp

/-- Decode's length is at most 16 (42_huffman.md R195). -/
theorem slotDecode_len_le (m : Source) (sl : HuffSlot) (r : Reader) : (slotDecode m sl r).1.len ≤ 16 := by
  simp only [slotDecode]
  split
  · split
    · exact fastlen_le sl _
    · exact (slowDecode_len m sl 15 _ _ (by norm_num)).2
  · simp

/-! ### Receive and extend -/

@[simp] theorem receiveExtend_snd (m : Source) (n : Nat) (r : Reader) : (receiveExtend m n r).2 = (getBits m n r).2 := rfl

@[simp] theorem receiveExtend_fst (m : Source) (n : Nat) (r : Reader) : (receiveExtend m n r).1 = extend (getBits m n r).1 n := rfl

/-! ### Table definitions -/

/-- A Huffman table definition moves SRCPOS and nothing else of the reader (42_huffman.md R185). -/
theorem parseHuffTable_frame (m : Source) (r : Reader) :
    (parseHuffTable m r).2 = { r with srcpos := (parseHuffTable m r).2.srcpos } := by
  have two : ∀ (a b : Reader), a = { r with srcpos := a.srcpos } → b = { a with srcpos := b.srcpos } → b = { r with srcpos := b.srcpos } := by
    intro a b ha hb; rw [hb, ha]
  unfold parseHuffTable
  have h1 := srcRead_frame m r
  rcases hs : srcRead m r with ⟨_ | t, r1⟩ <;> simp only [hs] at h1 ⊢
  · exact h1
  · split
    · exact h1
    · have h2 := two _ _ h1 (readBytes_frame m 16 r1)
      rcases hb : readBytes m 16 r1 with ⟨_ | cs, r2⟩ <;> simp only [hb] at h2 ⊢
      · exact h2
      · split
        · exact h2
        · have h3 := two _ _ h2 (readBytes_frame m (firstIndex (padBytes 16 cs) 16) r2)
          rcases hv : readBytes m (firstIndex (padBytes 16 cs) 16) r2 with ⟨_ | vs, r3⟩ <;> simp only [hv] at h3 ⊢
          · exact h3
          · split <;> exact h3

/-- A quantisation table definition moves SRCPOS and nothing else of the reader (42_huffman.md R200). -/
theorem parseQuantTable_frame (m : Source) (r : Reader) :
    (parseQuantTable m r).2 = { r with srcpos := (parseQuantTable m r).2.srcpos } := by
  have two : ∀ (a b : Reader), a = { r with srcpos := a.srcpos } → b = { a with srcpos := b.srcpos } → b = { r with srcpos := b.srcpos } := by
    intro a b ha hb; rw [hb, ha]
  unfold parseQuantTable
  have h1 := srcRead_frame m r
  rcases hs : srcRead m r with ⟨_ | t, r1⟩ <;> simp only [hs] at h1 ⊢
  · exact h1
  · split
    · exact h1
    · have h2 := two _ _ h1 (readBytes_frame m (if t.getLsbD 4 then 128 else 64) r1)
      rcases hb : readBytes m (if t.getLsbD 4 then 128 else 64) r1 with ⟨_ | cs, r2⟩ <;> simp only [hb] at h2 ⊢ <;> exact h2

/-- What a successful Huffman table definition builds: a slot from counts that passed every check (42_huffman.md R185). -/
theorem parseHuffTable_ok {m : Source} {r r' : Reader} {i : Fin 8} {sl : HuffSlot} (h : parseHuffTable m r = (.ok (i, sl), r')) :
    ∃ (c : Vector Byte 16) (vs : List Byte), sl = buildSlot c (padBytes 256 vs) ∧ codeLengthsOk c = true ∧ firstIndex c 16 ≤ 256 ∧
      vs.length = firstIndex c 16 := by
  have len : ∀ (n : Nat) (q q' : Reader) (bs : List Byte), readBytes m n q = (some bs, q') → bs.length = n := by
    intro n
    induction n with
    | zero => intro q q' bs h; simp [readBytes] at h; simp [← h.1]
    | succ n ih =>
      intro q q' bs h
      rcases srcRead_cases m q with ⟨-, he⟩ | ⟨-, he⟩
      · simp [readBytes, he] at h
      · simp only [readBytes, he] at h
        split at h
        · simp at h
        · rename_i ys q2 heq
          obtain ⟨h1, -⟩ := Prod.mk.inj h
          have := ih _ _ _ heq
          simp only [Option.some.injEq] at h1
          rw [← h1]; simp [this]
  unfold parseHuffTable at h
  split at h
  · simp at h
  · split at h
    · simp at h
    · split at h
      · simp at h
      · rename_i cs r2 hc
        simp only at h
        split at h
        · simp at h
        · rename_i hn
          split at h
          · simp at h
          · rename_i vs r3 hv
            split at h
            · rename_i hok
              obtain ⟨h1, -⟩ := Prod.mk.inj h
              simp only [Except.ok.injEq, Prod.mk.injEq] at h1
              exact ⟨padBytes 16 cs, vs, h1.2.symm, hok, by omega, len _ _ _ _ hv⟩
            · simp at h

/-- Bytes past the end of the list are 0. -/
theorem entry_padBytes_of_length_le (n : Nat) (bs : List Byte) (i : Nat) (h : bs.length ≤ i) : entry (padBytes n bs) i = 0#8 := by
  by_cases hi : i < n
  · simp [padBytes, entry_tabulate _ _ hi, List.getD, List.getElem?_eq_none h]
  · exact entry_of_ge _ (by omega)

/-- What HT_DEFINE builds meets the slot invariant (10_state.md R57). -/
theorem buildSlot_consistent (c : Vector Byte 16) (vs : List Byte) (hok : codeLengthsOk c = true) (hn : firstIndex c 16 ≤ 256)
    (hl : vs.length = firstIndex c 16) : (buildSlot c (padBytes 256 vs)).Consistent := by
  unfold HuffSlot.Consistent
  rw [if_pos (show (buildSlot c (padBytes 256 vs)).valid = true from rfl)]
  exact ⟨rfl, hok, hn, fun i hi => entry_padBytes_of_length_le _ _ _ (by rw [hl]; exact hi)⟩

/-- An undefined slot meets it (10_state.md R57). -/
theorem HuffSlot.reset_consistent : HuffSlot.reset.Consistent := by
  simp [HuffSlot.Consistent, HuffSlot.reset]

end Sys2Proof.Machine
end

