-- ==== Sys2Proof/Laws/Entropy.lean ====
section
/-! SUPPORT. What the loops of the block commands and the restart skip can do (43_entropy.md): every property of the bit reader that
Refill and GetBits keep, each of them keeps; and which of the working registers each leaves alone. -/

namespace Sys2Proof.Machine

/-! ### Stream operations within a block -/

@[simp] theorem BlockRun.getBits_fst (m : Source) (n : Nat) (b : BlockRun) : (b.getBits m n).1 = (Machine.getBits m n b.reader).1 := rfl
@[simp] theorem BlockRun.getBits_reader (m : Source) (n : Nat) (b : BlockRun) :
    (b.getBits m n).2.reader = (Machine.getBits m n b.reader).2 := rfl
@[simp] theorem BlockRun.getBits_errors (m : Source) (n : Nat) (b : BlockRun) : (b.getBits m n).2.errors = b.errors := rfl
@[simp] theorem BlockRun.getBits_t (m : Source) (n : Nat) (b : BlockRun) : (b.getBits m n).2.t = b.t := rfl
@[simp] theorem BlockRun.getBits_eobrun (m : Source) (n : Nat) (b : BlockRun) : (b.getBits m n).2.eobrun = b.eobrun := rfl

@[simp] theorem BlockRun.receiveExtend_fst (m : Source) (n : Nat) (b : BlockRun) :
    (b.receiveExtend m n).1 = extend (Machine.getBits m n b.reader).1 n := rfl
@[simp] theorem BlockRun.receiveExtend_reader (m : Source) (n : Nat) (b : BlockRun) :
    (b.receiveExtend m n).2.reader = (Machine.getBits m n b.reader).2 := rfl
@[simp] theorem BlockRun.receiveExtend_errors (m : Source) (n : Nat) (b : BlockRun) : (b.receiveExtend m n).2.errors = b.errors := rfl
@[simp] theorem BlockRun.receiveExtend_t (m : Source) (n : Nat) (b : BlockRun) : (b.receiveExtend m n).2.t = b.t := rfl
@[simp] theorem BlockRun.receiveExtend_eobrun (m : Source) (n : Nat) (b : BlockRun) : (b.receiveExtend m n).2.eobrun = b.eobrun := rfl

@[simp] theorem BlockRun.decode_fst (m : Source) (sl : HuffSlot) (b : BlockRun) :
    (b.decode m sl).1 = (slotDecode m sl b.reader).1.sym.toNat := rfl
@[simp] theorem BlockRun.decode_reader (m : Source) (sl : HuffSlot) (b : BlockRun) :
    (b.decode m sl).2.reader = (slotDecode m sl b.reader).2 := rfl
@[simp] theorem BlockRun.decode_errors (m : Source) (sl : HuffSlot) (b : BlockRun) :
    (b.decode m sl).2.errors = b.errors.raiseOpt (slotDecode m sl b.reader).1.bad := rfl
@[simp] theorem BlockRun.decode_t (m : Source) (sl : HuffSlot) (b : BlockRun) : (b.decode m sl).2.t = b.t := rfl
@[simp] theorem BlockRun.decode_eobrun (m : Source) (sl : HuffSlot) (b : BlockRun) : (b.decode m sl).2.eobrun = b.eobrun := rfl

/-- The symbol of a decode is a byte: a run and a size of four bits each. -/
theorem BlockRun.decode_lt (m : Source) (sl : HuffSlot) (b : BlockRun) : (b.decode m sl).1 < 256 := (slotDecode m sl b.reader).1.sym.isLt

/-! ### The reader through every loop -/

variable {m : Source} {P : Reader → Prop}

theorem BlockRun.decode_kept (hP : Kept m P) (sl : HuffSlot) (b : BlockRun) (h : P b.reader) : P (b.decode m sl).2.reader :=
  slotDecode_kept hP sl b.reader h

/-- DcDiff keeps the reader's properties and leaves the target block and EOBRUN alone (43_entropy.md R223). -/
theorem dcDiff_kept (hP : Kept m P) (sl : HuffSlot) (b : BlockRun) (h : P b.reader) : P (dcDiff m sl b).2.reader := by
  have hd := BlockRun.decode_kept hP sl b h
  simp only [dcDiff]
  split
  · exact hd
  · split
    · exact hP.getBits _ (by omega) _ hd
    · exact hP.getBits _ (by omega) _ hd

@[simp] theorem dcDiff_t (m : Source) (sl : HuffSlot) (b : BlockRun) : (dcDiff m sl b).2.t = b.t := by
  simp only [dcDiff]; split
  · rfl
  · split <;> rfl

@[simp] theorem dcDiff_eobrun (m : Source) (sl : HuffSlot) (b : BlockRun) : (dcDiff m sl b).2.eobrun = b.eobrun := by
  simp only [dcDiff]; split
  · rfl
  · split <;> rfl

/-- The run/size loop keeps the reader's properties if the end-of-band action does (43_entropy.md R226, R229). -/
theorem runLoop_kept (hP : Kept m P) (sl : HuffSlot) (hi al : Nat) (eob : Nat → BlockRun → BlockRun)
    (he : ∀ r b, r < 16 → P b.reader → P (eob r b).reader) (fuel k : Nat) (b : BlockRun) (h : P b.reader) :
    P (runLoop m sl hi al eob fuel k b).reader := by
  induction fuel generalizing k b with
  | zero => exact h
  | succ fuel ih =>
    simp only [runLoop]
    split
    · exact h
    · have hd := BlockRun.decode_kept hP sl b h
      have hb := BlockRun.decode_lt m sl b
      split
      · split
        · exact ih _ _ hd
        · exact he _ _ (by omega) hd
      · have hv : P ((b.decode m sl).2.receiveExtend m ((b.decode m sl).1 % 16)).2.reader := hP.getBits _ (by omega) _ hd
        split
        · exact hv
        · exact ih _ _ hv

/-- Only the end-of-band action writes EOBRUN in the run/size loop. -/
theorem runLoop_eobrun (m : Source) (sl : HuffSlot) (hi al : Nat) (eob : Nat → BlockRun → BlockRun) (Q : BitVec 16 → Prop)
    (he : ∀ r b, r < 15 → Q b.eobrun → Q (eob r b).eobrun) (fuel k : Nat) (b : BlockRun) (h : Q b.eobrun) :
    Q (runLoop m sl hi al eob fuel k b).eobrun := by
  induction fuel generalizing k b with
  | zero => exact h
  | succ fuel ih =>
    simp only [runLoop]
    split
    · exact h
    · split
      · have hb := BlockRun.decode_lt m sl b
        split
        · exact ih _ _ h
        · exact he _ _ (by omega) h
      · split
        · exact h
        · exact ih _ _ h

theorem acFirstEob_kept (hP : Kept m P) (r : Nat) (b : BlockRun) (hr : r ≤ 16) (h : P b.reader) : P (acFirstEob m r b).reader :=
  hP.getBits r hr _ h

theorem correct_kept (hP : Kept m P) (p1 : Int) (k : Nat) (b : BlockRun) (h : P b.reader) : P (correct m p1 k b).reader := by
  have := hP.getBits 1 (by norm_num) b.reader h
  simp only [correct]
  split <;> exact this

@[simp] theorem correct_eobrun (m : Source) (p1 : Int) (k : Nat) (b : BlockRun) : (correct m p1 k b).eobrun = b.eobrun := by
  simp only [correct]; split <;> rfl

@[simp] theorem correct_errors (m : Source) (p1 : Int) (k : Nat) (b : BlockRun) : (correct m p1 k b).errors = b.errors := by
  simp only [correct]; split <;> rfl

theorem passLoop_kept (hP : Kept m P) (p1 : Int) (se fuel k r : Nat) (b : BlockRun) (h : P b.reader) :
    P (passLoop m p1 se fuel k r b).2.reader := by
  induction fuel generalizing k r b with
  | zero => exact h
  | succ fuel ih =>
    simp only [passLoop]
    split
    · exact h
    · split
      · exact ih _ _ _ (correct_kept hP p1 k b h)
      · split
        · exact h
        · exact ih _ _ _ h

@[simp] theorem passLoop_eobrun (m : Source) (p1 : Int) (se fuel k r : Nat) (b : BlockRun) :
    (passLoop m p1 se fuel k r b).2.eobrun = b.eobrun := by
  induction fuel generalizing k r b with
  | zero => rfl
  | succ fuel ih =>
    simp only [passLoop]
    split
    · rfl
    · split
      · rw [ih, correct_eobrun]
      · split
        · rfl
        · exact ih _ _ _

theorem tailLoop_kept (hP : Kept m P) (p1 : Int) (se fuel k : Nat) (b : BlockRun) (h : P b.reader) :
    P (tailLoop m p1 se fuel k b).reader := by
  induction fuel generalizing k b with
  | zero => exact h
  | succ fuel ih =>
    simp only [tailLoop]
    split
    · exact h
    · apply ih
      split
      · exact correct_kept hP p1 k b h
      · exact h

@[simp] theorem tailLoop_eobrun (m : Source) (p1 : Int) (se fuel k : Nat) (b : BlockRun) :
    (tailLoop m p1 se fuel k b).eobrun = b.eobrun := by
  induction fuel generalizing k b with
  | zero => rfl
  | succ fuel ih =>
    simp only [tailLoop]
    split
    · rfl
    · rw [ih]; split
      · simp
      · rfl

theorem newValue_kept (hP : Kept m P) (p1 : Int) (size : Nat) (b : BlockRun) (h : P b.reader) : P (newValue m p1 size b).2.reader := by
  simp only [newValue]; split
  · exact hP.getBits 1 (by norm_num) _ h
  · exact h

@[simp] theorem newValue_eobrun (m : Source) (p1 : Int) (size : Nat) (b : BlockRun) : (newValue m p1 size b).2.eobrun = b.eobrun := by
  simp only [newValue]; split <;> rfl

@[simp] theorem placeNew_reader (se k : Nat) (new : Option Int) (b : BlockRun) : (placeNew se k new b).reader = b.reader := by
  cases new with
  | none => rfl
  | some v => simp only [placeNew]; split <;> rfl

@[simp] theorem placeNew_eobrun (se k : Nat) (new : Option Int) (b : BlockRun) : (placeNew se k new b).eobrun = b.eobrun := by
  cases new with
  | none => rfl
  | some v => simp only [placeNew]; split <;> rfl

theorem refineLoop_kept (hP : Kept m P) (ac : HuffSlot) (p1 : Int) (se fuel k : Nat) (b : BlockRun) (h : P b.reader) :
    P (refineLoop m ac p1 se fuel k b).run.reader := by
  induction fuel generalizing k b with
  | zero => exact h
  | succ fuel ih =>
    simp only [refineLoop]
    split
    · exact h
    · have hd := BlockRun.decode_kept hP ac b h
      have hb := BlockRun.decode_lt m ac b
      split
      · exact hP.getBits _ (by omega) _ hd
      · split
        · exact hd
        · apply ih
          rw [placeNew_reader]
          exact passLoop_kept hP _ _ _ _ _ _ (newValue_kept hP _ _ _ hd)

theorem refineTail_kept (hP : Kept m P) (p1 : Int) (se k : Nat) (b : BlockRun) (h : P b.reader) :
    P (refineTail m p1 se k b).reader := by
  simp only [refineTail]; split
  · exact tailLoop_kept hP p1 se 64 k b h
  · exact h

/-- Every block command keeps whatever Refill and GetBits keep. -/
theorem baselineRun_kept (hP : Kept m P) (dc ac : HuffSlot) (p : Coef) (b : BlockRun) (h : P b.reader) :
    P (baselineRun m dc ac p b).2.reader := by
  simp only [baselineRun]
  exact runLoop_kept hP ac 63 0 baselineEob (fun _ _ _ h => h) 64 1 _ (dcDiff_kept hP dc _ h)

theorem dcFirstRun_kept (hP : Kept m P) (dc : HuffSlot) (al : Nat) (p : Coef) (b : BlockRun) (h : P b.reader) :
    P (dcFirstRun m dc al p b).2.reader := dcDiff_kept hP dc b h

theorem dcRefineRun_kept (hP : Kept m P) (al : Nat) (b : BlockRun) (h : P b.reader) : P (dcRefineRun m al b).reader := by
  have := hP.getBits 1 (by norm_num) b.reader h
  simp only [dcRefineRun]
  split <;> exact this

theorem acFirstRun_kept (hP : Kept m P) (ac : HuffSlot) (cfg : ScanCfg) (b : BlockRun) (h : P b.reader) :
    P (acFirstRun m ac cfg b).reader := by
  simp only [acFirstRun]; split
  · exact h
  · exact runLoop_kept hP ac _ _ _ (fun r b hr hb => acFirstEob_kept hP r b (by omega) hb) 64 _ b h

theorem acRefineRun_kept (hP : Kept m P) (ac : HuffSlot) (cfg : ScanCfg) (b : BlockRun) (h : P b.reader) :
    P (acRefineRun m ac cfg b).reader := by
  simp only [acRefineRun]
  have key : ∀ e : RefineEnd, P e.run.reader → P (if e.stopped = true then e.run
      else refineTail m (2 ^ cfg.al.toNat) cfg.se.toNat e.k e.run).reader := by
    intro e he; split
    · exact he
    · exact refineTail_kept hP _ _ _ _ he
  split
  · exact key _ (refineLoop_kept hP ac _ _ 64 _ b h)
  · exact key _ h

/-! ### The restart skip -/

/-- The skip to a marker halts (43_entropy.md R225), keeping the buffer and the halt and marker fields' meaning. -/
theorem skipLoop_flagsLegal (m : Source) (fuel : Nat) (r : Reader) (h : r.FlagsLegal) : (skipLoop m fuel r).FlagsLegal := by
  induction fuel generalizing r with
  | zero => exact h
  | succ fuel ih =>
    simp only [skipLoop]; split
    · exact h
    · rename_i hh
      exact ih _ (h.fetch (by simpa using hh) m)

theorem skipLoop_buffer (m : Source) (fuel : Nat) (r : Reader) :
    (skipLoop m fuel r).bracc = r.bracc ∧ (skipLoop m fuel r).bitcnt = r.bitcnt ∧ (skipLoop m fuel r).consumed = r.consumed ∧
      (skipLoop m fuel r).lastrst = r.lastrst ∧ (skipLoop m fuel r).lastrstValid = r.lastrstValid := by
  induction fuel generalizing r with
  | zero => exact ⟨rfl, rfl, rfl, rfl, rfl⟩
  | succ fuel ih =>
    simp only [skipLoop]; split
    · exact ⟨rfl, rfl, rfl, rfl, rfl⟩
    · simpa using ih (fetchDataByte m r).2

end Sys2Proof.Machine
end

