-- ==== Sys2Proof/Laws/Operands.lean ====
section
/-! SUPPORT. What the operand forms, the error record and the target block operations do (30_encoding.md R115, 43_entropy.md R220, R221,
60_exceptions.md R311): one lemma per shared operation. -/

namespace Sys2Proof.Machine

/-- A passed operand check runs the command, a failed one raises ILLEGAL. -/
@[simp] theorem guardOperands_true (s run : State) : guardOperands true s run = run := rfl
@[simp] theorem guardOperands_false (s run : State) : guardOperands false s run = s.raise .illegal := rfl

/-- Slot number 4·class + id (10_state.md R55). -/
@[simp] theorem slotIndex_dc (i : BitVec 2) : (slotIndex .dc i).val = i.toNat := rfl
@[simp] theorem slotIndex_ac (i : BitVec 2) : (slotIndex .ac i).val = 4 + i.toNat := rfl

/-- The bitmap write-back bit by bit (43_entropy.md R221). -/
theorem nonzeroBits_getLsbD (t : Block) (lo hi k : Nat) (hk : k < 64) :
    (nonzeroBits t lo hi).getLsbD k = (decide (lo ≤ k) && decide (k ≤ hi) && decide (t[zz k] ≠ 0#16)) := by
  simp [nonzeroBits, hk]

/-- The scratch block at a zigzag position (43_entropy.md R220). -/
theorem seedScratch_zz (nz : BitVec 64) (k : Nat) (hk : k < 64) : (seedScratch nz)[zz k] = if nz.getLsbD k then discardSentinel else 0#16 := by
  have h := zzInv_zz ⟨k, hk⟩
  simp only at h
  simp [seedScratch, h]

@[simp] theorem State.storeTarget_store (t : Block) (s : State) : s.storeTarget .store t = { s with coef := t } := rfl
@[simp] theorem State.storeTarget_discard (t : Block) (s : State) : s.storeTarget .discard t = { s with scratch := t } := rfl

/-- The first code recorded stays (60_exceptions.md R311). -/
theorem Errors.raise_errcode_of_ne_zero (e : ErrorCode) (x : Errors) (h : x.errcode ≠ 0#4) : (x.raise e).errcode = x.errcode := by
  simp [Errors.raise, h]

/-- A first error records its code (60_exceptions.md R311). -/
theorem Errors.raise_errcode_of_zero (e : ErrorCode) (x : Errors) (h : x.errcode = 0#4) : (x.raise e).errcode = e.code := by
  simp [Errors.raise, h]

/-- The sticky bits after an error (60_exceptions.md R311). -/
theorem Errors.raise_sticky_getLsbD (e : ErrorCode) (x : Errors) (j : Nat) (hj : j < 7) :
    (x.raise e).sticky.getLsbD j = (x.sticky.getLsbD j || decide (j + 8 = e.statusBit)) := by
  cases e <;> simp only [Errors.raise, ErrorCode.statusBit, BitVec.getLsbD_or] <;> congr 1 <;>
    (revert j; decide)

end Sys2Proof.Machine
end

