-- ==== Sys2Proof/Laws/PerInstr.lean ====
section
/-! SUPPORT. Statements made per command (LAWS.json), with one lemma per constructor of Instr. -/

namespace Sys2Proof.Laws.EncodeReserved

/-- The word of a command has its opcode in CMD[7:0] (30_encoding.md R111) and a 0 in every bit its format marks 0 (R112, R114),
whether or not its operands pass the value checks. -/
def Statement (i : Instr) : Prop := (encode i).extractLsb' 0 8 = i.opcode ∧ encode i &&& i.format.reserved = 0#32

theorem nop : Statement .nop := by unfold Statement; decide

theorem softReset : Statement .softReset := by unfold Statement; decide

theorem coefClear : Statement .coefClear := by unfold Statement; decide

theorem brReset : Statement .brReset := by unfold Statement; decide

theorem brGetbits (n : BitVec 5) : Statement (.brGetbits n) := by
  unfold Statement
  revert n
  decide +kernel

theorem brPeekbits (n : BitVec 5) : Statement (.brPeekbits n) := by
  unfold Statement
  revert n
  decide +kernel

theorem htDefine : Statement .htDefine := by unfold Statement; decide

theorem htDecode (k : HuffClass) (i : BitVec 2) : Statement (.htDecode k i) := by
  unfold Statement
  cases k <;> revert i <;> decide +kernel

theorem htReceiveExtend (n : BitVec 5) : Statement (.htReceiveExtend n) := by
  unfold Statement
  revert n
  decide +kernel

theorem qtDefine : Statement .qtDefine := by unfold Statement; decide

theorem edScanStart : Statement .edScanStart := by unfold Statement; decide

theorem edRestart : Statement .edRestart := by unfold Statement; decide

theorem edBaseline (c : BitVec 2) (td : BitVec 2) (ta : BitVec 2) (d : Mode) : Statement (.edBaseline c td ta d) := by
  unfold Statement
  cases d <;> revert c td ta <;> decide +kernel

theorem edDcFirst (c : BitVec 2) (td : BitVec 2) (ta : BitVec 2) (d : Mode) : Statement (.edDcFirst c td ta d) := by
  unfold Statement
  cases d <;> revert c td ta <;> decide +kernel

theorem edDcRefine (c : BitVec 2) (td : BitVec 2) (ta : BitVec 2) (d : Mode) : Statement (.edDcRefine c td ta d) := by
  unfold Statement
  cases d <;> revert c td ta <;> decide +kernel

theorem edAcFirst (c : BitVec 2) (td : BitVec 2) (ta : BitVec 2) (d : Mode) : Statement (.edAcFirst c td ta d) := by
  unfold Statement
  cases d <;> revert c td ta <;> decide +kernel

theorem edAcRefine (c : BitVec 2) (td : BitVec 2) (ta : BitVec 2) (d : Mode) : Statement (.edAcRefine c td ta d) := by
  unfold Statement
  cases d <;> revert c td ta <;> decide +kernel

theorem idct (q : BitVec 2) : Statement (.idct q) := by
  unfold Statement
  revert q
  decide +kernel

theorem ccYcc : Statement .ccYcc := by unfold Statement; decide

theorem ccGray : Statement .ccGray := by unfold Statement; decide

theorem upMap (c : BitVec 2) (px : BitVec 5) (py : BitVec 5) : Statement (.upMap c px py) := by
  unfold Statement
  revert c px py
  decide +kernel

end Sys2Proof.Laws.EncodeReserved
end

