-- ==== Sys2Proof/Machine/Assembler.lean ====
section
/-! DEFINITION. The assembler syntax of the commands and the host-side pseudo-instructions (30_encoding.md R123, R124). -/

namespace Sys2Proof.Machine

/-- Operands written in decimal, separated by commas. -/
def asmOperands (ops : List Nat) : String := ", ".intercalate (ops.map toString)

/-- A format-E form with its mode suffix (30_encoding.md R123). -/
def asmBlock (name : String) (ops : List Nat) : Mode → String
  | .store => name ++ asmOperands ops
  | .discard => name ++ asmOperands ops ++ ", discard"

/-- The assembler text of a command (30_encoding.md R123); none where an unused field is not 0, which the syntax cannot write. -/
def assemblerText : Instr → Option String
  | .nop => some "nop"
  | .softReset => some "soft_reset"
  | .coefClear => some "coef_clear"
  | .brReset => some "br_reset"
  | .brGetbits n => some ("br_getbits " ++ asmOperands [n.toNat])
  | .brPeekbits n => some ("br_peekbits " ++ asmOperands [n.toNat])
  | .htDefine => some "ht_define"
  | .htDecode .dc i => some ("ht_decode dc, " ++ asmOperands [i.toNat])
  | .htDecode .ac i => some ("ht_decode ac, " ++ asmOperands [i.toNat])
  | .htReceiveExtend n => some ("ht_receive_extend " ++ asmOperands [n.toNat])
  | .qtDefine => some "qt_define"
  | .edScanStart => some "ed_scan_start"
  | .edRestart => some "ed_restart"
  | .edBaseline c td ta d => some (asmBlock "ed_baseline " [c.toNat, td.toNat, ta.toNat] d)
  | .edDcFirst c td ta d => if ta = 0#2 then some (asmBlock "ed_dc_first " [c.toNat, td.toNat] d) else none
  | .edDcRefine c td ta d => if td = 0#2 ∧ ta = 0#2 then some (asmBlock "ed_dc_refine " [c.toNat] d) else none
  | .edAcFirst c td ta d => if td = 0#2 then some (asmBlock "ed_ac_first " [c.toNat, ta.toNat] d) else none
  | .edAcRefine c td ta d => if td = 0#2 then some (asmBlock "ed_ac_refine " [c.toNat, ta.toNat] d) else none
  | .idct q => some ("idct " ++ asmOperands [q.toNat])
  | .ccYcc => some "cc_ycc"
  | .ccGray => some "cc_gray"
  | .upMap c px py => some ("up_map " ++ asmOperands [c.toNat, px.toNat, py.toNat])

/-- The pseudo-instructions of 30_encoding.md R124. -/
inductive Pseudo where
  | seek (a : Word)
  | clrstat
  | scan (ss se : BitVec 6) (ah al : BitVec 4)
  | setnz (m : BitVec 64)
  | ycc (y cb cr : Byte)
  | getbit
deriving DecidableEq, Repr

/-- `wr NAME, value` as a host action. -/
def wr (off : BitVec 16) (v : Word) : HostEvent := .write off 4 v

/-- A command as a host action. -/
def cmd (i : Instr) : HostEvent := wr cmdOffset (encode i)

/-- The expansions of 30_encoding.md R124. -/
def Pseudo.expand : Pseudo → List HostEvent
  | .seek a => [wr 0x0010#16 a, cmd .brReset]
  | .clrstat => [wr 0x0008#16 0x0000FF00#32]
  | .scan ss se ah al => [wr 0x0024#16 (ScanCfg.word { ss := ss, se := se, ah := ah, al := al })]
  | .setnz m => [wr 0x0038#16 (m.extractLsb' 0 32), wr 0x003C#16 (m.extractLsb' 32 32)]
  | .ycc y cb cr => [wr 0x0040#16 ((cr ++ cb ++ y).setWidth 32), cmd .ccYcc]
  | .getbit => [cmd (.brGetbits 1#5)]

/-- `src a: b0 b1 …` as host actions: bytes at SRC addresses a, a + 1, … (30_encoding.md R123). -/
def srcBytes : Nat → List Byte → List HostEvent
  | _, [] => []
  | a, b :: bs => .placeSrc (BitVec.ofNat 32 a) b :: srcBytes (a + 1) bs

end Sys2Proof.Machine
end

