-- ==== Sys2Proof/Tests/Slice0.lean ====
section
/-! SUPPORT. Tests: the well-formedness smoke, decoding of words written out from the spec's encodings, at most two single-step tests per
command with the spec's own vectors (95_test_vectors.md, named at each), and for every statement with hypotheses a state that meets
them (`witness_<Name>`). -/

namespace Sys2Proof.Tests

-- The tests are checked one after another: their kernel evaluations side by side need more threads than the check allows.
set_option Elab.async false

open Sys2Proof Sys2Proof.Machine Sys2Proof.Spec

/-! ### Well-formedness: each check refuses an ill-formed term -/

theorem test_wf_bit_count : (Instr.brGetbits 17#5).wellFormed = false ∧ (Instr.brPeekbits 31#5).wellFormed = false ∧
    (Instr.htReceiveExtend 17#5).wellFormed = false ∧ (Instr.brGetbits 16#5).wellFormed = true := by decide

theorem test_wf_component_of_block_commands : (blockCommands 3#2 0#2 0#2 .store).all (fun i => !i.wellFormed) = true ∧
    (blockCommands 2#2 3#2 3#2 .discard).all Instr.wellFormed = true := by decide

theorem test_wf_component_of_up_map : (Instr.upMap 3#2 0#5 0#5).wellFormed = false ∧ (Instr.upMap 2#2 31#5 31#5).wellFormed = true := by
  decide

/-! ### Decoding: one word per constructor, its bits written out by the formats of 30_encoding.md R112 and the opcodes of R117 -/

-- Format N: twenty-four zero bits, then the opcode.
theorem test_decode_nop : decode 0b000000000000000000000000_00000000#32 = .ok .nop := by rfl
theorem test_decode_soft_reset : decode 0b000000000000000000000000_00000001#32 = .ok .softReset := by rfl
theorem test_decode_coef_clear : decode 0b000000000000000000000000_00000010#32 = .ok .coefClear := by rfl
theorem test_decode_br_reset : decode 0b000000000000000000000000_00010000#32 = .ok .brReset := by rfl
theorem test_decode_ht_define : decode 0b000000000000000000000000_00100000#32 = .ok .htDefine := by rfl
theorem test_decode_qt_define : decode 0b000000000000000000000000_00101000#32 = .ok .qtDefine := by rfl
theorem test_decode_ed_scan_start : decode 0b000000000000000000000000_00110000#32 = .ok .edScanStart := by rfl
theorem test_decode_ed_restart : decode 0b000000000000000000000000_00110001#32 = .ok .edRestart := by rfl
theorem test_decode_cc_ycc : decode 0b000000000000000000000000_01010000#32 = .ok .ccYcc := by rfl
theorem test_decode_cc_gray : decode 0b000000000000000000000000_01010001#32 = .ok .ccGray := by rfl
-- Format B: nnnnn at bits 12:8.
theorem test_decode_br_getbits : decode 0b0000000000000000000_00100_00010001#32 = .ok (.brGetbits 4#5) := by rfl
theorem test_decode_br_peekbits : decode 0b0000000000000000000_10000_00010010#32 = .ok (.brPeekbits 16#5) := by rfl
theorem test_decode_ht_receive_extend : decode 0b0000000000000000000_01011_00100010#32 = .ok (.htReceiveExtend 11#5) := by rfl
-- Format T: k at bit 12, ii at bits 9:8.
theorem test_decode_ht_decode : decode 0b0000000000000000000_1_00_01_00100001#32 = .ok (.htDecode .ac 1#2) ∧
    decode 0b0000000000000000000_0_00_10_00100001#32 = .ok (.htDecode .dc 2#2) := ⟨rfl, rfl⟩
-- Format E: d at bit 16, aa at 13:12, dd at 11:10, cc at 9:8.
theorem test_decode_ed_baseline : decode 0b000000000000000_1_00_10_01_00_00110010#32 = .ok (.edBaseline 0#2 1#2 2#2 .discard) := by rfl
theorem test_decode_ed_dc_first : decode 0b000000000000000_0_00_00_11_10_00110011#32 = .ok (.edDcFirst 2#2 3#2 0#2 .store) := by rfl
theorem test_decode_ed_dc_refine : decode 0b000000000000000_1_00_00_00_01_00110100#32 = .ok (.edDcRefine 1#2 0#2 0#2 .discard) := by rfl
theorem test_decode_ed_ac_first : decode 0b000000000000000_0_00_11_00_01_00110101#32 = .ok (.edAcFirst 1#2 0#2 3#2 .store) := by rfl
theorem test_decode_ed_ac_refine : decode 0b000000000000000_1_00_01_10_00_00110110#32 = .ok (.edAcRefine 0#2 2#2 1#2 .discard) := by rfl
-- Format Q: qq at bits 9:8.
theorem test_decode_idct : decode 0b0000000000000000000000_11_01000000#32 = .ok (.idct 3#2) := by rfl
-- Format U: yyyyy at 28:24, xxxxx at 20:16, cc at 9:8.
theorem test_decode_up_map : decode 0b000_00011_000_01001_000000_01_01011000#32 = .ok (.upMap 1#2 9#5 3#5) := by rfl

/-- Vectors SYS2, SYS3, SYS4: a NOP with bit 8, an unassigned opcode, opcode 0xFF. -/
theorem test_decode_refuses_nop_bit_and_opcodes : decode 0x00000100#32 = .error (.reservedBit .N) ∧
    decode 0x00000003#32 = .error (.unknownOpcode 0x03#8) ∧ decode 0x000000FF#32 = .error (.unknownOpcode 0xFF#8) := ⟨rfl, rfl, rfl⟩
/-- Vectors SYS7, SYS9, SYS10, SYS12, SYS13: a reserved bit of each format. -/
theorem test_decode_refuses_reserved_bits : decode 0x00000421#32 = .error (.reservedBit .T) ∧
    decode 0x00004032#32 = .error (.reservedBit .E) ∧ decode 0x00020032#32 = .error (.reservedBit .E) ∧
    decode 0x00000440#32 = .error (.reservedBit .Q) ∧ decode 0x00200058#32 = .error (.reservedBit .U) := ⟨rfl, rfl, rfl, rfl, rfl⟩
/-- Vectors SYS5 and SYS8: `br_getbits 17`, and `ed_baseline` with c = 3. -/
theorem test_decode_refuses_operand_values : decode 0x00001111#32 = .error (.operandValue (.brGetbits 17#5)) ∧
    decode 0x00000332#32 = .error (.operandValue (.edBaseline 3#2 0#2 0#2 .store)) := ⟨rfl, rfl⟩
/-- The listing of ZZ in 10_state.md R62. -/
theorem test_zz_listing : (List.range 64).map (fun k => (zz k).val) =
    [0, 1, 8, 16, 9, 2, 3, 10, 17, 24, 32, 25, 18, 11, 4, 5] ++ [12, 19, 26, 33, 40, 48, 41, 34, 27, 20, 13, 6, 7, 14, 21, 28] ++
      [35, 42, 49, 56, 57, 50, 43, 36, 29, 22, 15, 23, 30, 37, 44, 51] ++ [58, 59, 52, 45, 38, 31, 39, 46, 53, 60, 61, 54, 47, 55, 62, 63] := by
  decide +kernel
/-- A table row's bits are the whole word. -/
theorem test_decode_table_word : decodeTableWord 32 0x00010032 = some (.edBaseline 0#2 0#2 0#2 .discard) := by rfl

/-! ### Small states -/

/-- The bytes placed from address a on. -/
def cellsFrom : Nat → List Byte → Memory
  | _, [] => []
  | a, b :: bs => (a, b) :: cellsFrom (a + 1) bs

/-- The fresh state of 95_test_vectors.md section 0. -/
def fresh (bs : List Byte) : State := { State.reset with src := cellsFrom 0 bs, srclen := BitVec.ofNat 32 bs.length }

/-- A part of the next state of one command. -/
def after {α : Type} (part : State → α) (i : Instr) (s : State) : Option α :=
  match exec i s with
  | .next t => some (part t)
  | .fault _ => none
  | .refused _ => none

/-- The counts and symbols of tables DC0 and AC0 of 95_test_vectors.md section 0. -/
def dc0Counts : Vector Byte 16 := #v[0, 1, 5, 1, 1, 1, 1, 1, 1, 0, 0, 0, 0, 0, 0, 0]
def dc0Values : List Byte := [0, 1, 2, 3, 4, 5, 6, 7, 8, 9, 10, 11]
def ac0Counts : Vector Byte 16 := #v[0, 2, 1, 1, 1, 1, 0, 0, 1, 1, 0, 0, 0, 0, 0, 1]
def ac0Values : List Byte := [0x01, 0x00, 0x11, 0x02, 0xF0, 0x21, 0x10, 0x03, 0x31]
def dc0 : HuffSlot := buildSlot dc0Counts (padBytes 256 dc0Values)
def ac0 : HuffSlot := buildSlot ac0Counts (padBytes 256 ac0Values)

/-- DC0 and AC0 defined, the data at address 0 (setup S without the 55 bytes of table bodies). -/
def withTables (bs : List Byte) : State := { fresh bs with ht := (State.reset.ht.set 0 dc0).set 4 ac0 }

/-- All QT entries of every slot are v. -/
def flatQuant (v : BitVec 16) : Vector (Vector (BitVec 16) 64) 4 := Vector.replicate 4 (Vector.replicate 64 v)

def coefOf (i : Fin 64) (v : Coef) : Block := State.reset.coef.set i v

/-- A reader halted at end of stream, and one halted at marker RST3. -/
def haltedReader : Reader := { Reader.reset with halt := true, eos := true }
def restartReader : Reader := { Reader.reset with halt := true, markerValid := true, marker := 0xD3#8 }

/-! ### One step -/

/-- SYS1 and the step of `withFetchWord`. -/
theorem test_step_nop : (match step (State.reset.withFetchWord 32 0x00) with | .next t => decide (t = State.reset) | _ => false) = true := by
  decide +kernel
/-- SYS2: STATUS = 0x00010100. -/
theorem test_step_illegal_word : (match step (State.reset.withFetchWord 32 0x100) with | .next t => decide (t.status = 0x00010100#32) | _ => false)
    = true := by decide +kernel
/-- SYS16: every checked register is 0 and the slots undefined. -/
theorem test_soft_reset : after (fun t => (t.readReg 0, t.result, t.srclen, t.pred[0], t.coef[0], t.ht[0].valid)) .softReset
    { withTables [0x3F] with pred := #v[7, 0, 0], coef := coefOf 0 5 } = some (0x48554646#32, 0#32, 0#32, 0#16, 0#16, false) := by decide +kernel
/-- SYS17: COEF cleared, SCRATCH kept. -/
theorem test_coef_clear : after (fun t => (t.coef[0], t.coef[63], t.scratch[0])) .coefClear
    { State.reset with coef := (coefOf 0 5).set 63 0xFFFF, scratch := coefOf 0 1 } = some (0#16, 0#16, 1#16) := by decide +kernel
/-- RS1's reader fields for BR_RESET: the LASTRST fields and SRCPOS stay. -/
theorem test_br_reset : after (fun t => t.reader) .brReset
    { State.reset with reader := { restartReader with lastrst := 5, lastrstValid := true, srcpos := 9, bitcnt := 3, bracc := 5 } } =
      some { Reader.reset with lastrst := 5, lastrstValid := true, srcpos := 9 } := by decide +kernel
/-- BR1, first and second read at once: 0xA5F. -/
theorem test_br_getbits : after (fun t => (t.result, t.reader.srcpos, t.reader.bitcnt, t.reader.bracc)) (.brGetbits 12#5) (fresh [0xA5, 0xFF, 0x00]) =
    some (0xA5F#32, 3#32, 4, 0xF#32) := by decide +kernel
/-- BR4, second step: zero-filled at a marker, SRCPOS at the 0xFF. -/
theorem test_br_getbits_at_marker : after (fun t => (t.result, t.reader.srcpos, t.reader.brstate, t.status)) (.brGetbits 8#5)
    { fresh [0x12, 0xFF, 0xD9] with reader := { Reader.reset with srcpos := 1 } } = some (0#32, 1#32, 0x00D90500#32, 0x0000000A#32) := by
  decide +kernel
/-- BR8: RESULT 6, BITCNT 8, CONSUMED 0. -/
theorem test_br_peekbits : after (fun t => (t.result, t.reader.srcpos, t.reader.bitcnt, t.reader.consumed)) (.brPeekbits 3#5) (fresh [0xC3]) =
    some (6#32, 1#32, 8, 0#32) := by decide +kernel
/-- BR9: the largest BITCNT, 23. -/
theorem test_br_peekbits_most_buffered : after (fun t => (t.result, t.reader.bitcnt, t.reader.bracc)) (.brPeekbits 16#5)
    { fresh [0xFF, 0x00, 0xFF, 0x00, 0xFF, 0x00] with reader := { Reader.reset with srcpos := 2, bitcnt := 7, bracc := 0x7F } } =
      some (0xFFFF#32, 23, 0x7FFFFF#32) := by decide +kernel
/-- HD1: RESULT 29, slot 0 valid, FAST[0xE5] = 0x406 (X3). -/
theorem test_ht_define : after (fun t => (t.result, t.reader.srcpos, t.ht[0].valid, t.readReg (0x1800 + 4 * 0xE5))) .htDefine
    (fresh ([0] ++ dc0Counts.toList ++ dc0Values)) = some (29#32, 29#32, true, 0x406#32) := by decide +kernel
/-- HD7: PARSE_CODELEN, no slot changed. -/
theorem test_ht_define_codelen : after (fun t => (t.result, t.status, t.ht[2].valid)) .htDefine
    (fresh ([2, 3] ++ List.replicate 15 0 ++ [1, 2, 3])) = some (0x80000014#32, 0x00050200#32, false) := by decide +kernel
/-- DE4: the slow path at length 9 through a stuffed byte. -/
theorem test_ht_decode_slow : after (fun t => (t.result, t.reader.consumed, t.reader.bitcnt)) (.htDecode .dc 0#2) (withTables [0xFF, 0x00, 0x7F]) =
    some (0x0000090B#32, 9#32, 7) := by decide +kernel
/-- DE9: BADCODE. -/
theorem test_ht_decode_bad_code : after (fun t => (t.result, t.status)) (.htDecode .ac 0#2) (withTables [0xBC, 0xC1]) =
    some (0x80001000#32, 0x00070800#32) := by decide +kernel
/-- 42_huffman.md R196's example: −5. -/
theorem test_ht_receive_extend : after (fun t => t.result) (.htReceiveExtend 3#5) (fresh [0b01011111]) = some 0xFFFFFFFB#32 := by decide +kernel
/-- The last row of section 2.5: s = 16, v = 65535. -/
theorem test_ht_receive_extend_largest : after (fun t => t.result) (.htReceiveExtend 16#5) (fresh [0xFF, 0x00, 0xFF, 0x00]) = some 0xFFFF#32 := by
  decide +kernel
/-- QD1: QT[0][ZZ[k]] = k + 1. -/
theorem test_qt_define : after (fun t => (t.result, t.qt[0][0], t.qt[0][8], t.qt[0][2], t.qt[0][63])) .qtDefine
    (fresh (0 :: (List.range 64).map fun k => BitVec.ofNat 8 (k + 1))) = some (65#32, 1#16, 3#16, 6#16, 64#16) := by decide +kernel
/-- QD5: PARSE_EOS inside a 16-bit table. -/
theorem test_qt_define_eos : after (fun t => (t.result, t.reader.srcpos, t.errors.errcode)) .qtDefine (fresh (0x11 :: List.replicate 100 7)) =
    some (0x80000065#32, 101#32, 2#4) := by decide +kernel
/-- RS1. -/
theorem test_ed_scan_start : after (fun t => (t.pred, t.eobrun, t.reader.brstate)) .edScanStart
    { State.reset with pred := #v[0, 40, 0], eobrun := 3, reader := { restartReader with marker := 0xD9 } } =
      some (#v[0, 0, 0], 0#16, 0#32) := by decide +kernel
/-- RS2: BRSTATE 0x0B000000, SRCPOS 3. -/
theorem test_ed_restart : after (fun t => (t.reader.srcpos, t.reader.brstate, t.pred, t.eobrun)) .edRestart
    { fresh [0x5A, 0xFF, 0xD3, 0x8C] with
      reader := { Reader.reset with srcpos := 1, bitcnt := 5, bracc := 0x1A, consumed := 3 }, pred := #v[5, 6, 7], eobrun := 4 } =
      some (3#32, 0x0B000000#32, #v[0, 0, 0], 0#16) := by decide +kernel
/-- RS5: RSTMISS at end of stream. -/
theorem test_ed_restart_missing : after (fun t => (t.reader.srcpos, t.status)) .edRestart
    { fresh [0x12, 0x34] with reader := { Reader.reset with srcpos := 1, bitcnt := 4, bracc := 2 } } = some (2#32, 0x000A4006#32) := by
  decide +kernel
/-- BL1. -/
theorem test_ed_baseline : after (fun t => (t.result, t.pred[0], t.coef[0], t.coef[1], t.coef[40], t.coef[48], t.nzmask)) (.edBaseline 0#2 0#2 0#2 .store)
    { withTables [0x94, 0x5A, 0xED, 0x6F] with pred := #v[10, 0, 0] } =
      some (29#32, 15#16, 15#16, 0xFFFF#16, 1#16, 3#16, 0x00300003#64) := by decide +kernel
/-- BL3: BADRUN in component 1. -/
theorem test_ed_baseline_bad_run : after (fun t => (t.result, t.coef[38], t.coef[53], t.coef[47], t.nzmask, t.errors.errcode)) (.edBaseline 1#2 0#2 0#2 .store)
    (withTables [0x2D, 0x6B, 0x5E, 0x60, 0x6F, 0x30, 0x37, 0x98, 0x1B, 0xCC, 0x0F]) =
      some (85#32, 1#16, 1#16, 1#16, 0x1110000000000000#64, 9#4) := by decide +kernel
/-- DC1. -/
theorem test_ed_dc_first : after (fun t => (t.result, t.pred[0], t.coef[0], t.nzmask)) (.edDcFirst 0#2 0#2 0#2 .store)
    { withTables [0x4F] with pred := #v[3, 0, 0], scancfg := ScanCfg.ofWord 0x00100000#32 } = some (4#32, 2#16, 4#16, 1#64) := by decide +kernel
/-- DC5: the OR acts on the two's-complement pattern. -/
theorem test_ed_dc_refine : after (fun t => (t.result, t.coef[0])) (.edDcRefine 0#2 0#2 0#2 .store)
    { fresh [0xFF, 0x00] with coef := coefOf 0 0xFFFC, scancfg := ScanCfg.ofWord 0x00100000#32 } = some (1#32, 0xFFFE#16) := by decide +kernel
/-- AF1, first command. -/
theorem test_ed_ac_first : after (fun t => (t.result, t.coef[1], t.eobrun, t.nzmask)) (.edAcFirst 0#2 0#2 0#2 .store)
    { withTables [0x37, 0x8F] with scancfg := ScanCfg.ofWord 0x00000501#32 } = some (13#32, 1#16, 2#16, 2#64) := by decide +kernel
/-- AF2: a negative value shifted by AL. -/
theorem test_ed_ac_first_shift : after (fun t => (t.result, t.coef[3], t.nzmask)) (.edAcFirst 0#2 0#2 0#2 .store)
    { withTables [0xA5] with scancfg := ScanCfg.ofWord 0x00203F06#32 } = some (8#32, 0xFFF8#16, 0x40#64) := by decide +kernel
/-- ACR1 in store mode. -/
theorem test_ed_ac_refine : after (fun t => (t.result, t.coef[1], t.coef[16], t.coef[9], t.coef[3], t.nzmask)) (.edAcRefine 0#2 0#2 0#2 .store)
    { withTables [0x99, 0xFF, 0x00] with
      scancfg := ScanCfg.ofWord 0x00010A01#32, nzmask := 0x4A, coef := ((coefOf 1 5).set 16 0xFFFE).set 3 1 } =
      some (9#32, 6#16, 0xFFFE#16, 1#16, 2#16, 0x5A#64) := by decide +kernel
/-- ACR1 in discard mode. -/
theorem test_ed_ac_refine_discard : after (fun t => (t.result, t.scratch[1], t.scratch[16], t.scratch[9], t.scratch[3], t.nzmask))
    (.edAcRefine 0#2 0#2 0#2 .discard) { withTables [0x99, 0xFF, 0x00] with scancfg := ScanCfg.ofWord 0x00010A01#32, nzmask := 0x4A } =
      some (9#32, 2#16, 1#16, 1#16, 2#16, 0x5A#64) := by decide +kernel
/-- ID9: a row of `135 134 132 129 127 124 122 121`. -/
theorem test_idct : after (fun t => (t.sample[8], t.sample[9], t.sample[12], t.sample[15])) (.idct 0#2)
    { State.reset with coef := coefOf 1 10, qt := flatQuant 4 } = some (135#8, 134#8, 127#8, 121#8) := by decide +kernel
/-- ID11, entries of its first and fourth rows. -/
theorem test_idct_two_dimensional : after (fun t => (t.sample[0], t.sample[3], t.sample[26], t.sample[63])) (.idct 0#2)
    { State.reset with coef := ((((coefOf 0 0xFFEC).set 1 6).set 8 0xFFFC).set 9 3).set 2 2, qt := flatQuant 4 } =
      some (124#8, 115#8, 120#8, 121#8) := by decide +kernel
/-- 45_color_upsample.md R290's example: CCOUT = 0x0000FE, RESULT = 0xF800. -/
theorem test_cc_ycc : after (fun t => (t.ccout, t.result)) .ccYcc { State.reset with ccin := 0xFF554C } = some (0x0000FE#24, 0xF800#32) := by
  decide +kernel
/-- 45_color_upsample.md R293's example: CCOUT = 0x4D4D4D, RESULT = 0x4A69. -/
theorem test_cc_gray : after (fun t => (t.ccout, t.result)) .ccGray { State.reset with ccin := 0x00C84D } = some (0x4D4D4D#24, 0x4A69#32) := by
  decide +kernel

/-- A 4:2:0 frame. -/
def frame420 : State := { State.reset with ncomp := 3, compcfg := #v[⟨2, 2⟩, ⟨1, 1⟩, ⟨1, 1⟩] }

/-- 45_color_upsample.md R294's examples: 0x040C and 0x033F. -/
theorem test_up_map : after (fun t => t.result) (.upMap 1#2 9#5 3#5) frame420 = some 0x040C#32 ∧
    after (fun t => t.result) (.upMap 0#2 15#5 15#5) frame420 = some 0x033F#32 := by decide +kernel
/-- px = 16 = 8·Hmax is illegal. -/
theorem test_up_map_illegal : after (fun t => (t.result, t.status)) (.upMap 1#2 16#5 3#5) frame420 = some (0#32, 0x00010100#32) := by
  decide +kernel

/-! ### Witnesses: states and operands that meet the hypotheses of the statements, clause by clause, at the boundaries of their ranges -/

/-- A state whose host is about to do e. -/
def pending (e : HostEvent) (s : State) : State := { s with hostQueue := [e] }

/-- A reader with one fresh byte to come, one with 23 buffered bits, one with 7. -/
def fullReader : Reader := { Reader.reset with bitcnt := 23, bracc := 0x7FFFFF }
def sevenBits : Reader := { Reader.reset with bitcnt := 7, bracc := 0x55 }

/-- A source of the given bytes. -/
def sourceOf (bs : List Byte) : Source := { cells := cellsFrom 0 bs, epoch := 0, len := BitVec.ofNat 32 bs.length }

theorem dc0_consistent : dc0.Consistent := buildSlot_consistent _ _ (by decide +kernel) (by decide +kernel) (by decide +kernel)
theorem ac0_consistent : ac0.Consistent := buildSlot_consistent _ _ (by decide +kernel) (by decide +kernel) (by decide +kernel)

theorem witness_DecodedWordIsEncoding : decode 0x00010032#32 = .ok (.edBaseline 0#2 0#2 0#2 .discard) := by rfl

theorem witness_StepRunsDecodedCommand : decode 0x00000002#32 = .ok .coefClear ∧
    (pending (.write 0x0004#16 4 0x00000002#32) State.reset).hostQueue = .write 0x0004#16 4 0x00000002#32 :: [] := ⟨rfl, rfl⟩

/-- A frame with a factor out of range, and a one-component frame. -/
def frameFive : State := { frame420 with compcfg := #v[⟨5, 2⟩, ⟨1, 1⟩, ⟨1, 1⟩] }
def frameGray : State := { State.reset with ncomp := 1 }

theorem witness_IllegalCommandOnlyRaisesIllegal :
    decode 0x00000003#32 = .error (.unknownOpcode 0x03#8) ∧
    (pending (.write 0x0004#16 4 0x00000003#32) State.reset).hostQueue = .write 0x0004#16 4 0x00000003#32 :: [] ∧
    (Instr.brGetbits 17#5).wellFormed = false ∧ (Instr.edAcFirst 3#2 0#2 0#2 .store).wellFormed = false ∧
    ¬UpLegal State.reset 0 0 0 ∧ ¬UpLegal frame420 3 0 0 ∧ ¬UpLegal frame420 0 16 0 ∧ ¬UpLegal frame420 0 0 16 ∧
    ¬UpLegal frameFive 0 0 0 := by
  exact ⟨rfl, rfl, rfl, rfl, by decide +kernel, by decide +kernel, by decide +kernel, by decide +kernel, by decide +kernel⟩

theorem witness_HostReadHasNoSideEffect : State.reset.hostQueue = [] ∧
    (pending (.read 0x9FFC#16 4) State.reset).hostQueue = .read 0x9FFC#16 4 :: [] ∧ (0x9FFC#16).toNat % 4 = 0 := ⟨rfl, rfl, rfl⟩

/-- The first and the last offset of every hole of the register map. -/
theorem witness_HostReadHoles : ∀ off ∈ [0x58, 0xFC, 0x400, 0xFFC, 0x1008, 0x103C, 0x1140, 0x13FC, 0x1C00, 0x1FFC, 0x8C00, 0x8FFC, 0x9400, 0xFFFC],
    off % 4 = 0 ∧ ¬occupiedOffset off := by
  unfold occupiedOffset
  decide

theorem witness_OnlyUnalignedHostAccessIsRefused :
    (match step (pending (.read 0x0002#16 4) State.reset) with | .refused r => decide (r = .hostAccessNotAlignedWord) | _ => false) = true ∧
    (match step (pending (.write 0x0004#16 2 0#32) State.reset) with | .refused r => decide (r = .hostAccessNotAlignedWord) | _ => false) = true := by
  decide +kernel

theorem witness_StatusWriteClearsWrittenOnes :
    (pending (.write 0x0008#16 4 0x00008100#32) State.reset).hostQueue = .write 0x0008#16 4 0x00008100#32 :: [] := rfl

theorem witness_HostWriteIsReadBack :
    (pending (.write 0x01FC#16 4 0xFFFFFFFF#32) State.reset).hostQueue = .write 0x01FC#16 4 0xFFFFFFFF#32 :: [] ∧
    (∀ off ∈ [0x10, 0x48, 0x54, 0x100, 0x1FC], off % 4 = 0 ∧ off ≠ 0x04 ∧ off ≠ 0x08 ∧ writableOffset off) ∧
    (∀ off ∈ [0x00, 0x0C, 0x18, 0x44, 0x58, 0x200, 0xFFFC], off % 4 = 0 ∧ off ≠ 0x04 ∧ off ≠ 0x08 ∧ ¬writableOffset off) :=
  ⟨rfl, by decide, by decide⟩

theorem witness_SrcByteIsTheOneLastPlaced :
    (pending (.placeSrc 0xFFFFFFFF#32 0x5A#8) State.reset).hostQueue = .placeSrc 0xFFFFFFFF#32 0x5A#8 :: [] ∧
    State.reset.srclen ≤ Reader.reset.srcpos := by decide

theorem witness_PowerOnResetsEveryRegister : (pending .powerOnReset frame420).hostQueue = .powerOnReset :: [] := rfl

theorem witness_LegalHostIsNeverStopped :
    ({ State.reset with hostQueue := [.write 0x0014#16 4 9#32, .placeSrc 0#32 0xFF#8, .write 0x0004#16 4 0x31#32, .read 0x0008#16 4, .powerOnReset] }
      : State).HostLegal := by
  unfold State.HostLegal
  decide +kernel

/-- A state that runs BR_GETBITS 8 next, its reader at the largest BITCNT. -/
def busyState : State := { withTables [0x12, 0xFF, 0xD9] with reader := fullReader, hostQueue := [.write cmdOffset 4 0x00000811#32] }

theorem busyState_reader : busyState.reader.Buffered ∧ busyState.reader.MarkerLegal ∧ busyState.reader.HaltCaused := by
  unfold Reader.Buffered Reader.MarkerLegal Reader.HaltCaused
  decide +kernel

theorem busyState_steps : ∃ t, step busyState = .next t := ⟨_, rfl⟩

theorem withTables_slots (bs : List Byte) (i : Fin 8) : (withTables bs).ht[i].Consistent := by
  match i with
  | 0 => exact dc0_consistent
  | 4 => exact ac0_consistent
  | 1 | 2 | 3 | 5 | 6 | 7 => exact HuffSlot.reset_consistent

theorem witness_StepKeepsReaderInvariants : busyState.reader.Buffered ∧ busyState.reader.MarkerLegal ∧ busyState.reader.HaltCaused ∧
    ∃ t, step busyState = .next t := ⟨busyState_reader.1, busyState_reader.2.1, busyState_reader.2.2, busyState_steps⟩

theorem witness_StepKeepsSlotsConsistent : (∀ i : Fin 8, busyState.ht[i].Consistent) ∧ ∃ t, step busyState = .next t :=
  ⟨withTables_slots [0x12, 0xFF, 0xD9], busyState_steps⟩

theorem witness_StepKeepsErrcodeAndMemory :
    ({ busyState with errors := { sticky := 0x40#7, errcode := 10#4 } } : State).errors.CodeLegal ∧ busyState.src.wf = true ∧
    ∃ t, step { busyState with errors := { sticky := 0x40#7, errcode := 10#4 } } = .next t := by
  refine ⟨?_, by decide +kernel, ⟨_, rfl⟩⟩
  unfold Errors.CodeLegal
  decide

/-- Each register group of the statement is written by some command. -/
theorem witness_CommandsWriteOnlyTheirState :
    after (fun t => t.ht[3].valid) .htDefine (fresh ([3, 2] ++ List.replicate 15 0 ++ [7, 9])) = some true ∧
    after (fun t => t.sample[0]) (.idct 0#2) State.reset = some 128#8 ∧
    after (fun t => (t.coef[1], t.scratch[1], t.nzmask)) (.edAcFirst 0#2 0#2 0#2 .discard)
      { withTables [0x37, 0x8F] with scancfg := ScanCfg.ofWord 0x00000501#32 } = some (0#16, 1#16, 2#64) := by decide +kernel

theorem witness_CommandsRaiseOnlyTheirErrors :
    (Instr.htDecode .dc 1#2).wellFormed = true ∧ Instr.htDecode .dc 1#2 ≠ .softReset ∧
    after (fun t => t.errors) (.htDecode .dc 1#2) State.reset = some { sticky := 0b0000100#7, errcode := 6#4 } ∧
    after (fun t => t.errors) (.htDecode .dc 1#2) { State.reset with errors := { sticky := 1#7, errcode := 1#4 } } =
      some { sticky := 0b0000101#7, errcode := 1#4 } ∧
    after (fun t => t.errors) .nop State.reset = some { sticky := 0#7, errcode := 0#4 } := by decide +kernel

theorem witness_ErrorsNeverChangeComputation : ∃ t, exec (.edBaseline 0#2 0#2 0#2 .store) (withTables [0x94]) = .next t := ⟨_, rfl⟩

theorem witness_BytesPastSrclenDoNotMatter :
    (∀ a : Word, a < (fresh []).srclen → ({ cells := cellsFrom 0 [1, 2], epoch := 7, len := (fresh []).srclen } : Source).byte a =
      (fresh []).source.byte a) ∧ ∃ t, exec (.brGetbits 8#5) (fresh []) = .next t :=
  ⟨fun a h => absurd h (by simp [fresh]), ⟨_, rfl⟩⟩

theorem witness_SrcposMovesForwardWithinSrclen :
    (fresh [0x5A, 0xFF, 0xD3]).reader.HaltCaused ∧ (fresh [0x5A, 0xFF, 0xD3]).reader.srcpos ≤ (fresh [0x5A, 0xFF, 0xD3]).srclen ∧
    Instr.edRestart ≠ .softReset ∧ (fresh [0x5A, 0xFF, 0xD3]).reader.halt = false ∧
    after (fun t => (t.reader.srcpos, t.srclen)) .edRestart (fresh [0x5A, 0xFF, 0xD3]) = some (3#32, 3#32) := by
  unfold Reader.HaltCaused
  decide +kernel

theorem witness_NopAndCoefClear : (0x80000000#32 : Word).extractLsb' 0 8 = 0x00#8 ∧ (0x80000000#32 : Word) ≠ 0#32 := by decide

theorem witness_SrcReadReturnsByteOrSentinel :
    (sourceOf [7]).len ≤ ({ Reader.reset with srcpos := 1#32 } : Reader).srcpos ∧ Reader.reset.srcpos < (sourceOf [7]).len ∧
    (0xFFFFFFFE#32 : Word) < ({ cells := [], epoch := 0, len := 0xFFFFFFFF#32 } : Source).len := by decide

theorem witness_FetchUnstuffsAndFindsMarkers :
    (sourceOf []).len ≤ Reader.reset.srcpos ∧
    (Reader.reset.srcpos < (sourceOf [0xFE]).len ∧ (sourceOf [0xFE]).byte Reader.reset.srcpos ≠ 0xFF#8) ∧
    (ffRun (sourceOf [0xFF, 0xFF]) 0#32 2 ∧ 0 + 2 = (sourceOf [0xFF, 0xFF]).len.toNat) ∧
    (ffRun (sourceOf [0xFF, 0x00]) 0#32 1 ∧ 0 + 1 < (sourceOf [0xFF, 0x00]).len.toNat ∧ (sourceOf [0xFF, 0x00]).byte 1#32 = 0x00#8) ∧
    (ffRun (sourceOf [0xFF, 0xFF, 0xFE]) 0#32 2 ∧ 0 + 2 < (sourceOf [0xFF, 0xFF, 0xFE]).len.toNat ∧
      (sourceOf [0xFF, 0xFF, 0xFE]).byte 2#32 = 0xFE#8) := by
  decide +kernel

theorem witness_RefillPeekAndGetFollowTheirRules :
    (sevenBits.bitcnt < 16 ∧ sevenBits.halt = false) ∧ ¬(fullReader.bitcnt < 16 ∧ fullReader.halt = false) ∧ (16 : Nat) ≤ 16 := by decide

theorem witness_BitsComeMostSignificantFirst :
    Reader.reset.Buffered ∧ fullReader.Buffered ∧ (1 : Nat) ≤ 8 ∧ Reader.reset.bitcnt = 0 ∧ Reader.reset.halt = false ∧
    Reader.reset.srcpos < (sourceOf [0xA5]).len ∧ (sourceOf [0xA5]).byte Reader.reset.srcpos ≠ 0xFF#8 ∧ 7 + 9 ≤ 16 := by
  unfold Reader.Buffered
  decide +kernel

theorem witness_HaltIsSticky :
    haltedReader.halt = true ∧ haltedReader.Buffered ∧ ({ fullReader with halt := true, eos := true } : Reader).Buffered ∧
    16 ≤ fullReader.bitcnt ∧ haltedReader.bitcnt ≤ 16 ∧ haltedReader.atRestart = false ∧
    (∃ t, exec .edRestart { State.reset with reader := haltedReader } = .next t) ∧
    (∃ t, exec .qtDefine { State.reset with reader := restartReader } = .next t) := by
  refine ⟨rfl, ?_, ?_, by decide, by decide, by decide, ⟨_, rfl⟩, ⟨_, rfl⟩⟩ <;> unfold Reader.Buffered <;> decide

/-- The last clauses: no bit left at end of stream, and one bit short of 16 at a marker. -/
theorem witness_BrGetbitsReturnsTheBits : (16#5).toNat ≤ 16 ∧ (0#5).toNat ≤ 16 ∧ 16 < (17#5).toNat ∧ State.reset.reader.Buffered ∧
    (refill (sourceOf []) (1#5).toNat Reader.reset).bitcnt < (1#5).toNat ∧
    (refill (sourceOf [0x12, 0xFF, 0xD9]) (16#5).toNat sevenBits).bitcnt + 1 = (16#5).toNat := by
  unfold Reader.Buffered
  decide +kernel

theorem witness_BrPeekbitsIsIdempotent : (16#5).toNat ≤ 16 ∧ 16 < (17#5).toNat ∧ (16#5).toNat ≤ fullReader.bitcnt := by decide

theorem witness_TableConstructionFollowsTheRules : codeLengthsOk dc0Counts = true ∧ (codes dc0Counts).length ≤ 256 ∧
    0 < countOf dc0Counts 9 ∧ countOf dc0Counts 1 = 0 ∧ codeLengthsOk (#v[2, 0, 0, 0, 0, 0, 0, 0, 0, 0, 0, 0, 0, 0, 0, 0]) = true := by
  decide +kernel

theorem witness_CodesFormAPrefixCode : codeLengthsOk ac0Counts = true ∧ (codes ac0Counts)[0]? = some (2, 0) ∧
    (codes ac0Counts)[8]? = some (16, 48320) ∧ (0 : Nat) ≠ 8 := by decide +kernel

theorem witness_FastPathAgreesWithSlowPath : ac0.Consistent ∧ ac0.valid = true ∧ Reader.reset.Buffered ∧
    entry ac0.fastlen (peekBits (sourceOf [0xBC, 0x7F]) 8 Reader.reset).1 = 0#4 ∧
    entry ac0.fastlen (peekBits (sourceOf [0x3F]) 8 Reader.reset).1 ≠ 0#4 := by
  refine ⟨ac0_consistent, rfl, ?_, by decide +kernel, by decide +kernel⟩
  unfold Reader.Buffered
  decide

theorem witness_DecodeReturnsTheSymbolOfTheNextCode :
    HuffSlot.reset.valid = false ∧ ac0.Consistent ∧ ac0.valid = true ∧ Reader.reset.Buffered ∧
    (codes ac0.counts)[0]? = some (2, 0) ∧ (peekBits (sourceOf [0x3F]) 2 Reader.reset).1 = 0 ∧
    (codes ac0.counts)[8]? = some (16, 48320) ∧ (peekBits (sourceOf [0xBC, 0xC0]) 16 Reader.reset).1 = 48320 ∧
    ∀ x ∈ codes ac0.counts, (peekBits (sourceOf [0xBC, 0xC1]) x.1 Reader.reset).1 ≠ x.2 := by
  refine ⟨rfl, ac0_consistent, rfl, ?_, ?_⟩
  · unfold Reader.Buffered
    decide
  · decide +kernel

theorem witness_HtDecodeReturnsSymbolAndLength : State.reset.ht[4 * classBit .ac + (3#2).toNat]? = some HuffSlot.reset ∧
    HuffSlot.reset.valid = false := by decide +kernel

/-- HD10, HD4, a body cut inside the counts, HD6, HD5, HD7, HD1. -/
theorem witness_HtDefineDefinesOneSlotOrNone :
    ¬bodyHas (fresh []) 1 ∧
    (bodyHas (fresh [0x24]) 1 ∧ badTag (bodyByte (fresh [0x24]) 0)) ∧ (bodyHas (fresh [0x04]) 1 ∧ badTag (bodyByte (fresh [0x04]) 0)) ∧
    (bodyHas (fresh (List.replicate 16 0)) 1 ∧ ¬badTag (bodyByte (fresh (List.replicate 16 0)) 0) ∧ ¬bodyHas (fresh (List.replicate 16 0)) 17) ∧
    (let s := fresh ([0x01] ++ List.replicate 14 0 ++ [0x02, 0xFF]); bodyHas s 17 ∧ ¬badTag (bodyByte s 0) ∧ bodyTotal s = 257) ∧
    (let s := fresh ([0x00] ++ dc0Counts.toList ++ [0, 1, 2]); bodyHas s 17 ∧ ¬badTag (bodyByte s 0) ∧ bodyTotal s ≤ 256 ∧ ¬bodyHas s (17 + bodyTotal s)) ∧
    (let s := fresh ([2, 3] ++ List.replicate 15 0 ++ [1, 2, 3]); ¬badTag (bodyByte s 0) ∧ bodyTotal s ≤ 256 ∧ bodyHas s (17 + bodyTotal s) ∧
      lengthsOkFrom (bodyCounts s) 16 1 0 = false) ∧
    (let s := fresh ([0x13] ++ dc0Counts.toList ++ dc0Values); ¬badTag (bodyByte s 0) ∧ bodyTotal s ≤ 256 ∧ bodyHas s (17 + bodyTotal s) ∧
      lengthsOkFrom (bodyCounts s) 16 1 0 = true) := by
  decide +kernel

/-- 256 symbols of length 8 are accepted, 257 symbols are not (previous witness). -/
theorem witness_HtDefineAtMostSymbols :
    let s := fresh ([0x00] ++ List.replicate 7 0 ++ [0x80] ++ List.replicate 7 0 ++ [0x80] ++ List.replicate 256 0)
    bodyTotal s = 256 ∧ bodyHas s (17 + bodyTotal s) ∧ lengthsOkFrom (bodyCounts s) 16 1 0 = true := by
  decide +kernel

theorem witness_ReceiveExtendGivesASignedValue :
    (getBits (sourceOf [0x00]) 1 Reader.reset).1 < 2 ^ (1 - 1) ∧ 2 ^ (16 - 1) ≤ (getBits (sourceOf [0x80, 0x00]) 16 Reader.reset).1 ∧
    Reader.reset.Buffered ∧ (16#5).toNat ≤ 16 ∧ (0#5).toNat ≤ 16 ∧ 16 < (17#5).toNat := by
  unfold Reader.Buffered
  decide +kernel

theorem witness_QtDefineDefinesOneTableOrNone :
    ¬bodyHas (fresh []) 1 ∧ (bodyHas (fresh [0x21]) 1 ∧ badTag (bodyByte (fresh [0x21]) 0)) ∧
    (let s := fresh (List.replicate 64 0); bodyHas s 1 ∧ ¬badTag (bodyByte s 0) ∧ ¬bodyHas s (quantLength s)) ∧
    (let s := fresh (0x11 :: List.replicate 127 0); bodyHas s 1 ∧ ¬badTag (bodyByte s 0) ∧ ¬bodyHas s (quantLength s)) ∧
    (let s := fresh (List.replicate 65 0); ¬badTag (bodyByte s 0) ∧ bodyHas s (quantLength s)) ∧
    (let s := fresh (0x13 :: List.replicate 128 0); ¬badTag (bodyByte s 0) ∧ bodyHas s (quantLength s)) := by
  decide +kernel

/-- Clauses of ED_RESTART: a reader already at RST7, at RST0, at the markers next to them, and at end of stream. -/
theorem witness_RestartFindsTheNextMarker :
    (∀ x ∈ [0xD0#8, 0xD7#8], ({ restartReader with marker := x } : Reader).halt = true ∧ 0xD0 ≤ x.toNat ∧ x.toNat ≤ 0xD7) ∧
    (∀ x ∈ [0xCF#8, 0xD8#8], ¬(0xD0 ≤ x.toNat ∧ x.toNat ≤ 0xD7)) ∧ haltedReader.markerValid = false ∧
    (0xFFFFFFFD#32 : Word).toNat + 2 < 2 ^ 32 ∧ ¬((0xFFFFFFFE#32 : Word).toNat + 2 < 2 ^ 32) := by decide +kernel

theorem witness_BlockCommandsKeepTheirFrame : (2#2).toNat ≤ 2 ∧ (0#2).toNat ≤ 2 ∧
    Instr.edDcRefine 2#2 0#2 0#2 .discard ∈ blockCommands 2#2 0#2 0#2 .discard ∧
    ¬((writeBackRange State.reset (.edDcRefine 2#2 0#2 0#2 .discard)).1 ≤ 63 ∧ 63 ≤ (writeBackRange State.reset (.edDcRefine 2#2 0#2 0#2 .discard)).2) := by
  decide +kernel

/-- Clauses of the symbol loops on AC0: ZRL, EOB, a coefficient that fits, one past the range, a size above 1, a range that is over. -/
theorem witness_BlockLoopsAreTheirWhileLoops :
    let b := fun bs => blockStart .store (withTables bs)
    let sym := fun bs => (decodeStep (sourceOf bs) ac0 (b bs)).1
    (63 : Nat) ≤ 63 ∧ (63 : Nat) < 64 ∧ sym [0xB7] = 0xF0 ∧ sym [0x7F] = 0x00 ∧ sym [0x3F] = 0x01 ∧ sym [0xBB] = 0x21 ∧ sym [0xAF] = 0x02 ∧
    (b []).t[zz 63] = 0#16 ∧ (b []).t[zz 0] = 0#16 := by
  decide +kernel

/-- A block with 5 and −2 at positions 1 and 63, the next bits as given. -/
def twoCoefs (bs : List Byte) : BlockRun := blockStart .store { fresh bs with coef := (coefOf 1 5).set 63 0xFFFE }

/-- `Correct(k)` (43_entropy.md R230): a bit of 1 moves away from zero, a bit of 0 leaves the coefficient. -/
theorem witness_BlockLoopsCorrection :
    (correction (sourceOf [0x80]) 2 1 (twoCoefs [0x80])).t[zz 1] = 7#16 ∧ (correction (sourceOf [0x80]) 2 63 (twoCoefs [0x80])).t[zz 63] = 0xFFFC#16 ∧
    (correction (sourceOf [0x7F]) 2 1 (twoCoefs [0x7F])).t[zz 1] = 5#16 ∧ (correction (sourceOf [0x7F]) 2 63 (twoCoefs [0x7F])).t[zz 63] = 0xFFFE#16 := by
  decide +kernel

/-- `newval` and its placement (43_entropy.md R230): the sign bit 1 and 0, no new value, the last position in range, and none left. -/
theorem witness_BlockLoopsPlacement :
    newvalOf (sourceOf [0x80]) 2 1 (twoCoefs [0x80]) = 2 ∧ newvalOf (sourceOf [0x7F]) 2 1 (twoCoefs [0x7F]) = -2 ∧
    newvalOf (sourceOf [0x80]) 2 0 (twoCoefs [0x80]) = 0 ∧
    (placed 62 62 2 (twoCoefs [])).t[zz 62] = 2#16 ∧ (placed 62 62 2 (twoCoefs [])).errors = (twoCoefs []).errors ∧
    placed 62 63 2 (twoCoefs []) = withError .badRun (twoCoefs []) ∧ placed 62 63 0 (twoCoefs []) = twoCoefs [] := by
  decide +kernel

theorem witness_BaselineDecodesAWholeBlock : (2#2).toNat ≤ 2 ∧
    (∃ t, exec (.edBaseline 0#2 0#2 0#2 .store) (withTables [0x94, 0x5A, 0xED, 0x6F]) = .next t) ∧
    (∃ t, exec (.edBaseline 0#2 0#2 0#2 .discard) (withTables [0x94, 0x5A, 0xED, 0x6F]) = .next t) :=
  ⟨by decide, ⟨_, rfl⟩, ⟨_, rfl⟩⟩

/-- DC symbols 16, 15, 12, 11 (codes "0", "10", "110", "1110"). -/
theorem witness_DcFirstShiftsTheSumNotThePredictor :
    let sl := buildSlot (#v[1, 1, 1, 1, 0, 0, 0, 0, 0, 0, 0, 0, 0, 0, 0, 0]) (padBytes 256 [16, 15, 12, 11])
    (slotDecode (sourceOf [0x7F]) sl Reader.reset).1.sym = 16#8 ∧ (slotDecode (sourceOf [0xBF]) sl Reader.reset).1.sym = 15#8 ∧
    (slotDecode (sourceOf [0xDF]) sl Reader.reset).1.sym = 12#8 ∧ (slotDecode (sourceOf [0xEF]) sl Reader.reset).1.sym = 11#8 ∧
    (2#2).toNat ≤ 2 := by decide +kernel

theorem witness_DcRefineOrsOneBit : (2#2).toNat ≤ 2 ∧ (getBits (sourceOf [0x80]) 1 Reader.reset).1 = 1 ∧
    (getBits (sourceOf [0x7F]) 1 Reader.reset).1 = 0 := by decide +kernel

theorem witness_AcFirstHonoursTheEndOfBandRun : (2#2).toNat ≤ 2 ∧ 0 < ({ State.reset with eobrun := 1 } : State).eobrun.toNat ∧
    State.reset.eobrun.toNat = 0 ∧
    ({ State.reset with scancfg := ScanCfg.ofWord 0x00000001#32 } : State).scancfg.se.toNat <
      ({ State.reset with scancfg := ScanCfg.ofWord 0x00000001#32 } : State).scancfg.ss.toNat := by decide +kernel

/-- An EOB run, a BADSYM and a finished range on the symbol loop (ACR2, ACR4, a range that is over). -/
theorem witness_AcRefineTailReadsOneBitPerNonzeroCoefficient :
    let e := fun bs k => refineLoop (sourceOf bs) ac0 1 5 64 k (State.startBlock .store (withTables bs))
    (2#2).toNat ≤ 2 ∧ (0xFFFF#16).toNat ≠ 0 ∧ ((e [0x7F] 1).stopped = false ∧ 0 < (e [0x7F] 1).run.eobrun.toNat) ∧
    (e [0xAF] 1).stopped = true ∧ ((e [] 6).stopped = false ∧ (e [] 6).run.eobrun = 0#16) := by decide +kernel

/-- Symbols 0x00 (run 0) and 0x10 (run 1) on AC0, and 0xE0 (run 14), whose largest extra value gives 32766. -/
theorem witness_EndOfBandRunArithmetic :
    let b := blockStart .store State.reset
    let run14 := buildSlot (#v[1, 0, 0, 0, 0, 0, 0, 0, 0, 0, 0, 0, 0, 0, 0, 0]) (padBytes 256 [0xE0])
    (decodeStep (sourceOf [0x7F]) ac0 b).1 = 16 * 0 ∧ (decodeStep (sourceOf [0xBC, 0x7F]) ac0 b).1 = 16 * 1 ∧
    (decodeStep (sourceOf [0x7F]) run14 b).1 = 16 * 14 ∧ (63 : Nat) ≤ 63 ∧ (14 : Nat) ≤ 14 ∧
    (acFirstEob (sourceOf [0xFF, 0x00, 0xFF, 0x00]) 14 b).eobrun = 32766#16 := by decide +kernel

/-- ACR1: NZMASK_LO = 0x4A is exact over 1..10, and the store and discard targets have one zero pattern. -/
def refineState : State :=
  { withTables [0x99, 0xFF, 0x00] with
    scancfg := ScanCfg.ofWord 0x00E10A01#32, nzmask := 0x4A, coef := ((coefOf 1 5).set 16 0xFFFE).set 3 1 }

theorem witness_AcRefineDependsOnlyOnTheZeroPattern :
    (2#2).toNat ≤ 2 ∧ refineState.scancfg.al.toNat ≤ 14 ∧
    (∀ k, k < 64 → refineState.scancfg.ss.toNat ≤ k → k ≤ refineState.scancfg.se.toNat →
      (refineState.nzmask.getLsbD k = true ↔ refineState.coef[zz k] ≠ 0#16)) ∧
    (∀ k, k < 64 → (refineState.scancfg.ss.toNat ≤ k → k ≤ refineState.scancfg.se.toNat →
      ((refineState.startBlock .store).t[zz k] = 0#16 ↔ (refineState.startBlock .discard).t[zz k] = 0#16))) ∧
    (refineState.startBlock .store).reader = (refineState.startBlock .discard).reader := by decide +kernel

theorem witness_AcCommandsChangeCoefficientsOneWay : (2#2).toNat ≤ 2 ∧ (refineState.selectTarget .store)[zz 1] ≠ 0#16 ∧
    (refineState.selectTarget .store)[zz 4] = 0#16 ∧ refineState.scancfg.ss.toNat ≤ 1 ∧ 10 ≤ refineState.scancfg.se.toNat := by decide +kernel

theorem witness_BlockCommandsConsumeBoundedBits : (2#2).toNat ≤ 2 ∧
    Instr.edAcRefine 2#2 0#2 0#2 .store ∈ blockCommands 2#2 0#2 0#2 .store := by decide

theorem witness_DcOnlyBlockIsFlat : ∀ i : Fin 64, i.val ≠ 0 → ({ State.reset with coef := coefOf 0 0x8000 } : State).coef[i] = 0#16 := by
  decide +kernel

theorem witness_IdctIntermediatesFitSixtyFourBits : ∀ n : Fin 8, |(#v[-3, 0, 1, 0, 2, 3, 0, -1] : Vector Int 8)[n]| ≤ 3 := by decide

theorem witness_UpMapFindsTheOwningSample : UpLegal frame420 1 15 15 ∧ UpLegal frame420 0 15 15 ∧ UpLegal frame420 2 0 0 ∧
    UpLegal frameGray 0 7 7 ∧ upH frame420 0 = upHmax frame420 ∧ upV frame420 0 = upVmax frame420 := by
  decide +kernel

end Sys2Proof.Tests
end

section
/-! SUPPORT. What one step can do (10_state.md R30, 20_memory.md R101): the host's oldest action, said once, and what the operand checks
of a command keep. -/

namespace Sys2Proof.Machine

/-- All that one host action can leave of a state (70_reset_and_hazards.md R353). -/
inductive HostEffect (s : State) : State → Prop where
  | read (data : Word) : HostEffect s { s with readData := data }
  | write (off : Nat) (v : Word) : HostEffect s (s.writeReg off v)
  | illegal : HostEffect s (s.raise .illegal)
  | command (i : Instr) (t : State) (h : exec i s = .next t) : HostEffect s t
  | placed (a : Word) (b : Byte) : HostEffect s { s with src := s.src.write a.toNat b }
  | poweredOn : HostEffect s s.powerOn

theorem runCommand_effect {w : Word} {s t : State} (h : runCommand w s = .next t) : HostEffect s t := by
  unfold runCommand at h
  split at h
  · exact .command _ t h
  · obtain rfl := Host.Outcome.next.inj h
    exact .illegal

theorem hostWrite_effect {off : BitVec 16} {n : Nat} {v : Word} {s t : State} (h : hostWrite off n v s = .next t) :
    HostEffect s t := by
  unfold hostWrite at h
  split at h
  · split at h
    · exact runCommand_effect h
    · obtain rfl := Host.Outcome.next.inj h
      exact .write _ v
  · cases h

theorem hostRead_effect {off : BitVec 16} {n : Nat} {s t : State} (h : hostRead off n s = .next t) : HostEffect s t := by
  unfold hostRead at h
  split at h
  · obtain rfl := Host.Outcome.next.inj h
    exact .read _
  · cases h

theorem hostStep_effect {e : HostEvent} {s t : State} (h : hostStep e s = .next t) : HostEffect s t := by
  cases e with
  | read off n => exact hostRead_effect h
  | write off n v => exact hostWrite_effect h
  | placeSrc a b => obtain rfl := Host.Outcome.next.inj h; exact .placed a b
  | powerOnReset => obtain rfl := Host.Outcome.next.inj h; exact .poweredOn

/-- With the action e pending a step is e, taken off the queue (20_memory.md R101). -/
theorem step_of_pending {s : State} {e : HostEvent} {q : List HostEvent} (h : s.hostQueue = e :: q) :
    step s = hostStep e { s with hostQueue := q } := by
  simp [step, takeEvent, h]

/-- With no action pending a step changes nothing (10_state.md R30). -/
theorem step_of_idle {s : State} (h : s.hostQueue = []) : step s = .next s := by
  simp [step, takeEvent, h]

/-- All that a step can do: nothing, or one host action. -/
theorem step_cases {s t : State} (h : step s = .next t) : t = s ∨ ∃ q, HostEffect { s with hostQueue := q } t := by
  rcases hq : s.hostQueue with _ | ⟨e, q⟩
  · rw [step_of_idle hq] at h
    exact .inl (Host.Outcome.next.inj h).symm
  · rw [step_of_pending hq] at h
    exact .inr ⟨q, hostStep_effect h⟩

/-- What holds of a command's rule and of its state with ILLEGAL raised holds of the guarded command. -/
theorem guardOperands_ind {p : State → Prop} {s run : State} {ok : Bool} (hr : ok = true → p run) (hi : p (s.raise .illegal)) :
    p (guardOperands ok s run) := by
  cases ok
  · exact hi
  · exact hr rfl

/-! ### What a register write leaves alone -/

/-- A register write changes SRCPOS and nothing else of the bit reader (10_state.md R39, R41–R43). -/
theorem writeReg_reader (off : Nat) (v : Word) (s : State) :
    ∃ p, (s.writeReg off v).reader = { s.reader with srcpos := p } := by
  unfold State.writeReg
  split
  case h_2 => exact ⟨v, rfl⟩
  case h_16 => split <;> exact ⟨s.reader.srcpos, rfl⟩
  all_goals exact ⟨s.reader.srcpos, rfl⟩

/-- The Huffman slots are read-only (10_state.md R56). -/
@[simp] theorem writeReg_ht (off : Nat) (v : Word) (s : State) : (s.writeReg off v).ht = s.ht := by
  unfold State.writeReg
  split
  case h_16 => split <;> rfl
  all_goals rfl

end Sys2Proof.Machine
end


section
/-! SUPPORT. The bit reader through every command, and its invariants through every step (41_bitreader.md R150, 10_state.md R41): one
case lemma, from which every invariant of the reader follows. -/

namespace Sys2Proof.Machine

/-- All that a command can do to the bit reader: reset it, clear it (41_bitreader.md R156), read a table body (42_huffman.md R185, R200),
skip to a restart marker (43_entropy.md R225), or only call Refill and GetBits of at most 16 bits. -/
inductive ReaderEffect (s t : State) : Instr → Prop where
  | reset (h : t.reader = Reader.reset) : ReaderEffect s t .softReset
  | brReset (h : t.reader = s.reader.clear) : ReaderEffect s t .brReset
  | scanStart (h : t.reader = s.reader.clear) : ReaderEffect s t .edScanStart
  | huffTable (h : t.reader = (parseHuffTable s.source s.reader).2) : ReaderEffect s t .htDefine
  | quantTable (h : t.reader = (parseQuantTable s.source s.reader).2) : ReaderEffect s t .qtDefine
  | restart (h : t = s.restart) : ReaderEffect s t .edRestart
  | stream (i : Instr) (h : ∀ P, Kept s.source P → P s.reader → P t.reader) : ReaderEffect s t i

theorem State.htDefine_reader (s : State) : s.htDefine.reader = (parseHuffTable s.source s.reader).2 := by
  unfold State.htDefine
  split <;> simp [*]

theorem State.qtDefine_reader (s : State) : s.qtDefine.reader = (parseQuantTable s.source s.reader).2 := by
  unfold State.qtDefine
  split <;> simp [*]

theorem toNat_le_of_bitCountOk {n : BitVec 5} (h : bitCountOk n = true) : n.toNat ≤ 16 := by
  simpa [bitCountOk, BitVec.le_def] using h

/-- A guarded command gives its reader what its rule gives it. -/
theorem guardOperands_reader {P : Reader → Prop} {s run : State} {ok : Bool} (hr : ok = true → P run.reader) (hs : P s.reader) :
    P (guardOperands ok s run).reader :=
  guardOperands_ind (p := fun u => P u.reader) hr hs

/-- A guarded block command gives the reader what its decode gives it. -/
theorem guardOperands_finishBlock_reader {P : Reader → Prop} {s u : State} {ok : Bool} {d : Mode} {lo hi : Nat} {b : BlockRun}
    (hb : P b.reader) (hs : P s.reader) : P (guardOperands ok s (State.finishBlock d lo hi b u)).reader :=
  guardOperands_reader (fun _ => by rwa [State.finishBlock_reader]) hs

theorem exec_readerEffect {i : Instr} {s t : State} (h : exec i s = .next t) : ReaderEffect s t i := by
  cases i <;> obtain rfl := Host.Outcome.next.inj h
  case softReset => exact .reset rfl
  case brReset => exact .brReset rfl
  case edScanStart => exact .scanStart rfl
  case htDefine => exact .huffTable s.htDefine_reader
  case qtDefine => exact .quantTable s.qtDefine_reader
  case edRestart => exact .restart rfl
  case nop | coefClear | idct | ccYcc | ccGray => exact .stream _ fun _ _ hs => hs
  case upMap => exact .stream _ fun _ _ hs => guardOperands_reader (fun _ => hs) hs
  case brGetbits | htReceiveExtend =>
    exact .stream _ fun _ hP hs => guardOperands_reader (fun ok => hP.getBits _ (toNat_le_of_bitCountOk ok) _ hs) hs
  case brPeekbits n =>
    refine .stream _ fun _ hP hs => guardOperands_reader (fun ok => ?_) hs
    rw [peekBits_snd]
    exact hP.refill _ (toNat_le_of_bitCountOk ok) _ hs
  case htDecode => exact .stream _ fun _ hP hs => slotDecode_kept hP _ _ hs
  case edBaseline => exact .stream _ fun _ hP hs => guardOperands_finishBlock_reader (baselineRun_kept hP _ _ _ _ hs) hs
  case edDcFirst => exact .stream _ fun _ hP hs => guardOperands_finishBlock_reader (dcFirstRun_kept hP _ _ _ _ hs) hs
  case edDcRefine => exact .stream _ fun _ hP hs => guardOperands_finishBlock_reader (dcRefineRun_kept hP _ _ hs) hs
  case edAcFirst => exact .stream _ fun _ hP hs => guardOperands_finishBlock_reader (acFirstRun_kept hP _ _ _ hs) hs
  case edAcRefine => exact .stream _ fun _ hP hs => guardOperands_finishBlock_reader (acRefineRun_kept hP _ _ _ hs) hs

/-! ### The invariants of R150 and R41 -/

/-- The reader's invariants together: its buffer (41_bitreader.md R150), and its halt and marker fields (10_state.md R41). -/
def Reader.Invariant (r : Reader) : Prop := r.Buffered ∧ r.FlagsLegal

theorem kept_invariant (m : Source) : Kept m Reader.Invariant :=
  ⟨fun n hn r h => ⟨(kept_buffered m).refill n hn r h.1, (kept_flagsLegal m).refill n hn r h.2⟩,
    fun n hn r h => ⟨(kept_buffered m).getBits n hn r h.1, (kept_flagsLegal m).getBits n hn r h.2⟩⟩

theorem Reader.reset_invariant : Reader.reset.Invariant := by
  refine ⟨⟨?_, ?_⟩, ?_, ?_, ?_⟩ <;> simp [Reader.reset, Reader.MarkerLegal]

theorem Reader.clear_buffered (r : Reader) : r.clear.Buffered := by
  constructor <;> simp

/-- The invariants say nothing of SRCPOS. -/
theorem Reader.Invariant.moved {r : Reader} (h : r.Invariant) (p : Word) : ({ r with srcpos := p } : Reader).Invariant := h

/-- The skip starts with an empty buffer and fetches nothing into it (43_entropy.md R225). -/
theorem skipToMarker_buffered (m : Source) (r : Reader) : (skipToMarker m r).Buffered := by
  obtain ⟨ha, hc, -⟩ := skipLoop_buffer m (m.left r + 1) { r with bracc := 0#32, bitcnt := 0 }
  constructor <;> simp [skipToMarker, ha, hc]

theorem skipToMarker_flagsLegal (m : Source) (r : Reader) (h : r.FlagsLegal) : (skipToMarker m r).FlagsLegal :=
  skipLoop_flagsLegal m _ _ h

/-- A marker met is the only cause of the halt: stepping over it clears both (43_entropy.md R225). -/
theorem Reader.FlagsLegal.step_over {r : Reader} (h : r.FlagsLegal) (ha : r.atRestart = true) :
    r.eos = false := by
  obtain ⟨-, -, hx⟩ := h
  simp only [Reader.atRestart, Bool.and_eq_true] at ha
  simpa [ha.1.1] using hx

theorem State.restart_invariant (s : State) (h : s.reader.FlagsLegal) : s.restart.reader.Invariant := by
  have hb := skipToMarker_buffered s.source s.reader
  have hf := skipToMarker_flagsLegal s.source s.reader h
  unfold State.restart
  simp only
  split
  · rename_i ha
    have he := hf.step_over ha
    exact ⟨hb, by simp [Reader.FlagsLegal, Reader.MarkerLegal, Reader.HaltCaused, he]⟩
  · exact ⟨hb, hf⟩

theorem exec_keeps_reader_invariant {i : Instr} {s t : State} (h : exec i s = .next t) (hs : s.reader.Invariant) :
    t.reader.Invariant := by
  cases exec_readerEffect h with
  | reset ht => exact ht ▸ Reader.reset_invariant
  | brReset ht | scanStart ht => exact ht ▸ ⟨Reader.clear_buffered _, Reader.clear_flagsLegal _⟩
  | huffTable ht => rw [ht, parseHuffTable_frame]; exact hs.moved _
  | quantTable ht => rw [ht, parseQuantTable_frame]; exact hs.moved _
  | restart ht => exact ht ▸ s.restart_invariant hs.2
  | stream _ hk => exact hk _ (kept_invariant _) hs

theorem step_keeps_reader_invariant {s t : State} (h : step s = .next t) (hs : s.reader.Invariant) : t.reader.Invariant := by
  obtain rfl | ⟨q, he⟩ := step_cases h
  · exact hs
  · cases he with
    | read | illegal | placed => exact hs
    | write off v =>
      obtain ⟨p, hp⟩ := writeReg_reader off v { s with hostQueue := q }
      exact hp ▸ hs.moved p
    | command _ _ h => exact exec_keeps_reader_invariant h hs
    | poweredOn => exact Reader.reset_invariant

/-- Settles O16: the reader's invariants are kept by Refill and GetBits, so by every command, and no other host action touches more of
the reader than SRCPOS or resets it. -/
theorem stepKeepsReaderInvariants : Obligations.StepKeepsReaderInvariants := by
  unfold Obligations.StepKeepsReaderInvariants
  intro s t hb hm hc h
  exact step_keeps_reader_invariant h ⟨hb, hm, hc⟩

end Sys2Proof.Machine
end

section
/-! SUPPORT. The frame of every command but SOFT_RESET (10_state.md R38, R43–R58, R63; 40_system.md R144), and the slot invariant of
R57. -/

namespace Sys2Proof.Machine

open Sys2Proof.Spec

/-- What the command i leaves alone: each register it does not write, SRC and the host's side, and every set bit of the bitmap. -/
structure CommandFrame (i : Instr) (s t : State) : Prop where
  src : t.src = s.src
  srcEpoch : t.srcEpoch = s.srcEpoch
  hostQueue : t.hostQueue = s.hostQueue
  readData : t.readData = s.readData
  srclen : t.srclen = s.srclen
  scancfg : t.scancfg = s.scancfg
  ccin : t.ccin = s.ccin
  ncomp : t.ncomp = s.ncomp
  compcfg : t.compcfg = s.compcfg
  ht : t.ht ≠ s.ht → i = .htDefine
  qt : t.qt ≠ s.qt → i = .qtDefine
  sample : t.sample ≠ s.sample → ∃ q, i = .idct q
  ccout : t.ccout ≠ s.ccout → i = .ccYcc ∨ i = .ccGray
  coef : t.coef ≠ s.coef → i = .coefClear ∨ blockMode i = some .store
  scratch : t.scratch ≠ s.scratch → blockMode i = some .discard
  nzmask : t.nzmask ≠ s.nzmask → (blockMode i).isSome = true
  nzmaskGrows : s.nzmask &&& t.nzmask = s.nzmask
  pred : t.pred ≠ s.pred → writesPred i = true
  eobrun : t.eobrun ≠ s.eobrun → writesEobrun i = true
  restartFields : t.reader.lastrst ≠ s.reader.lastrst ∨ t.reader.lastrstValid ≠ s.reader.lastrstValid ∨
    t.freeDraws ≠ s.freeDraws → i = .edRestart
  reader : t.reader ≠ s.reader → movesReader i = true
  consumed : t.reader.consumed ≠ s.reader.consumed → consumesBits i = true
  result : t.result ≠ s.result → writesResult i = true

/-- An illegal command changes only the recorded errors (60_exceptions.md R316). -/
theorem CommandFrame.raise (i : Instr) (e : ErrorCode) (s : State) : CommandFrame i s (s.raise e) := by
  constructor <;> simp

theorem CommandFrame.guarded {i : Instr} {s run : State} {ok : Bool} (h : CommandFrame i s run) :
    CommandFrame i s (guardOperands ok s run) :=
  guardOperands_ind (fun _ => h) (.raise i .illegal s)

/-- A command that changes only the errors, RESULT and the reader, and of the reader neither LASTRST nor, unless it consumes bits,
CONSUMED. -/
theorem CommandFrame.stream {i : Instr} {s : State} {x : Errors} {r : Reader} {w : Word} (hm : movesReader i = true)
    (hw : w ≠ s.result → writesResult i = true) (hl : r.lastrst = s.reader.lastrst ∧ r.lastrstValid = s.reader.lastrstValid)
    (hc : r.consumed ≠ s.reader.consumed → consumesBits i = true) :
    CommandFrame i s { s with errors := x, reader := r, result := w } := by
  constructor <;> simp_all

/-! ### Block commands -/

theorem consumesBits_of_blockMode {i : Instr} {d : Mode} (h : blockMode i = some d) : consumesBits i = true := by
  cases i <;> simp_all [blockMode, consumesBits]

theorem movesReader_of_consumesBits {i : Instr} (h : consumesBits i = true) : movesReader i = true := by
  cases i <;> simp_all [consumesBits, movesReader]

theorem writesResult_of_consumesBits {i : Instr} (h : consumesBits i = true) : writesResult i = true := by
  cases i <;> simp_all [consumesBits, writesResult]

/-- The registers of a finished block command (43_entropy.md R220–R222). -/
theorem CommandFrame.finishBlock {i : Instr} {d : Mode} {lo hi : Nat} {b : BlockRun} {s : State} {p : Vector Coef 3}
    (hi' : blockMode i = some d) (hp : p ≠ s.pred → writesPred i = true) (he : b.eobrun ≠ s.eobrun → writesEobrun i = true)
    (hl : b.reader.lastrst = s.reader.lastrst ∧ b.reader.lastrstValid = s.reader.lastrstValid) :
    CommandFrame i s (State.finishBlock d lo hi b { s with pred := p }) := by
  have hc := consumesBits_of_blockMode hi'
  have hm := movesReader_of_consumesBits hc
  have hw := writesResult_of_consumesBits hc
  have hn : s.nzmask &&& (s.nzmask ||| nonzeroBits b.t lo hi) = s.nzmask := by ext k hk; grind
  cases d <;> constructor <;> simp_all

@[simp] theorem baselineRun_eobrun (m : Source) (dc ac : HuffSlot) (p : Coef) (b : BlockRun) :
    (baselineRun m dc ac p b).2.eobrun = b.eobrun := by
  simp only [baselineRun]
  exact runLoop_eobrun m ac 63 0 baselineEob (· = b.eobrun) (fun _ _ _ h => h) 64 1 _ (by simp)

@[simp] theorem dcFirstRun_eobrun (m : Source) (dc : HuffSlot) (al : Nat) (p : Coef) (b : BlockRun) :
    (dcFirstRun m dc al p b).2.eobrun = b.eobrun := by
  simp [dcFirstRun]

@[simp] theorem dcRefineRun_eobrun (m : Source) (al : Nat) (b : BlockRun) : (dcRefineRun m al b).eobrun = b.eobrun := by
  simp only [dcRefineRun]
  split <;> simp

/-- LASTRST and LASTRST_VALID as a property of the reader that Refill and GetBits keep. -/
theorem kept_lastrst_of (m : Source) (r : Reader) :
    Kept m fun q => q.lastrst = r.lastrst ∧ q.lastrstValid = r.lastrstValid :=
  kept_lastrst m r.lastrst r.lastrstValid

/-! ### Table definitions and restart -/

theorem State.htDefine_frame (s : State) : CommandFrame .htDefine s s.htDefine := by
  have hr := parseHuffTable_frame s.source s.reader
  unfold State.htDefine
  split <;> rename_i heq <;> simp only [heq] at hr <;> rw [hr] <;> constructor <;> simp [movesReader, writesResult]

theorem State.qtDefine_frame (s : State) : CommandFrame .qtDefine s s.qtDefine := by
  have hr := parseQuantTable_frame s.source s.reader
  unfold State.qtDefine
  split <;> rename_i heq <;> simp only [heq] at hr <;> rw [hr] <;> constructor <;> simp [movesReader, writesResult]

/-- The skip consumes no bits (10_state.md R43). -/
theorem skipToMarker_consumed (m : Source) (r : Reader) : (skipToMarker m r).consumed = r.consumed :=
  (skipLoop_buffer m _ _).2.2.1

theorem State.restart_frame (s : State) : CommandFrame .edRestart s s.restart := by
  unfold State.restart
  simp only
  split <;> constructor <;> simp [movesReader, writesPred, writesEobrun, skipToMarker_consumed]

/-! ### Every command -/

theorem exec_frame {i : Instr} {s t : State} (h : exec i s = .next t) (hi : i ≠ .softReset) : CommandFrame i s t := by
  have hk := kept_lastrst_of s.source s.reader
  cases i <;> obtain rfl := Host.Outcome.next.inj h
  case softReset => exact absurd rfl hi
  case nop | coefClear | brReset | edScanStart | idct | ccYcc | ccGray =>
    constructor <;> simp [movesReader, consumesBits, writesPred, writesEobrun, writesResult]
  case upMap => exact .guarded (by constructor <;> simp [writesResult])
  case htDefine => exact s.htDefine_frame
  case qtDefine => exact s.qtDefine_frame
  case edRestart => exact s.restart_frame
  case brPeekbits => exact .guarded (.stream rfl (fun _ => rfl) (by simp [peekBits_snd]) (by simp [peekBits_snd]))
  case brGetbits | htReceiveExtend => exact .guarded (.stream rfl (fun _ => rfl) (by simp) fun _ => rfl)
  case htDecode => exact .stream rfl (fun _ => rfl) (slotDecode_kept hk _ _ ⟨rfl, rfl⟩) fun _ => rfl
  case edBaseline =>
    exact .guarded (.finishBlock rfl (fun _ => rfl) (by simp) (baselineRun_kept hk _ _ _ _ ⟨rfl, rfl⟩))
  case edDcFirst => exact .guarded (.finishBlock rfl (fun _ => rfl) (by simp) (dcFirstRun_kept hk _ _ _ _ ⟨rfl, rfl⟩))
  case edDcRefine =>
    exact .guarded (.finishBlock (p := s.pred) rfl (absurd rfl) (by simp) (dcRefineRun_kept hk _ _ ⟨rfl, rfl⟩))
  case edAcFirst =>
    exact .guarded (.finishBlock (p := s.pred) rfl (absurd rfl) (fun _ => rfl) (acFirstRun_kept hk _ _ _ ⟨rfl, rfl⟩))
  case edAcRefine =>
    exact .guarded (.finishBlock (p := s.pred) rfl (absurd rfl) (fun _ => rfl) (acRefineRun_kept hk _ _ _ ⟨rfl, rfl⟩))

/-- Settles O19: the frame of each command, read field by field. -/
theorem commandsWriteOnlyTheirState : Obligations.CommandsWriteOnlyTheirState := by
  unfold Obligations.CommandsWriteOnlyTheirState
  intro i s t h hi
  have f := exec_frame h hi
  exact ⟨⟨f.src, f.srcEpoch, f.hostQueue, f.readData⟩, ⟨f.srclen, f.scancfg, f.ccin, f.ncomp, f.compcfg⟩, f.ht, f.qt, f.sample,
    f.ccout, f.coef, f.scratch, f.nzmask, f.nzmaskGrows, f.pred, f.eobrun, f.restartFields, f.reader, f.consumed, f.result⟩

/-! ### The slot invariant (10_state.md R57) -/

/-- Every slot meets R57. -/
def SlotsConsistent (ht : Vector HuffSlot 8) : Prop := ∀ i : Fin 8, ht[i].Consistent

theorem slotsConsistent_reset : SlotsConsistent State.reset.ht := by
  intro i
  simpa [State.reset] using HuffSlot.reset_consistent

theorem SlotsConsistent.set {ht : Vector HuffSlot 8} (h : SlotsConsistent ht) (j : Fin 8) {sl : HuffSlot} (hs : sl.Consistent) :
    SlotsConsistent (ht.set j sl) := by
  intro i
  simp only [Fin.getElem_fin, Vector.getElem_set]
  split
  · exact hs
  · exact h i

/-- HT_DEFINE writes one slot, which meets R57, or none (42_huffman.md R185). -/
theorem State.htDefine_slotsConsistent (s : State) (h : SlotsConsistent s.ht) : SlotsConsistent s.htDefine.ht := by
  unfold State.htDefine
  split
  · exact h
  · rename_i heq
    obtain ⟨c, vs, rfl, hok, hn, hl⟩ := parseHuffTable_ok heq
    exact h.set _ (buildSlot_consistent c vs hok hn hl)

theorem exec_keeps_slotsConsistent {i : Instr} {s t : State} (h : exec i s = .next t) (hs : SlotsConsistent s.ht) :
    SlotsConsistent t.ht := by
  by_cases hd : i = .htDefine
  · subst hd
    obtain rfl := Host.Outcome.next.inj h
    exact s.htDefine_slotsConsistent hs
  · by_cases hr : i = .softReset
    · subst hr
      obtain rfl := Host.Outcome.next.inj h
      exact slotsConsistent_reset
    · have : t.ht = s.ht := by_contra fun hne => hd ((exec_frame h hr).ht hne)
      rwa [this]

theorem step_keeps_slotsConsistent {s t : State} (h : step s = .next t) (hs : SlotsConsistent s.ht) : SlotsConsistent t.ht := by
  obtain rfl | ⟨q, he⟩ := step_cases h
  · exact hs
  · cases he with
    | read | illegal | placed => exact hs
    | write off v => rwa [writeReg_ht]
    | command _ _ h => exact exec_keeps_slotsConsistent h hs
    | poweredOn => exact slotsConsistent_reset

/-- Settles O17: HT_DEFINE builds a slot from COUNTS and HUFFVAL that passed its checks, and no other action but a reset writes one. -/
theorem stepKeepsSlotsConsistent : Obligations.StepKeepsSlotsConsistent := by
  unfold Obligations.StepKeepsSlotsConsistent
  intro s t hs h
  exact step_keeps_slotsConsistent h hs

end Sys2Proof.Machine
end

section
/-! SUPPORT. SRCPOS through every command (10_state.md R31, 20_memory.md R92, 70_reset_and_hazards.md R160). -/

namespace Sys2Proof.Machine

/-- SRCPOS stands from `lo` on and not past SRCLEN. -/
def Reader.Within (m : Source) (lo : Nat) (r : Reader) : Prop := lo ≤ r.srcpos.toNat ∧ r.srcpos.toNat ≤ m.len.toNat

/-- A raw read moves SRCPOS forward by at most the one byte that stands before SRCLEN (20_memory.md R92). -/
theorem srcRead_within {m : Source} {lo : Nat} {r : Reader} (h : r.Within m lo) : (srcRead m r).2.Within m lo := by
  obtain ⟨h1, h2⟩ := h
  rcases srcRead_cases m r with ⟨-, he⟩ | ⟨hlt, he⟩ <;> rw [he]
  · exact ⟨h1, h2⟩
  · have := srcpos_succ_toNat hlt
    constructor <;> simp only <;> bv_omega

/-- What every raw read keeps, n raw reads keep. -/
theorem readBytes_ind {m : Source} {P : Reader → Prop} (hP : ∀ r, P r → P (srcRead m r).2) (n : Nat) {r : Reader} (h : P r) :
    P (readBytes m n r).2 := by
  induction n generalizing r with
  | zero => exact h
  | succ n ih =>
    have h1 := hP r h
    simp only [readBytes]
    rcases hs : srcRead m r with ⟨_ | b, r'⟩ <;> rw [hs] at h1
    · exact h1
    · have h2 := ih h1
      rcases hb : readBytes m n r' with ⟨_ | bs, r''⟩ <;> simp only [hb] at h2 ⊢ <;> exact h2

/-- What every raw read keeps, a Huffman table definition keeps (42_huffman.md R185). -/
theorem parseHuffTable_ind {m : Source} {P : Reader → Prop} (hP : ∀ r, P r → P (srcRead m r).2) {r : Reader} (h : P r) :
    P (parseHuffTable m r).2 := by
  have h1 := hP r h
  unfold parseHuffTable
  rcases hs : srcRead m r with ⟨_ | t, r1⟩ <;> simp only [hs] at h1 ⊢
  · exact h1
  · split
    · exact h1
    · have h2 := readBytes_ind hP 16 h1
      rcases hb : readBytes m 16 r1 with ⟨_ | cs, r2⟩ <;> simp only [hb] at h2 ⊢
      · exact h2
      · split
        · exact h2
        · have h3 := readBytes_ind hP (firstIndex (padBytes 16 cs) 16) h2
          rcases hv : readBytes m (firstIndex (padBytes 16 cs) 16) r2 with ⟨_ | vs, r3⟩ <;> simp only [hv] at h3 ⊢
          · exact h3
          · split <;> exact h3

/-- What every raw read keeps, a quantisation table definition keeps (42_huffman.md R200). -/
theorem parseQuantTable_ind {m : Source} {P : Reader → Prop} (hP : ∀ r, P r → P (srcRead m r).2) {r : Reader} (h : P r) :
    P (parseQuantTable m r).2 := by
  have h1 := hP r h
  unfold parseQuantTable
  rcases hs : srcRead m r with ⟨_ | t, r1⟩ <;> simp only [hs] at h1 ⊢
  · exact h1
  · split
    · exact h1
    · have h2 := readBytes_ind hP (if t.getLsbD 4 then 128 else 64) h1
      rcases hb : readBytes m (if t.getLsbD 4 then 128 else 64) r1 with ⟨_ | bs, r2⟩ <;> simp only [hb] at h2 ⊢ <;> exact h2

/-! ### FetchDataByte -/

/-- Where a marker is detected, its 0xFF and its code byte both stand before SRCLEN (41_bitreader.md R151). -/
def Reader.MarkerInside (m : Source) (r : Reader) : Prop := r.markerValid = true → r.srcpos.toNat + 2 ≤ m.len.toNat

/-- After a 0xFF at `lo`, with n valid bytes left, SRCPOS stays within SRC, and a marker found stands inside it. -/
theorem afterFF_within {m : Source} {lo n : Nat} {r : Reader} (hlo : lo < r.srcpos.toNat) (hn : r.srcpos.toNat + n ≤ m.len.toNat) :
    (afterFF m n r).2.Within m lo ∧ (r.markerValid = false → (afterFF m n r).2.MarkerInside m) := by
  have := m.len.isLt
  induction n generalizing r with
  | zero => exact ⟨⟨by simp [afterFF]; omega, by simp [afterFF]; omega⟩, fun hv => by simp [afterFF, Reader.MarkerInside, hv]⟩
  | succ n ih =>
    have hs : (r.srcpos + 1#32).toNat = r.srcpos.toNat + 1 := by bv_omega
    have hp : (r.srcpos - 1#32).toNat = r.srcpos.toNat - 1 := by bv_omega
    simp only [afterFF]
    split
    · exact ⟨⟨by simp only; omega, by simp only; omega⟩, fun hv => by simp [Reader.MarkerInside, hv]⟩
    · split
      · exact ih (by simp only; omega) (by simp only; omega)
      · exact ⟨⟨by simp; omega, by simp; omega⟩, fun _ _ => by simp; omega⟩

/-- FetchDataByte moves SRCPOS forward within SRC, and a marker it finds stands inside SRC (41_bitreader.md R151). -/
theorem fetchDataByte_within {m : Source} {lo : Nat} {r : Reader} (h : r.Within m lo) :
    (fetchDataByte m r).2.Within m lo ∧ (r.markerValid = false → (fetchDataByte m r).2.MarkerInside m) := by
  obtain ⟨h1, h2⟩ := h
  rcases srcRead_cases m r with ⟨-, he⟩ | ⟨hlt, he⟩ <;> simp only [fetchDataByte, he]
  · exact ⟨⟨h1, h2⟩, fun hv => by simp [Reader.MarkerInside, hv]⟩
  · have hs := srcpos_succ_toNat hlt
    have hl : r.srcpos.toNat < m.len.toNat := hlt
    split
    · exact afterFF_within (r := { r with srcpos := r.srcpos + 1#32 }) (by simp only; omega)
        (by simp only [Source.left]; omega)
    · exact ⟨⟨by simp only; omega, by simp only; omega⟩, fun hv => by simp [Reader.MarkerInside, hv]⟩

/-! ### Refill and GetBits -/

theorem refillLoop_within {m : Source} {lo n : Nat} (fuel : Nat) {r : Reader} (h : r.Within m lo) :
    (refillLoop m n fuel r).Within m lo := by
  induction fuel generalizing r with
  | zero => exact h
  | succ fuel ih =>
    have hf := (fetchDataByte_within h).1
    simp only [refillLoop]
    split
    · rcases he : fetchDataByte m r with ⟨_ | b, r'⟩ <;> rw [he] at hf <;> exact ih hf
    · exact h

/-- No stream operation moves SRCPOS back or past SRCLEN. -/
theorem kept_within (m : Source) (lo : Nat) : Kept m (Reader.Within m lo) :=
  ⟨fun n _ _ h => refillLoop_within n h, fun n _ _ h => by rw [getBits_eq]; exact refillLoop_within n h⟩

/-! ### The restart skip -/

/-- What the skip keeps: SRCPOS within SRC, and a marker, which only a halted reader has, inside it. -/
def Reader.Skipping (m : Source) (lo : Nat) (r : Reader) : Prop :=
  r.Within m lo ∧ r.MarkerInside m ∧ (r.markerValid = true → r.halt = true)

theorem Reader.Skipping.fetch {m : Source} {lo : Nat} {r : Reader} (h : r.Skipping m lo) (hh : r.halt = false) :
    (fetchDataByte m r).2.Skipping m lo := by
  obtain ⟨hw, -, hv⟩ := h
  have hv' : r.markerValid = false := by simpa [hh] using hv
  obtain ⟨h1, h2⟩ := fetchDataByte_within hw
  refine ⟨h1, h2 hv', ?_⟩
  rcases fetchDataByte_cases m r with ⟨b, p, e⟩ | ⟨p, e⟩ | ⟨p, x, -, -, e⟩ <;> simp [e, hv']

theorem skipLoop_skipping {m : Source} {lo : Nat} (fuel : Nat) {r : Reader} (h : r.Skipping m lo) :
    (skipLoop m fuel r).Skipping m lo := by
  induction fuel generalizing r with
  | zero => exact h
  | succ fuel ih =>
    simp only [skipLoop]
    split
    · exact h
    · rename_i hh
      exact ih (h.fetch (by simpa using hh))

/-- A reader whose HALT has its meaning and is 0 holds no marker, so the one the skip stops at lies inside SRC. -/
theorem skipToMarker_skipping {m : Source} {lo : Nat} {r : Reader} (h : r.Within m lo) (hc : r.HaltCaused) (hh : r.halt = false) :
    (skipToMarker m r).Skipping m lo := by
  have hv : r.markerValid = false := by
    have := hc.1
    simp_all
  exact skipLoop_skipping _ ⟨h, by simp [Reader.MarkerInside, hv], by simp [hv]⟩

/-- Stepping over a marker inside SRC leaves SRCPOS within SRC (43_entropy.md R225). -/
theorem State.restart_within {s : State} (h : s.reader.Within s.source s.reader.srcpos.toNat) (hc : s.reader.HaltCaused)
    (hh : s.reader.halt = false) : s.restart.reader.Within s.source s.reader.srcpos.toNat := by
  obtain ⟨hw, hi, -⟩ := skipToMarker_skipping h hc hh
  have := s.source.len.isLt
  unfold State.restart
  simp only
  split
  · rename_i ha
    have hv : (skipToMarker s.source s.reader).markerValid = true := by
      simp only [Reader.atRestart, Bool.and_eq_true] at ha
      exact ha.1.1
    have h2 := hi hv
    obtain ⟨h1, -⟩ := hw
    have hsum : ((skipToMarker s.source s.reader).srcpos + 2#32).toNat = (skipToMarker s.source s.reader).srcpos.toNat + 2 := by
      bv_omega
    have hfit : (skipToMarker s.source s.reader).srcpos.toNat + 2 < 2 ^ 32 := by omega
    constructor <;> simp only [stepOverMarker, if_pos hfit] <;> omega
  · exact hw

/-! ### Every command -/

theorem exec_within {i : Instr} {s t : State} (h : exec i s = .next t) (hw : s.reader.Within s.source s.reader.srcpos.toNat)
    (hc : s.reader.HaltCaused) (hi : i ≠ .softReset) (hh : i = .edRestart → s.reader.halt = false) :
    t.reader.Within s.source s.reader.srcpos.toNat := by
  cases exec_readerEffect h with
  | reset => exact absurd rfl hi
  | brReset ht | scanStart ht => rw [ht]; exact hw
  | huffTable ht => rw [ht]; exact parseHuffTable_ind (fun _ => srcRead_within) hw
  | quantTable ht => rw [ht]; exact parseQuantTable_ind (fun _ => srcRead_within) hw
  | restart ht => rw [ht]; exact State.restart_within hw hc (hh rfl)
  | stream _ hk => exact hk _ (kept_within _ _) hw

/-- Settles O24: every read of the reader moves SRCPOS forward within SRC, and a marker stands at least two bytes before SRCLEN. -/
theorem srcposMovesForwardWithinSrclen : Obligations.SrcposMovesForwardWithinSrclen := by
  unfold Obligations.SrcposMovesForwardWithinSrclen
  intro i s t hc hs hi hh h
  rw [(exec_frame h hi).srclen]
  exact exec_within h ⟨le_refl _, hs⟩ hc hi hh

end Sys2Proof.Machine
end

section
/-! SUPPORT. Recorded errors and what a command computes (10_state.md R63, 60_exceptions.md R310): two runs that differ in their errors
alone stay so. -/

namespace Sys2Proof.Machine

/-- Two working states of a block command that differ at most in the recorded errors. -/
def BlockRun.Alike (b b' : BlockRun) : Prop := ∃ x, b' = { b with errors := x }

/-- Two ends of AC-refine's symbol loop that differ at most in the recorded errors. -/
def RefineEnd.Alike (e e' : RefineEnd) : Prop := e'.stopped = e.stopped ∧ e'.k = e.k ∧ e.run.Alike e'.run

/-- Two states that differ at most in the recorded errors. -/
def State.Alike (s s' : State) : Prop := ∃ x, s' = { s with errors := x }

namespace BlockRun.Alike

variable {b b' : BlockRun} {m : Source}

theorem refl (b : BlockRun) : b.Alike b := ⟨b.errors, rfl⟩

theorem reader (h : b.Alike b') : b'.reader = b.reader := by obtain ⟨x, rfl⟩ := h; rfl
theorem t (h : b.Alike b') : b'.t = b.t := by obtain ⟨x, rfl⟩ := h; rfl
theorem eobrun (h : b.Alike b') : b'.eobrun = b.eobrun := by obtain ⟨x, rfl⟩ := h; rfl

theorem raise (h : b.Alike b') (e : ErrorCode) : (b.raise e).Alike (b'.raise e) := by obtain ⟨x, rfl⟩ := h; exact ⟨_, rfl⟩
theorem setAt (h : b.Alike b') (k : Nat) (v : Int) : (b.setAt k v).Alike (b'.setAt k v) := by obtain ⟨x, rfl⟩ := h; exact ⟨_, rfl⟩
theorem withEobrun (h : b.Alike b') (n : BitVec 16) : ({ b with eobrun := n } : BlockRun).Alike { b' with eobrun := n } := by
  obtain ⟨x, rfl⟩ := h; exact ⟨_, rfl⟩
theorem withTarget (h : b.Alike b') (u : Block) : ({ b with t := u } : BlockRun).Alike { b' with t := u } := by
  obtain ⟨x, rfl⟩ := h; exact ⟨_, rfl⟩

/-! The stream operations return the same value, and leave runs alike. -/

theorem decode (h : b.Alike b') (sl : HuffSlot) :
    (b'.decode m sl).1 = (b.decode m sl).1 ∧ (b.decode m sl).2.Alike (b'.decode m sl).2 := by
  obtain ⟨x, rfl⟩ := h; exact ⟨rfl, _, rfl⟩
theorem getBits (h : b.Alike b') (n : Nat) :
    (b'.getBits m n).1 = (b.getBits m n).1 ∧ (b.getBits m n).2.Alike (b'.getBits m n).2 := by
  obtain ⟨x, rfl⟩ := h; exact ⟨rfl, _, rfl⟩
theorem receiveExtend (h : b.Alike b') (n : Nat) :
    (b'.receiveExtend m n).1 = (b.receiveExtend m n).1 ∧ (b.receiveExtend m n).2.Alike (b'.receiveExtend m n).2 := by
  obtain ⟨x, rfl⟩ := h; exact ⟨rfl, _, rfl⟩

/-! ### The operations of the block commands -/

theorem dcDiff (h : b.Alike b') (sl : HuffSlot) :
    (Machine.dcDiff m sl b').1 = (Machine.dcDiff m sl b).1 ∧ (Machine.dcDiff m sl b).2.Alike (Machine.dcDiff m sl b').2 := by
  obtain ⟨hd, ha⟩ := h.decode (m := m) sl
  simp only [Machine.dcDiff, hd]
  split
  · exact ⟨rfl, ha.raise _⟩
  · split
    · exact (ha.raise _).receiveExtend _
    · exact ha.receiveExtend _

theorem runLoop {sl : HuffSlot} {hi al : Nat} {eob : Nat → BlockRun → BlockRun}
    (he : ∀ r {b b' : BlockRun}, b.Alike b' → (eob r b).Alike (eob r b')) (fuel k : Nat) (h : b.Alike b') :
    (Machine.runLoop m sl hi al eob fuel k b).Alike (Machine.runLoop m sl hi al eob fuel k b') := by
  induction fuel generalizing k b b' with
  | zero => exact h
  | succ fuel ih =>
    obtain ⟨hd, ha⟩ := h.decode (m := m) sl
    obtain ⟨hv, hr⟩ := ha.receiveExtend (m := m) ((b.decode m sl).1 % 16)
    simp only [Machine.runLoop, hd, hv]
    split
    · exact h
    · split
      · split
        · exact ih _ ha
        · exact he _ ha
      · split
        · exact hr.raise _
        · exact ih _ (hr.setAt _ _)

theorem correct (h : b.Alike b') (p1 : Int) (k : Nat) : (Machine.correct m p1 k b).Alike (Machine.correct m p1 k b') := by
  obtain ⟨hg, ha⟩ := h.getBits (m := m) 1
  simp only [Machine.correct, hg, ha.t]
  split
  · exact ha.setAt _ _
  · exact ha

theorem passLoop (p1 : Int) (se fuel k r : Nat) (h : b.Alike b') :
    (Machine.passLoop m p1 se fuel k r b').1 = (Machine.passLoop m p1 se fuel k r b).1 ∧
      (Machine.passLoop m p1 se fuel k r b).2.Alike (Machine.passLoop m p1 se fuel k r b').2 := by
  induction fuel generalizing k r b b' with
  | zero => exact ⟨rfl, h⟩
  | succ fuel ih =>
    simp only [Machine.passLoop, h.t]
    split
    · exact ⟨rfl, h⟩
    · split
      · exact ih _ _ (h.correct _ _)
      · split
        · exact ⟨rfl, h⟩
        · exact ih _ _ h

theorem tailLoop (p1 : Int) (se fuel k : Nat) (h : b.Alike b') :
    (Machine.tailLoop m p1 se fuel k b).Alike (Machine.tailLoop m p1 se fuel k b') := by
  induction fuel generalizing k b b' with
  | zero => exact h
  | succ fuel ih =>
    simp only [Machine.tailLoop, h.t]
    split
    · exact h
    · split
      · exact ih _ (h.correct _ _)
      · exact ih _ h

theorem newValue (h : b.Alike b') (p1 : Int) (size : Nat) :
    (Machine.newValue m p1 size b').1 = (Machine.newValue m p1 size b).1 ∧
      (Machine.newValue m p1 size b).2.Alike (Machine.newValue m p1 size b').2 := by
  obtain ⟨hg, ha⟩ := h.getBits (m := m) 1
  simp only [Machine.newValue, hg]
  split
  · exact ⟨rfl, ha⟩
  · exact ⟨rfl, h⟩

theorem placeNew (h : b.Alike b') (se k : Nat) (new : Option Int) :
    (Machine.placeNew se k new b).Alike (Machine.placeNew se k new b') := by
  cases new with
  | none => exact h
  | some v =>
    simp only [Machine.placeNew]
    split
    · exact h.setAt k v
    · exact h.raise _

theorem refineLoop {ac : HuffSlot} (p1 : Int) (se fuel k : Nat) (h : b.Alike b') :
    (Machine.refineLoop m ac p1 se fuel k b).Alike (Machine.refineLoop m ac p1 se fuel k b') := by
  induction fuel generalizing k b b' with
  | zero => exact ⟨rfl, rfl, h⟩
  | succ fuel ih =>
    obtain ⟨hd, ha⟩ := h.decode (m := m) ac
    obtain ⟨hg, hb⟩ := ha.getBits (m := m) ((b.decode m ac).1 / 16)
    obtain ⟨hn, hv⟩ := ha.newValue (m := m) p1 ((b.decode m ac).1 % 16)
    obtain ⟨hk, hp⟩ := hv.passLoop (m := m) p1 se 64 k ((b.decode m ac).1 / 16)
    simp only [Machine.refineLoop, hd, hg, hn, hk]
    split
    · exact ⟨rfl, rfl, h⟩
    · split
      · exact ⟨rfl, rfl, hb.withEobrun _⟩
      · split
        · exact ⟨rfl, rfl, ha.raise _⟩
        · exact ih _ (hp.placeNew _ _ _)

theorem refineTail (p1 : Int) (se k : Nat) (h : b.Alike b') :
    (Machine.refineTail m p1 se k b).Alike (Machine.refineTail m p1 se k b') := by
  have ht := h.tailLoop (m := m) p1 se 64 k
  simp only [Machine.refineTail, h.eobrun, ht.eobrun]
  split
  · exact ht.withEobrun _
  · exact h

/-! ### The decodes of the five block commands -/

theorem baselineRun (h : b.Alike b') (dc ac : HuffSlot) (p : Coef) :
    (Machine.baselineRun m dc ac p b').1 = (Machine.baselineRun m dc ac p b).1 ∧
      (Machine.baselineRun m dc ac p b).2.Alike (Machine.baselineRun m dc ac p b').2 := by
  obtain ⟨hd, ha⟩ := (h.withTarget (Vector.replicate 64 0#16)).dcDiff (m := m) dc
  simp only [Machine.baselineRun, hd]
  exact ⟨trivial, (ha.setAt _ _).runLoop (fun _ _ _ h => h) 64 1⟩

theorem dcFirstRun (h : b.Alike b') (dc : HuffSlot) (al : Nat) (p : Coef) :
    (Machine.dcFirstRun m dc al p b').1 = (Machine.dcFirstRun m dc al p b).1 ∧
      (Machine.dcFirstRun m dc al p b).2.Alike (Machine.dcFirstRun m dc al p b').2 := by
  obtain ⟨hd, ha⟩ := h.dcDiff (m := m) dc
  simp only [Machine.dcFirstRun, hd]
  exact ⟨trivial, ha.setAt _ _⟩

theorem dcRefineRun (h : b.Alike b') (al : Nat) : (Machine.dcRefineRun m al b).Alike (Machine.dcRefineRun m al b') := by
  obtain ⟨hg, ha⟩ := h.getBits (m := m) 1
  simp only [Machine.dcRefineRun, hg, ha.t]
  split
  · exact ha.withTarget _
  · exact ha

theorem acFirstEob (h : b.Alike b') (r : Nat) : (Machine.acFirstEob m r b).Alike (Machine.acFirstEob m r b') := by
  obtain ⟨hg, ha⟩ := h.getBits (m := m) r
  simp only [Machine.acFirstEob, hg]
  exact ha.withEobrun _

theorem acFirstRun (h : b.Alike b') (ac : HuffSlot) (cfg : ScanCfg) :
    (Machine.acFirstRun m ac cfg b).Alike (Machine.acFirstRun m ac cfg b') := by
  simp only [Machine.acFirstRun, h.eobrun]
  split
  · exact h.withEobrun _
  · exact h.runLoop (fun r _ _ h => h.acFirstEob r) 64 _

theorem acRefineRun (h : b.Alike b') (ac : HuffSlot) (cfg : ScanCfg) :
    (Machine.acRefineRun m ac cfg b).Alike (Machine.acRefineRun m ac cfg b') := by
  have ended {e e' : RefineEnd} (he : e.Alike e') (p1 : Int) (se : Nat) :
      (if e.stopped then e.run else Machine.refineTail m p1 se e.k e.run).Alike
        (if e'.stopped then e'.run else Machine.refineTail m p1 se e'.k e'.run) := by
    obtain ⟨hs, hk, hr⟩ := he
    rw [hs, hk]
    split
    · exact hr
    · exact hr.refineTail p1 se e.k
  simp only [Machine.acRefineRun, h.eobrun]
  split
  · exact ended (h.refineLoop _ _ 64 _) _ _
  · exact ended (e := ⟨false, cfg.ss.toNat, b⟩) (e' := ⟨false, cfg.ss.toNat, b'⟩) ⟨rfl, rfl, h⟩ _ _

end BlockRun.Alike

/-! ### Every command -/

namespace State.Alike

variable {s s' : State}

theorem guarded (h : s.Alike s') {run run' : State} (hr : run.Alike run') (ok : Bool) :
    (guardOperands ok s run).Alike (guardOperands ok s' run') := by
  obtain ⟨x, rfl⟩ := h
  cases ok
  · exact ⟨_, rfl⟩
  · exact hr

theorem startBlock (h : s.Alike s') (d : Mode) : (s.startBlock d).Alike (s'.startBlock d) := by
  obtain ⟨x, rfl⟩ := h
  cases d <;> exact ⟨x, rfl⟩

theorem finishBlock (h : s.Alike s') {b b' : BlockRun} (hb : b.Alike b') (d : Mode) (lo hi : Nat) :
    (State.finishBlock d lo hi b s).Alike (State.finishBlock d lo hi b' s') := by
  obtain ⟨x, rfl⟩ := h
  obtain ⟨y, rfl⟩ := hb
  cases d <;> exact ⟨y, rfl⟩

theorem withPred (h : s.Alike s') (p : Vector Coef 3) : ({ s with pred := p } : State).Alike { s' with pred := p } := by
  obtain ⟨x, rfl⟩ := h; exact ⟨x, rfl⟩

theorem htDefine (s : State) (x : Errors) : s.htDefine.Alike { s with errors := x }.htDefine := by
  have hp : parseHuffTable ({ s with errors := x } : State).source s.reader = parseHuffTable s.source s.reader := rfl
  unfold State.htDefine
  simp only [hp]
  split <;> exact ⟨_, rfl⟩

theorem qtDefine (s : State) (x : Errors) : s.qtDefine.Alike { s with errors := x }.qtDefine := by
  have hp : parseQuantTable ({ s with errors := x } : State).source s.reader = parseQuantTable s.source s.reader := rfl
  unfold State.qtDefine
  simp only [hp]
  split <;> exact ⟨_, rfl⟩

theorem restart (s : State) (x : Errors) : s.restart.Alike { s with errors := x }.restart := by
  have hp : skipToMarker ({ s with errors := x } : State).source s.reader = skipToMarker s.source s.reader := rfl
  unfold State.restart
  simp only [hp]
  split <;> exact ⟨_, rfl⟩

end State.Alike

/-- A command leaves states that differ in their errors alone alike. -/
theorem exec_alike (i : Instr) {s t : State} (x : Errors) (h : exec i s = .next t) :
    ∃ t', exec i { s with errors := x } = .next t' ∧ t.Alike t' := by
  have hs : s.Alike { s with errors := x } := ⟨x, rfl⟩
  cases i <;> obtain rfl := Host.Outcome.next.inj h <;> refine ⟨_, rfl, ?_⟩
  case nop => exact hs
  case softReset | coefClear | brReset | edScanStart | idct | ccYcc | ccGray | htDecode => exact ⟨_, rfl⟩
  case brGetbits | brPeekbits | htReceiveExtend | upMap => exact hs.guarded ⟨x, rfl⟩ _
  case htDefine => exact .htDefine s x
  case qtDefine => exact .qtDefine s x
  case edRestart => exact .restart s x
  case edBaseline c td ta d =>
    obtain ⟨hp, hb⟩ := (hs.startBlock d).baselineRun (m := s.source) (s.slot .dc td) (s.slot .ac ta) (s.predOf c)
    exact hs.guarded (.finishBlock (hp ▸ hs.withPred _) hb d 0 63) _
  case edDcFirst c td _ d =>
    obtain ⟨hp, hb⟩ := (hs.startBlock d).dcFirstRun (m := s.source) (s.slot .dc td) s.scancfg.al.toNat (s.predOf c)
    exact hs.guarded (.finishBlock (hp ▸ hs.withPred _) hb d 0 0) _
  case edDcRefine d => exact hs.guarded (hs.finishBlock ((hs.startBlock d).dcRefineRun _) d 0 0) _
  case edAcFirst d => exact hs.guarded (hs.finishBlock ((hs.startBlock d).acFirstRun _ _) d _ _) _
  case edAcRefine d => exact hs.guarded (hs.finishBlock ((hs.startBlock d).acRefineRun _ _) d _ _) _

/-- Settles O22: every operation of a command on states alike returns the same value and leaves them alike. -/
theorem errorsNeverChangeComputation : Obligations.ErrorsNeverChangeComputation := by
  unfold Obligations.ErrorsNeverChangeComputation
  intro i s t x h
  obtain ⟨t', ht, y, rfl⟩ := exec_alike i x h
  exact ⟨y, ht⟩

end Sys2Proof.Machine
end

section
/-! SUPPORT. The CMD write, the STATUS write and the reset state (10_state.md R36, R37, R64). -/

namespace Sys2Proof.Machine

/-- A CMD write executes its word (30_encoding.md R113). -/
theorem step_of_pending_command {s : State} {w : Word} {q : List HostEvent} (h : s.hostQueue = .write cmdOffset 4 w :: q) :
    step s = runCommand w { s with hostQueue := q } := by
  rw [step_of_pending h]
  rfl

/-- A legal word executes as the command it decodes to (30_encoding.md R113). -/
theorem runCommand_of_decode {w : Word} {i : Instr} (h : decode w = .ok i) (s : State) : runCommand w s = exec i s := by
  simp [runCommand, h]

/-- The word `withFetchWord` puts before the host's actions. -/
theorem withFetchWord_hostQueue (s : State) (w : Word) :
    (s.withFetchWord 32 w.toNat).hostQueue = .write cmdOffset 4 w :: s.hostQueue := by
  rw [State.withFetchWord, Nat.mod_eq_of_lt w.isLt, BitVec.ofNat_toNat, BitVec.setWidth_eq]
  rfl

/-- Settles O5: the CMD write is the step, and its word decodes. -/
theorem stepRunsDecodedCommand : Obligations.StepRunsDecodedCommand := by
  unfold Obligations.StepRunsDecodedCommand
  intro s w i h
  refine ⟨fun q hq => ?_, ?_⟩
  · rw [step_of_pending_command hq, runCommand_of_decode h]
  · rw [step_of_pending_command (withFetchWord_hostQueue s w), runCommand_of_decode h]
    rfl

/-- An aligned register write to another offset than CMD stores its value (10_state.md R33). -/
theorem step_of_pending_write {s : State} {off : BitVec 16} {v : Word} {q : List HostEvent} (h : s.hostQueue = .write off 4 v :: q)
    (ha : off.toNat % 4 = 0) (hc : off ≠ cmdOffset) :
    step s = .next (({ s with hostQueue := q } : State).writeReg off.toNat v) := by
  rw [step_of_pending h]
  simp [hostStep, hostWrite, wordAccess, ha, hc]

/-- Settles O9: bit i of the sticky field is bit i + 8 of the written word. -/
theorem statusWriteClearsWrittenOnes : Obligations.StatusWriteClearsWrittenOnes := by
  unfold Obligations.StatusWriteClearsWrittenOnes
  intro s w q h
  refine ⟨s.errors.write w, step_of_pending_write h (by decide) (by decide), fun i hi => ?_, rfl⟩
  simp [Errors.write, hi, Nat.add_comm]

/-- Settles O15: the reset reader is empty and not halted, every slot is undefined, no error is recorded and SRC is empty. -/
theorem resetStateIsGood : Obligations.ResetStateIsGood := by
  unfold Obligations.ResetStateIsGood
  obtain ⟨hb, hm, hc⟩ := Reader.reset_invariant
  refine ⟨⟨hb, hm, hc, slotsConsistent_reset, ?_, State.reset_src_wf⟩, rfl⟩
  simp [Errors.CodeLegal, State.reset, Errors.reset]

end Sys2Proof.Machine
end

section
/-! SUPPORT. What every register reads (10_state.md R34–R58, 00_scope.md R11): one lemma per region of the register space, and the packed
registers as numbers. -/

namespace Sys2Proof.Machine

open Sys2Proof.Spec

/-! ### The regions of the register space -/

theorem readReg_control (s : State) {off : Nat} (h : off < 0x100) : s.readReg off = s.controlReg off := if_pos h

theorem readReg_coef (s : State) {i : Nat} (h : i < 64) : s.readReg (0x0100 + 4 * i) = s.coef[i].signExtend 32 := by
  have hi : (0x0100 + 4 * i - 0x0100) / 4 = i := by omega
  simp (disch := omega) only [State.readReg, if_neg, if_pos, hi, entry_of_lt]

theorem readReg_scratch (s : State) {i : Nat} (h : i < 64) : s.readReg (0x0200 + 4 * i) = s.scratch[i].signExtend 32 := by
  have hi : (0x0200 + 4 * i - 0x0200) / 4 = i := by omega
  simp (disch := omega) only [State.readReg, if_neg, if_pos, hi, entry_of_lt]

theorem readReg_sample (s : State) {i : Nat} (h : i < 64) : s.readReg (0x0300 + 4 * i) = s.sample[i].setWidth 32 := by
  have hi : (0x0300 + 4 * i - 0x0300) / 4 = i := by omega
  simp (disch := omega) only [State.readReg, if_neg, if_pos, hi, entry_of_lt]

theorem readReg_slot (s : State) {n off : Nat} (hn : n < 8) (h : off < 0x1000) :
    s.readReg (0x1000 + 0x1000 * n + off) = s.ht[n].reg off := by
  have hq : (0x1000 + 0x1000 * n + off) / 0x1000 - 1 = n := by omega
  have hr : (0x1000 + 0x1000 * n + off) % 0x1000 = off := by omega
  simp (disch := omega) only [State.readReg, if_neg, if_pos, hq, hr, Vector.getElem?_eq_getElem, Option.getD_some]

theorem readReg_qt (s : State) {q i : Nat} (hq : q < 4) (hi : i < 64) :
    s.readReg (0x9000 + 0x100 * q + 4 * i) = s.qt[q][i].setWidth 32 := by
  have h1 : (0x9000 + 0x100 * q + 4 * i - 0x9000) / 0x100 = q := by omega
  have h2 : (0x9000 + 0x100 * q + 4 * i) % 0x100 / 4 = i := by omega
  simp (disch := omega) only [State.readReg, if_neg, if_pos, h1, h2, Vector.getElem?_eq_getElem, Option.getD_some, entry_of_lt]

/-! ### The packed registers as numbers -/

theorem toNat_append_eq {m n : Nat} (x : BitVec m) (y : BitVec n) : (x ++ y).toNat = x.toNat * 2 ^ n + y.toNat := by
  rw [BitVec.toNat_append, ← Nat.shiftLeft_add_eq_or_of_lt y.isLt, Nat.shiftLeft_eq]

@[simp] theorem flagBit_toNat (b : Bool) : (flagBit b).toNat = bit b := by cases b <;> rfl

theorem status_toNat (s : State) : s.status.toNat = statusValue s := by
  simp only [State.status, statusValue, toNat_append_eq, flagBit_toNat, BitVec.toNat_ofNat]
  omega

theorem brstate_toNat (r : Reader) : r.brstate.toNat = brstateValue r := by
  simp only [Reader.brstate, brstateValue, toNat_append_eq, flagBit_toNat, BitVec.toNat_ofNat]
  omega

theorem scancfg_toNat (c : ScanCfg) :
    c.word.toNat = c.ss.toNat + c.se.toNat * 2 ^ 8 + c.ah.toNat * 2 ^ 16 + c.al.toNat * 2 ^ 20 := by
  simp only [ScanCfg.word, toNat_append_eq, BitVec.toNat_ofNat]
  omega

theorem compcfg_toNat (f : CompCfg) : f.word.toNat = compcfgValue f := by
  simp only [CompCfg.word, compcfgValue, toNat_append_eq, BitVec.toNat_ofNat]
  omega

/-! ### FRAMECFG's computed fields (10_state.md R50) -/

theorem comp_of_lt (s : State) {j : Nat} (h : j < 3) : s.comp j = s.compcfg[j] := by
  simp [State.comp, h]

/-- The factors of the frame's components are those of 45_color_upsample.md R294. -/
theorem factors_eq (s : State) : s.factors = (List.range s.ncomp.toNat).map fun j => (upH s j, upV s j) := by
  have hn := s.ncomp.isLt
  by_cases h : s.ncomp = 1#2
  · simp [State.factors, upH, upV, h]
  · have hne : s.ncomp.toNat ≠ 1 := fun hc => h (BitVec.eq_of_toNat_eq hc)
    rw [State.factors, if_neg h]
    apply List.ext_getElem
    · simp; omega
    · intro j h1 h2
      simp only [List.length_map, List.length_range] at h2
      simp [upH, upV, hne, comp_of_lt s (show j < 3 by omega)]

theorem hMax_factors (s : State) : hMax s.factors = upHmax s := by
  simp [hMax, upHmax, factors_eq, List.foldl_map]

theorem vMax_factors (s : State) : vMax s.factors = upVmax s := by
  simp [vMax, upVmax, factors_eq, List.foldl_map]

theorem foldl_max_le {b : Nat} {l : List Nat} (h : ∀ x ∈ l, x ≤ b) {a : Nat} (ha : a ≤ b) : l.foldl max a ≤ b := by
  induction l generalizing a with
  | nil => exact ha
  | cons x l ih =>
    exact ih (fun y hy => h y (List.mem_cons_of_mem x hy)) (max_le ha (h x List.mem_cons_self))

theorem upH_le (s : State) (j : Nat) : upH s j ≤ 7 := by
  have := (s.comp j).h.isLt
  unfold upH
  split <;> omega

theorem upV_le (s : State) (j : Nat) : upV s j ≤ 7 := by
  have := (s.comp j).v.isLt
  unfold upV
  split <;> omega

theorem upHmax_le (s : State) : upHmax s ≤ 7 :=
  foldl_max_le (by simp only [List.forall_mem_map]; exact fun j _ => upH_le s j) (Nat.zero_le 7)

theorem upVmax_le (s : State) : upVmax s ≤ 7 :=
  foldl_max_le (by simp only [List.forall_mem_map]; exact fun j _ => upV_le s j) (Nat.zero_le 7)

theorem framecfg_toNat (s : State) : s.framecfg.toNat = s.ncomp.toNat + upHmax s * 2 ^ 8 + upVmax s * 2 ^ 12 := by
  have h1 := upHmax_le s
  have h2 := upVmax_le s
  simp only [State.framecfg, toNat_append_eq, BitVec.toNat_ofNat, hMax_factors, vMax_factors]
  omega

/-! ### A Huffman slot (10_state.md R56) -/

namespace HuffSlot

variable (sl : HuffSlot)

theorem reg_valid : (sl.reg 0x000).toNat = bit sl.valid := by
  rw [HuffSlot.reg, if_pos rfl]
  cases sl.valid <;> rfl

theorem reg_nvals : sl.reg 0x004 = sl.nvals.setWidth 32 := rfl

theorem reg_counts {j : Nat} (h : j < 16) : sl.reg (0x040 + 4 * j) = sl.counts[j].setWidth 32 := by
  have hj : (0x040 + 4 * j - 0x040) / 4 = j := by omega
  simp (disch := omega) only [HuffSlot.reg, if_neg, if_pos, hj, entry_of_lt]

theorem reg_mincode {j : Nat} (h : j < 16) : sl.reg (0x080 + 4 * j) = sl.mincode[j].setWidth 32 := by
  have hj : (0x080 + 4 * j - 0x080) / 4 = j := by omega
  simp (disch := omega) only [HuffSlot.reg, if_neg, if_pos, hj, entry_of_lt]

theorem reg_maxcode {j : Nat} (h : j < 16) : sl.reg (0x0C0 + 4 * j) = sl.maxcode[j] := by
  have hj : (0x0C0 + 4 * j - 0x0C0) / 4 = j := by omega
  simp (disch := omega) only [HuffSlot.reg, if_neg, if_pos, hj, entry_of_lt]

theorem reg_valptr {j : Nat} (h : j < 16) : sl.reg (0x100 + 4 * j) = sl.valptr[j].setWidth 32 := by
  have hj : (0x100 + 4 * j - 0x100) / 4 = j := by omega
  simp (disch := omega) only [HuffSlot.reg, if_neg, if_pos, hj, entry_of_lt]

theorem reg_huffval {i : Nat} (h : i < 256) : sl.reg (0x400 + 4 * i) = sl.huffval[i].setWidth 32 := by
  have hi : (0x400 + 4 * i - 0x400) / 4 = i := by omega
  simp (disch := omega) only [HuffSlot.reg, if_neg, if_pos, hi, entry_of_lt]

theorem reg_fast {i : Nat} (h : i < 256) : sl.reg (0x800 + 4 * i) = (sl.fastlen[i] ++ sl.fastsym[i]).setWidth 32 := by
  have hi : (0x800 + 4 * i - 0x800) / 4 = i := by omega
  simp (disch := omega) only [HuffSlot.reg, if_neg, if_pos, hi, entry_of_lt]

end HuffSlot

theorem slotReadings (s : State) (n : Fin 8) : SlotReadings s n := by
  have slot {off : Nat} (h : off < 0x1000) := readReg_slot s n.isLt h
  have widen {w : Nat} (x : BitVec w) (h : w ≤ 32) : (x.setWidth 32).toNat = x.toNat := BitVec.toNat_setWidth_of_le h
  refine ⟨?_, ?_, fun j => ⟨?_, ?_, ?_, ?_⟩, fun i => ⟨?_, ?_⟩⟩
  · exact (congrArg BitVec.toNat (slot (off := 0) (by omega))).trans (HuffSlot.reg_valid _)
  · rw [slot (by omega), HuffSlot.reg_nvals, widen _ (by omega)]; rfl
  · rw [Nat.add_assoc, slot (by omega), HuffSlot.reg_counts _ j.isLt, widen _ (by omega)]; rfl
  · rw [Nat.add_assoc, slot (by omega), HuffSlot.reg_mincode _ j.isLt, widen _ (by omega)]; rfl
  · rw [Nat.add_assoc, slot (by omega), HuffSlot.reg_maxcode _ j.isLt]; rfl
  · rw [Nat.add_assoc, slot (by omega), HuffSlot.reg_valptr _ j.isLt, widen _ (by omega)]; rfl
  · rw [Nat.add_assoc, slot (by omega), HuffSlot.reg_huffval _ i.isLt, widen _ (by omega)]; rfl
  · rw [Nat.add_assoc, slot (by omega), HuffSlot.reg_fast _ i.isLt, widen _ (by omega), toNat_append_eq]; rfl

/-! ### Where no register stands (10_state.md R33) -/

/-- The holes of a slot (10_state.md R56). -/
theorem HuffSlot.reg_of_hole (sl : HuffSlot) {off : Nat}
    (h : ¬(off = 0 ∨ off = 4 ∨ (0x040 ≤ off ∧ off < 0x140) ∨ (0x400 ≤ off ∧ off < 0xC00))) : sl.reg off = 0#32 := by
  rcases (by omega : (off < 0x040 ∧ off ≠ 0 ∧ off ≠ 4) ∨ (0x140 ≤ off ∧ off < 0x400) ∨ 0xC00 ≤ off) with h | h | h <;>
    simp (disch := omega) only [HuffSlot.reg, if_neg, if_pos]

/-- Past 0x54 no control register stands (10_state.md R34). -/
theorem controlReg_of_gt (s : State) {off : Nat} (h : 0x54 < off) : s.controlReg off = 0#32 := by
  unfold State.controlReg
  split
  case h_22 => rfl
  all_goals omega

theorem readReg_of_hole (s : State) {off : Nat} (h : ¬occupiedOffset off) : s.readReg off = 0#32 := by
  simp only [occupiedOffset] at h
  rcases (by omega :
      (0x54 < off ∧ off < 0x100) ∨ (0x400 ≤ off ∧ off < 0x1000) ∨ (0x1000 ≤ off ∧ off < 0x9000) ∨ 0x9400 ≤ off)
    with hc | hc | hc | hc <;> simp (disch := omega) only [State.readReg, if_neg, if_pos]
  · exact controlReg_of_gt s hc.1
  · exact HuffSlot.reg_of_hole _ (by omega)

/-! ### The register map -/

/-- NZMASK_LO and NZMASK_HI are the two halves of the bitmap (10_state.md R47). -/
theorem nzmask_halves (x : BitVec 64) :
    (x.extractLsb' 0 32).toNat = x.toNat % 2 ^ 32 ∧ (x.extractLsb' 32 32).toNat = x.toNat / 2 ^ 32 := by
  have := x.isLt
  simp only [BitVec.extractLsb'_toNat, Nat.shiftRight_eq_div_pow]
  omega

theorem controlReadings_read (s : State) : ∀ x ∈ controlReadings s, (s.readReg x.1).toNat = x.2 := by
  have widen {w : Nat} (x : BitVec w) (h : w ≤ 32) : (x.setWidth 32).toNat = x.toNat := BitVec.toNat_setWidth_of_le h
  obtain ⟨hlo, hhi⟩ := nzmask_halves s.nzmask
  simp only [controlReadings, List.forall_mem_append, List.forall_mem_cons, and_assoc, List.not_mem_nil, false_imp_iff, implies_true,
    and_true]
  exact ⟨rfl, rfl, status_toNat s, rfl, rfl, rfl, brstate_toNat s.reader, rfl, rfl, scancfg_toNat s.scancfg, widen s.eobrun (by omega),
    hlo, hhi, widen s.ccin (by omega), widen s.ccout (by omega), framecfg_toNat s, compcfg_toNat _, compcfg_toNat _, compcfg_toNat _⟩

/-- The predictors read sign-extended (10_state.md R46, 00_scope.md R11). -/
theorem readReg_pred (s : State) : ∀ c : Fin 3, s.readReg (0x2C + 4 * c) = s.pred[c].signExtend 32
  | 0 | 1 | 2 => rfl

theorem readsAsTheRegisterMap (s : State) : ReadsAsTheRegisterMap s := by
  refine ⟨controlReadings_read s, ?_, fun i => ⟨?_, ?_, ?_⟩, slotReadings s, fun q i => ?_, fun off _ => readReg_of_hole s⟩
  · intro c
    rw [readReg_pred, BitVec.toInt_signExtend_of_le (by omega)]
  · rw [readReg_coef s i.isLt, BitVec.toInt_signExtend_of_le (by omega)]; rfl
  · rw [readReg_scratch s i.isLt, BitVec.toInt_signExtend_of_le (by omega)]; rfl
  · rw [readReg_sample s i.isLt, BitVec.toNat_setWidth_of_le (by omega)]; rfl
  · rw [readReg_qt s q.isLt i.isLt, BitVec.toNat_setWidth_of_le (by omega)]; rfl

/-- Settles O7: what each register reads, region by region; a read keeps its data in the model's own field alone. -/
theorem hostReadHasNoSideEffect : Obligations.HostReadHasNoSideEffect := by
  unfold Obligations.HostReadHasNoSideEffect
  refine fun s => ⟨readsAsTheRegisterMap s, step_of_idle, fun off q h ha => ?_⟩
  rw [step_of_pending h]
  exact if_pos (by simp [wordAccess, ha])

end Sys2Proof.Machine
end

section
/-! SUPPORT. What a register write and a reset leave in the register space (10_state.md R33–R52, R64). -/

namespace Sys2Proof.Machine

open Sys2Proof.Spec

/-! ### Reset -/

theorem getD_replicate {α : Type} (n : Nat) (x : α) (i : Nat) : ((Vector.replicate n x)[i]?).getD x = x := by
  by_cases h : i < n <;> simp [h]

theorem entry_replicate_zero {w : Nat} (n i : Nat) : entry (Vector.replicate n 0#w) i = 0#w := by
  by_cases h : i < n
  · exact entry_replicate n 0#w h
  · exact entry_of_ge _ (by omega)

theorem HuffSlot.reset_reg (off : Nat) : HuffSlot.reset.reg off = 0#32 := by
  simp only [HuffSlot.reg, HuffSlot.reset, entry_replicate_zero]
  split_ifs <;> rfl

theorem reset_controlReg (off : Nat) : State.reset.controlReg off = if off = 0 then 0x48554646#32 else 0#32 := by
  unfold State.controlReg
  split
  case h_1 => rfl
  case h_22 => exact (if_neg (by assumption)).symm
  all_goals rfl

/-- In the reset state ID reads its constant and every other register 0 (10_state.md R64). -/
theorem readsAsReset_reset : ReadsAsReset State.reset := by
  intro off _
  by_cases hc : off < 0x100
  · rw [readReg_control _ hc, reset_controlReg]
  · have slot (n : Nat) : (State.reset.ht[n]?).getD HuffSlot.reset = HuffSlot.reset := getD_replicate 8 _ n
    have table (q : Nat) : (State.reset.qt[q]?).getD (Vector.replicate 64 0#16) = Vector.replicate 64 0#16 := getD_replicate 4 _ q
    rw [State.readReg, if_neg hc, slot, HuffSlot.reset_reg, table, if_neg (show ¬off = 0 by omega)]
    simp only [State.reset, entry_replicate_zero]
    split_ifs <;> rfl

/-- The register space is HUFFDEC's own: SRC, the host's side and the model's own fields are not read. -/
theorem resetBlock_readReg (s : State) (off : Nat) : s.resetBlock.readReg off = State.reset.readReg off := rfl
theorem powerOn_readReg (s : State) (off : Nat) : s.powerOn.readReg off = State.reset.readReg off := rfl

/-- Settles O13: power-on leaves SOFT_RESET's registers, which read as those of the reset state. -/
theorem powerOnResetsEveryRegister : Obligations.PowerOnResetsEveryRegister := by
  unfold Obligations.PowerOnResetsEveryRegister
  refine ⟨readsAsReset_reset, rfl, fun s q h => ?_⟩
  refine ⟨({ s with hostQueue := q } : State).powerOn, ({ s with hostQueue := q } : State).resetBlock, ?_, fun off ha => ?_, rfl, rfl,
    rfl⟩
  · rw [step_of_pending h]
    rfl
  · rw [powerOn_readReg]
    exact readsAsReset_reset off ha

/-! ### Register writes -/

/-- A write to COEF<i> stores its low 16 bits (10_state.md R52). -/
theorem writeReg_of_coef (s : State) (v : Word) {off : Nat} (h : 0x100 ≤ off ∧ off < 0x200) :
    s.writeReg off v = { s with coef := s.coef.setIfInBounds ((off - 0x0100) / 4) (v.setWidth 16) } := by
  unfold State.writeReg
  split
  case h_16 => exact if_pos h
  all_goals omega

/-- A write to a read-only or unoccupied offset is ignored (10_state.md R33). -/
theorem writeReg_of_not_writable (s : State) (v : Word) {off : Nat} (h : ¬writableOffset off) (h8 : off ≠ 0x08) :
    s.writeReg off v = s := by
  obtain ⟨hl, hc⟩ := not_or.mp h
  unfold State.writeReg
  split
  case h_1 => exact absurd rfl h8
  case h_16 => exact if_neg hc
  all_goals exact absurd (by decide) hl

@[simp] theorem writeReg_hostQueue (off : Nat) (v : Word) (s : State) : (s.writeReg off v).hostQueue = s.hostQueue := by
  unfold State.writeReg
  split
  case h_16 => split <;> rfl
  all_goals rfl

@[simp] theorem writeReg_src (off : Nat) (v : Word) (s : State) : (s.writeReg off v).src = s.src := by
  unfold State.writeReg
  split
  case h_16 => split <;> rfl
  all_goals rfl

/-! ### What is read back -/

theorem scancfg_readBack (v : Word) : (ScanCfg.ofWord v).word = v &&& 0x00FF3F3F#32 := by
  apply BitVec.eq_of_getLsbD_eq
  intro i hi
  simp only [ScanCfg.word, ScanCfg.ofWord, BitVec.getLsbD_append, BitVec.getLsbD_and]
  interval_cases i <;> simp

theorem compcfg_readBack (v : Word) : (CompCfg.ofWord v).word = v &&& 0x00000077#32 := by
  apply BitVec.eq_of_getLsbD_eq
  intro i hi
  simp only [CompCfg.word, CompCfg.ofWord, BitVec.getLsbD_append, BitVec.getLsbD_and]
  interval_cases i <;> simp

/-- NCOMP is FRAMECFG[1:0], and bits 7:2 read 0 (10_state.md R50). -/
theorem framecfg_low_byte (s : State) (v : Word) (h : s.ncomp = v.setWidth 2) :
    s.framecfg &&& 0x000000FF#32 = v &&& 0x00000003#32 := by
  apply BitVec.eq_of_getLsbD_eq
  intro i hi
  simp only [State.framecfg, BitVec.getLsbD_append, BitVec.getLsbD_and, h]
  interval_cases i <;> simp

/-- A field of n bits stores the low n bits. -/
theorem setWidth_setWidth_eq_and (v : Word) {n : Nat} {mask : Word} (h : n ≤ 32) (hm : mask.toNat = 2 ^ n - 1) :
    (v.setWidth n).setWidth 32 = v &&& mask := by
  have hv : v.toNat % 2 ^ n ≤ v.toNat := Nat.mod_le _ _
  apply BitVec.eq_of_toNat_eq
  rw [BitVec.toNat_setWidth_of_le h, BitVec.toNat_setWidth, BitVec.toNat_and, hm, Nat.and_two_pow_sub_one_eq_mod]

/-- NZMASK_LO and NZMASK_HI of a bitmap put together from two words (10_state.md R47). -/
theorem append_halves (x y : Word) : (x ++ y).extractLsb' 0 32 = y ∧ (x ++ y).extractLsb' 32 32 = x :=
  ⟨BitVec.extractLsb'_append_eq_right, BitVec.extractLsb'_append_eq_left⟩

theorem controlReg_readBack (s : State) (v : Word) {off : Nat}
    (h : off ∈ [0x10, 0x14, 0x24, 0x28, 0x2C, 0x30, 0x34, 0x38, 0x3C, 0x40, 0x4C, 0x50, 0x54]) :
    (s.writeReg off v).controlReg off = readBack off v := by
  simp only [List.mem_cons, List.not_mem_nil, or_false] at h
  rcases h with rfl | rfl | rfl | rfl | rfl | rfl | rfl | rfl | rfl | rfl | rfl | rfl | rfl <;>
    simp [State.controlReg, State.writeReg, readBack, State.comp, scancfg_readBack, compcfg_readBack, append_halves]
  · exact setWidth_setWidth_eq_and v (n := 16) (by omega) (by simp)
  · exact setWidth_setWidth_eq_and v (n := 24) (by omega) (by simp)

theorem coef_readBack (s : State) (v : Word) {i : Nat} (h : i < 64) :
    (s.writeReg (0x0100 + 4 * i) v).readReg (0x0100 + 4 * i) = readBack (0x0100 + 4 * i) v := by
  have hd : (0x0100 + 4 * i - 0x0100) / 4 = i := by omega
  rw [writeReg_of_coef s v (by omega), readReg_coef _ h]
  simp (disch := omega) only [readBack, hd, List.mem_cons, List.not_mem_nil, or_false, if_neg, Vector.getElem_setIfInBounds_self]

/-- A write to a writable register but FRAMECFG reads back as its mask leaves it (10_state.md R39–R52). -/
theorem writeReg_readBack (s : State) (v : Word) {off : Nat} (h : writableOffset off) (ha : off % 4 = 0) (hf : off ≠ 0x48) :
    (s.writeReg off v).readReg off = readBack off v := by
  rcases h with h | h
  · have hm : off ∈ [0x10, 0x14, 0x24, 0x28, 0x2C, 0x30, 0x34, 0x38, 0x3C, 0x40, 0x4C, 0x50, 0x54] := by
      simpa [hf] using h
    have hlt : off < 0x100 := by
      simp only [List.mem_cons, List.not_mem_nil, or_false] at hm
      omega
    rw [readReg_control _ hlt, controlReg_readBack s v hm]
  · obtain ⟨i, hi, rfl⟩ : ∃ i, i < 64 ∧ off = 0x0100 + 4 * i := ⟨(off - 0x100) / 4, by omega, by omega⟩
    exact coef_readBack s v hi

/-! ### What a write leaves unread -/

/-- No register write changes SCRATCH, SAMPLE, a Huffman slot or a quantisation table (10_state.md R53–R58). -/
theorem writeReg_readOnly_blocks (s : State) (off : Nat) (v : Word) :
    (s.writeReg off v).scratch = s.scratch ∧ (s.writeReg off v).sample = s.sample ∧ (s.writeReg off v).ht = s.ht ∧
      (s.writeReg off v).qt = s.qt := by
  unfold State.writeReg
  split
  case h_16 => split <;> exact ⟨rfl, rfl, rfl, rfl⟩
  all_goals exact ⟨rfl, rfl, rfl, rfl⟩

/-- A write outside an entry of COEF leaves the entry. -/
theorem writeReg_coef_of_ne (s : State) (v : Word) {off o : Nat} (hoff : off % 4 = 0) (ho : o % 4 = 0) (hr : 0x100 ≤ o) (h : o ≠ off) :
    entry (s.writeReg off v).coef ((o - 0x0100) / 4) = entry s.coef ((o - 0x0100) / 4) := by
  by_cases hc : 0x100 ≤ off ∧ off < 0x200
  · have hne : (off - 0x0100) / 4 ≠ (o - 0x0100) / 4 := by omega
    rw [writeReg_of_coef s v hc]
    simp [entry, hne]
  · have : (s.writeReg off v).coef = s.coef := by
      unfold State.writeReg
      split
      case h_16 => rw [if_neg hc]
      all_goals rfl
    rw [this]

/-- Outside the control registers a write is seen only where it stores. -/
theorem readReg_writeReg_of_block (s : State) (v : Word) {off o : Nat} (hoff : off % 4 = 0) (ho : o % 4 = 0) (hr : 0x100 ≤ o)
    (h : o ≠ off) : (s.writeReg off v).readReg o = s.readReg o := by
  obtain ⟨hscratch, hsample, hht, hqt⟩ := writeReg_readOnly_blocks s off v
  simp (disch := omega) only [State.readReg, if_neg, writeReg_coef_of_ne s v hoff ho hr h, hscratch, hsample, hht, hqt]

/-- Among the control registers a write is seen only where it stores, and a COMPCFG write in FRAMECFG's computed fields
(10_state.md R50). -/
theorem controlReg_writeReg_of_ne (s : State) (v : Word) {off o : Nat} (h : o ≠ off) (hf : ¬(o = 0x48 ∧ off ∈ [0x4C, 0x50, 0x54])) :
    (s.writeReg off v).controlReg o = s.controlReg o := by
  unfold State.writeReg
  split
  case h_16 => split <;> rfl
  all_goals
    unfold State.controlReg
    split <;> try rfl
    -- left: the offset written, another predictor, the other half of the bitmap, another COMPCFG
    all_goals simp_all [State.comp, append_halves]

theorem readReg_writeReg_of_ne (s : State) (v : Word) {off o : Nat} (hoff : off % 4 = 0) (ho : o % 4 = 0) (h : o ≠ off)
    (hf : ¬(o = 0x48 ∧ off ∈ [0x4C, 0x50, 0x54])) : (s.writeReg off v).readReg o = s.readReg o := by
  by_cases hr : o < 0x100
  · rw [readReg_control _ hr, readReg_control _ hr, controlReg_writeReg_of_ne s v h hf]
  · exact readReg_writeReg_of_block s v hoff ho (by omega) h

/-- Settles O10: the write stores in one register's fields, which read back as that register's mask leaves them. -/
theorem hostWriteIsReadBack : Obligations.HostWriteIsReadBack := by
  unfold Obligations.HostWriteIsReadBack
  intro s off v q h ha hcmd hstatus
  have h8 : off.toNat ≠ 0x08 := fun hc => hstatus (BitVec.eq_of_toNat_eq hc)
  have other {o : Nat} (ho : o % 4 = 0) (hne : o ≠ off.toNat) (hf : ¬(o = 0x48 ∧ off.toNat ∈ [0x4C, 0x50, 0x54])) :=
    readReg_writeReg_of_ne { s with hostQueue := q } v ha ho hne hf
  refine ⟨_, step_of_pending_write h ha hcmd, by simp, by simp, fun hw hf => ?_, ?_, fun hw => ?_, fun o => other⟩
  · exact writeReg_readBack _ v hw ha fun hc => hf (BitVec.eq_of_toNat_eq hc)
  · rintro rfl
    exact framecfg_low_byte _ v rfl
  · exact writeReg_of_not_writable _ v hw h8

end Sys2Proof.Machine
end

section
/-! SUPPORT. SRC as the host writes it and as HUFFDEC reads it (20_memory.md R91, R92), and what stops a step (20_memory.md R97). -/

namespace Sys2Proof.Machine

/-- A byte of SRC after the host has placed one (20_memory.md R91). -/
theorem byte_write (m : Source) (a x : Word) (b : Byte) :
    { m with cells := m.cells.write a.toNat b }.byte x = if x = a then b else m.byte x := by
  simp only [Source.byte, Memory.read_write, BitVec.toNat_inj]
  split <;> rfl

/-- Settles O11: the placed byte is written at its address, and SrcRead looks at SRCLEN before it looks at SRC. -/
theorem srcByteIsTheOneLastPlaced : Obligations.SrcByteIsTheOneLastPlaced := by
  unfold Obligations.SrcByteIsTheOneLastPlaced
  intro s a b q h
  exact ⟨_, step_of_pending h, rfl, fun x => byte_write s.source a x b, fun r hr => if_pos hr⟩

/-- Settles O26: the two branches of SrcRead; below SRCLEN the increment of SRCPOS does not wrap. -/
theorem srcReadReturnsByteOrSentinel : Obligations.SrcReadReturnsByteOrSentinel := by
  unfold Obligations.SrcReadReturnsByteOrSentinel
  intro m r
  refine ⟨fun h => if_pos h, fun h => ⟨r.srcpos + 1#32, srcpos_succ_toNat h, if_neg ?_⟩⟩
  exact BitVec.not_le.mpr h

/-! ### What stops a step -/

/-- Every command answers a next state, in every state (60_exceptions.md R310). -/
theorem exec_next (i : Instr) (s : State) : ∃ t, exec i s = .next t := by
  cases i <;> exact ⟨_, rfl⟩

theorem runCommand_next (w : Word) (s : State) : ∃ t, runCommand w s = .next t := by
  unfold runCommand
  split
  · exact exec_next _ s
  · exact ⟨_, rfl⟩

theorem hostWrite_next {off : BitVec 16} {n : Nat} (h : wordAccess off n = true) (v : Word) (s : State) :
    ∃ t, hostWrite off n v s = .next t := by
  rw [hostWrite, if_pos h]
  split
  · exact runCommand_next v s
  · exact ⟨_, rfl⟩

/-- A host action with a meaning answers a next state. -/
theorem hostStep_next {e : HostEvent} (h : e.isWordAccess = true) (s : State) : ∃ t, hostStep e s = .next t := by
  cases e with
  | read off n => exact ⟨_, if_pos h⟩
  | write off n v => exact hostWrite_next h v s
  | placeSrc => exact ⟨_, rfl⟩
  | powerOnReset => exact ⟨_, rfl⟩

/-- Any other host action is refused (20_memory.md R97). -/
theorem hostStep_refused {e : HostEvent} (h : e.isWordAccess = false) (s : State) :
    hostStep e s = .refused .hostAccessNotAlignedWord := by
  cases e with
  | read off n => exact if_neg (ne_true_of_eq_false h)
  | write off n v => exact if_neg (ne_true_of_eq_false h)
  | placeSrc => cases h
  | powerOnReset => cases h

/-- All three answers of a step (20_memory.md R97): it is refused where the oldest action is no aligned word access, for that reason. -/
theorem step_answers (s : State) :
    (∃ e q, s.hostQueue = e :: q ∧ e.isWordAccess = false ∧ step s = .refused .hostAccessNotAlignedWord) ∨
      ((∀ e q, s.hostQueue = e :: q → e.isWordAccess = true) ∧ ∃ t, step s = .next t) := by
  rcases hq : s.hostQueue with _ | ⟨e, q⟩
  · exact .inr ⟨by simp, s, step_of_idle hq⟩
  · rcases he : e.isWordAccess
    · exact .inl ⟨e, q, rfl, he, by rw [step_of_pending hq, hostStep_refused he]⟩
    · obtain ⟨t, ht⟩ := hostStep_next he { s with hostQueue := q }
      exact .inr ⟨by simp [he], t, by rw [step_of_pending hq, ht]⟩

/-- The events the spec gives no meaning, written out (20_memory.md R97). -/
theorem isWordAccess_eq_false_iff (e : HostEvent) : e.isWordAccess = false ↔
    ∃ (off : BitVec 16) (bytes : Nat), (e = .read off bytes ∨ ∃ v, e = .write off bytes v) ∧ (bytes ≠ 4 ∨ off.toNat % 4 ≠ 0) := by
  have access (off : BitVec 16) (n : Nat) : wordAccess off n = false ↔ n ≠ 4 ∨ off.toNat % 4 ≠ 0 := by
    simp [wordAccess, ← not_and_or]
  cases e with
  | read off n => simp [HostEvent.isWordAccess, access]
  | write off n v => simp [HostEvent.isWordAccess, access]
  | placeSrc => simp [HostEvent.isWordAccess]
  | powerOnReset => simp [HostEvent.isWordAccess]

/-- Settles O8: a step is refused by the host port alone, and nothing answers a fault. -/
theorem onlyUnalignedHostAccessIsRefused : Obligations.OnlyUnalignedHostAccessIsRefused := by
  unfold Obligations.OnlyUnalignedHostAccessIsRefused
  intro s
  simp only [← isWordAccess_eq_false_iff]
  rcases step_answers s with ⟨e, q, hq, he, hs⟩ | ⟨hw, t, hs⟩ <;> rw [hs]
  · refine ⟨fun r => ⟨?_, ?_⟩, by simp⟩
    · rintro ⟨⟩
      exact ⟨rfl, e, q, hq, he⟩
    · rintro ⟨rfl, -⟩
      rfl
  · refine ⟨fun r => ⟨nofun, ?_⟩, by simp⟩
    rintro ⟨-, e, q, hq, he⟩
    exact absurd (hw e q hq) (by simp [he])

/-! ### Runs of a host that is never refused -/

/-- No host action touches the pending ones; only its being taken off does (20_memory.md R101). -/
theorem HostEffect.hostQueue {s t : State} (h : HostEffect s t) : t.hostQueue = s.hostQueue := by
  cases h with
  | read | illegal | placed | poweredOn => rfl
  | write off v => exact writeReg_hostQueue off v s
  | command i t h =>
    by_cases hi : i = .softReset
    · subst hi
      obtain rfl := Host.Outcome.next.inj h
      rfl
    · exact (exec_frame h hi).hostQueue

/-- Every step keeps the host's pending actions legal: it only takes the oldest off. -/
theorem step_keeps_hostLegal {s t : State} (h : step s = .next t) (hs : s.HostLegal) : t.HostLegal := by
  rcases hq : s.hostQueue with _ | ⟨e, q⟩
  · rw [step_of_idle hq] at h
    exact Host.Outcome.next.inj h ▸ hs
  · rw [step_of_pending hq] at h
    unfold State.HostLegal at hs ⊢
    rw [(hostStep_effect h).hostQueue]
    simp only [hq, List.all_cons, Bool.and_eq_true] at hs
    exact hs.2

/-- A legal host's next action is not refused. -/
theorem State.HostLegal.step_next {s : State} (hs : s.HostLegal) : ∃ t, step s = .next t := by
  rcases step_answers s with ⟨e, q, hq, he, -⟩ | ⟨-, h⟩
  · simp [State.HostLegal, hq, he] at hs
  · exact h

/-- A step that is answered begins the run. -/
theorem run_of_step_next {s u : State} (h : step s = .next u) (n : Nat) : core.run (n + 1) s = core.run n u := by
  have hc : core.step s = .next u := h
  simp only [Host.Core.run, hc]

/-- Settles O14, by induction on the number of steps: each is answered, and leaves the rest of a legal host's actions. -/
theorem legalHostIsNeverStopped : Obligations.LegalHostIsNeverStopped := by
  unfold Obligations.LegalHostIsNeverStopped
  intro s n hs
  induction n generalizing s with
  | zero => exact ⟨s, rfl⟩
  | succ n ih =>
    obtain ⟨u, hu⟩ := hs.step_next
    obtain ⟨t, ht⟩ := ih u (step_keeps_hostLegal hu hs)
    exact ⟨t, (run_of_step_next hu n).trans ht⟩

end Sys2Proof.Machine
end

section
/-! SUPPORT. The bytes of SRC at and past SRCLEN (20_memory.md R90, R91): two sources that agree below it give every operation of a
command the same value and the same reader. -/

namespace Sys2Proof.Machine

/-- Two sources of one length that hold the same bytes below it. -/
structure Source.Agree (m m' : Source) : Prop where
  len : m'.len = m.len
  byte : ∀ a, a < m.len → m'.byte a = m.byte a

namespace Source.Agree

variable {m m' : Source}

/-! ### Byte reads -/

theorem srcRead (h : m.Agree m') (r : Reader) : Machine.srcRead m' r = Machine.srcRead m r := by
  simp only [Machine.srcRead, h.len]
  split
  · rfl
  · rename_i hlt
    rw [h.byte _ (BitVec.not_le.mp hlt)]

theorem readBytes (h : m.Agree m') (n : Nat) (r : Reader) : Machine.readBytes m' n r = Machine.readBytes m n r := by
  induction n generalizing r with
  | zero => rfl
  | succ n ih => simp only [Machine.readBytes, h.srcRead, ih]

/-- The loop after a 0xFF reads only the valid bytes it has counted (41_bitreader.md R151). -/
theorem afterFF (h : m.Agree m') {n : Nat} {r : Reader} (hn : r.srcpos.toNat + n ≤ m.len.toNat) :
    Machine.afterFF m' n r = Machine.afterFF m n r := by
  have := m.len.isLt
  induction n generalizing r with
  | zero => rfl
  | succ n ih =>
    have hlt : r.srcpos < m.len := by rw [BitVec.lt_def]; omega
    have hs := srcpos_succ_toNat hlt
    simp only [Machine.afterFF, h.byte _ hlt]
    rw [ih (by simp only; omega)]

theorem fetchDataByte (h : m.Agree m') (r : Reader) : Machine.fetchDataByte m' r = Machine.fetchDataByte m r := by
  rcases srcRead_cases m r with ⟨-, he⟩ | ⟨hlt, he⟩ <;> simp only [Machine.fetchDataByte, h.srcRead, he]
  have hs := srcpos_succ_toNat hlt
  have hl : r.srcpos.toNat < m.len.toNat := hlt
  simp only [Source.left, h.len]
  rw [h.afterFF (by simp only; omega)]

/-! ### The bit reader, Decode and the table bodies -/

theorem refill (h : m.Agree m') (n : Nat) (r : Reader) : Machine.refill m' n r = Machine.refill m n r := by
  suffices H : ∀ fuel r, refillLoop m' n fuel r = refillLoop m n fuel r from H n r
  intro fuel
  induction fuel with
  | zero => exact fun _ => rfl
  | succ fuel ih => intro r; simp only [refillLoop, h.fetchDataByte, ih]

theorem peekBits (h : m.Agree m') (n : Nat) (r : Reader) : Machine.peekBits m' n r = Machine.peekBits m n r := by
  simp only [Machine.peekBits, h.refill]

theorem getBits (h : m.Agree m') (n : Nat) (r : Reader) : Machine.getBits m' n r = Machine.getBits m n r := by
  simp only [Machine.getBits, h.peekBits]

theorem slowDecode (h : m.Agree m') (sl : HuffSlot) (left code : Nat) (r : Reader) :
    Machine.slowDecode m' sl left code r = Machine.slowDecode m sl left code r := by
  induction left generalizing code r with
  | zero => rfl
  | succ left ih => simp only [Machine.slowDecode, h.getBits, ih]

theorem slotDecode (h : m.Agree m') (sl : HuffSlot) (r : Reader) : Machine.slotDecode m' sl r = Machine.slotDecode m sl r := by
  simp only [Machine.slotDecode, h.peekBits, h.getBits, h.slowDecode]

theorem receiveExtend (h : m.Agree m') (n : Nat) (r : Reader) : Machine.receiveExtend m' n r = Machine.receiveExtend m n r := by
  simp only [Machine.receiveExtend, h.getBits]

theorem parseHuffTable (h : m.Agree m') (r : Reader) : Machine.parseHuffTable m' r = Machine.parseHuffTable m r := by
  simp only [Machine.parseHuffTable, h.srcRead, h.readBytes]

theorem parseQuantTable (h : m.Agree m') (r : Reader) : Machine.parseQuantTable m' r = Machine.parseQuantTable m r := by
  simp only [Machine.parseQuantTable, h.srcRead, h.readBytes]

theorem skipToMarker (h : m.Agree m') (r : Reader) : Machine.skipToMarker m' r = Machine.skipToMarker m r := by
  suffices H : ∀ fuel r, skipLoop m' fuel r = skipLoop m fuel r by simp only [Machine.skipToMarker, Source.left, h.len, H]
  intro fuel
  induction fuel with
  | zero => exact fun _ => rfl
  | succ fuel ih => intro r; simp only [skipLoop, h.fetchDataByte, ih]

/-! ### The operations of the block commands -/

theorem blockGetBits (h : m.Agree m') (n : Nat) (b : BlockRun) : b.getBits m' n = b.getBits m n := by
  simp only [BlockRun.getBits, h.getBits]

theorem blockReceiveExtend (h : m.Agree m') (n : Nat) (b : BlockRun) : b.receiveExtend m' n = b.receiveExtend m n := by
  simp only [BlockRun.receiveExtend, h.receiveExtend]

theorem blockDecode (h : m.Agree m') (sl : HuffSlot) (b : BlockRun) : b.decode m' sl = b.decode m sl := by
  simp only [BlockRun.decode, h.slotDecode]

theorem dcDiff (h : m.Agree m') (sl : HuffSlot) (b : BlockRun) : Machine.dcDiff m' sl b = Machine.dcDiff m sl b := by
  simp only [Machine.dcDiff, h.blockDecode, h.blockReceiveExtend]

theorem runLoop (h : m.Agree m') (sl : HuffSlot) (hi al : Nat) {eob eob' : Nat → BlockRun → BlockRun}
    (he : ∀ r b, eob' r b = eob r b) (fuel k : Nat) (b : BlockRun) :
    Machine.runLoop m' sl hi al eob' fuel k b = Machine.runLoop m sl hi al eob fuel k b := by
  induction fuel generalizing k b with
  | zero => rfl
  | succ fuel ih => simp only [Machine.runLoop, h.blockDecode, h.blockReceiveExtend, he, ih]

theorem correct (h : m.Agree m') (p1 : Int) (k : Nat) (b : BlockRun) : Machine.correct m' p1 k b = Machine.correct m p1 k b := by
  simp only [Machine.correct, h.blockGetBits]

theorem passLoop (h : m.Agree m') (p1 : Int) (se fuel k r : Nat) (b : BlockRun) :
    Machine.passLoop m' p1 se fuel k r b = Machine.passLoop m p1 se fuel k r b := by
  induction fuel generalizing k r b with
  | zero => rfl
  | succ fuel ih => simp only [Machine.passLoop, h.correct, ih]

theorem tailLoop (h : m.Agree m') (p1 : Int) (se fuel k : Nat) (b : BlockRun) :
    Machine.tailLoop m' p1 se fuel k b = Machine.tailLoop m p1 se fuel k b := by
  induction fuel generalizing k b with
  | zero => rfl
  | succ fuel ih => simp only [Machine.tailLoop, h.correct, ih]

theorem newValue (h : m.Agree m') (p1 : Int) (size : Nat) (b : BlockRun) :
    Machine.newValue m' p1 size b = Machine.newValue m p1 size b := by
  simp only [Machine.newValue, h.blockGetBits]

theorem refineLoop (h : m.Agree m') (ac : HuffSlot) (p1 : Int) (se fuel k : Nat) (b : BlockRun) :
    Machine.refineLoop m' ac p1 se fuel k b = Machine.refineLoop m ac p1 se fuel k b := by
  induction fuel generalizing k b with
  | zero => rfl
  | succ fuel ih => simp only [Machine.refineLoop, h.blockDecode, h.blockGetBits, h.newValue, h.passLoop, ih]

theorem refineTail (h : m.Agree m') (p1 : Int) (se k : Nat) (b : BlockRun) :
    Machine.refineTail m' p1 se k b = Machine.refineTail m p1 se k b := by
  simp only [Machine.refineTail, h.tailLoop]

/-! ### The decodes of the five block commands -/

theorem baselineRun (h : m.Agree m') (dc ac : HuffSlot) (p : Coef) (b : BlockRun) :
    Machine.baselineRun m' dc ac p b = Machine.baselineRun m dc ac p b := by
  simp only [Machine.baselineRun, h.dcDiff, h.runLoop _ _ _ fun _ _ => rfl]

theorem dcFirstRun (h : m.Agree m') (dc : HuffSlot) (al : Nat) (p : Coef) (b : BlockRun) :
    Machine.dcFirstRun m' dc al p b = Machine.dcFirstRun m dc al p b := by
  simp only [Machine.dcFirstRun, h.dcDiff]

theorem dcRefineRun (h : m.Agree m') (al : Nat) (b : BlockRun) : Machine.dcRefineRun m' al b = Machine.dcRefineRun m al b := by
  simp only [Machine.dcRefineRun, h.blockGetBits]

theorem acFirstEob (h : m.Agree m') (r : Nat) (b : BlockRun) : Machine.acFirstEob m' r b = Machine.acFirstEob m r b := by
  simp only [Machine.acFirstEob, h.blockGetBits]

theorem acFirstRun (h : m.Agree m') (ac : HuffSlot) (cfg : ScanCfg) (b : BlockRun) :
    Machine.acFirstRun m' ac cfg b = Machine.acFirstRun m ac cfg b := by
  simp only [Machine.acFirstRun, h.runLoop _ _ _ h.acFirstEob]

theorem acRefineRun (h : m.Agree m') (ac : HuffSlot) (cfg : ScanCfg) (b : BlockRun) :
    Machine.acRefineRun m' ac cfg b = Machine.acRefineRun m ac cfg b := by
  simp only [Machine.acRefineRun, h.refineLoop, h.refineTail]

end Source.Agree

/-! ### Every command -/

/-- The state with another SRC in its place. -/
def State.withSrc (cells : Memory) (epoch : Nat) (s : State) : State := { s with src := cells, srcEpoch := epoch }

section

variable (cells : Memory) (epoch : Nat)

/-- The operand checks do not look at SRC. -/
theorem guardOperands_withSrc {s run run' : State} (h : run' = run.withSrc cells epoch) (ok : Bool) :
    guardOperands ok (s.withSrc cells epoch) run' = (guardOperands ok s run).withSrc cells epoch := by
  cases ok
  · rfl
  · exact h

/-- The end of a block command does not look at SRC. -/
theorem finishBlock_withSrc {s s' : State} (h : s' = s.withSrc cells epoch) (d : Mode) (lo hi : Nat) (b : BlockRun) :
    State.finishBlock d lo hi b s' = (State.finishBlock d lo hi b s).withSrc cells epoch := by
  subst h
  cases d <;> rfl

variable {cells epoch} {s : State} (h : s.source.Agree (s.withSrc cells epoch).source)
include h

theorem htDefine_withSrc : (s.withSrc cells epoch).htDefine = s.htDefine.withSrc cells epoch := by
  have hp : parseHuffTable (s.withSrc cells epoch).source (s.withSrc cells epoch).reader = parseHuffTable s.source s.reader :=
    h.parseHuffTable _
  unfold State.htDefine
  rw [hp]
  split <;> rfl

theorem qtDefine_withSrc : (s.withSrc cells epoch).qtDefine = s.qtDefine.withSrc cells epoch := by
  have hp : parseQuantTable (s.withSrc cells epoch).source (s.withSrc cells epoch).reader = parseQuantTable s.source s.reader :=
    h.parseQuantTable _
  unfold State.qtDefine
  rw [hp]
  split <;> rfl

theorem restart_withSrc : (s.withSrc cells epoch).restart = s.restart.withSrc cells epoch := by
  have hp : skipToMarker (s.withSrc cells epoch).source (s.withSrc cells epoch).reader = skipToMarker s.source s.reader :=
    h.skipToMarker _
  unfold State.restart
  simp only [hp]
  split <;> rfl

/-- A command leaves the same state with another SRC that agrees below SRCLEN, but for SRC itself. -/
theorem exec_withSrc {i : Instr} {t : State} (ht : exec i s = .next t) :
    exec i (s.withSrc cells epoch) = .next (t.withSrc cells epoch) := by
  cases i <;> obtain rfl := Host.Outcome.next.inj ht <;> refine congrArg Host.Outcome.next ?_
  case nop | softReset | coefClear | brReset | edScanStart | idct | ccYcc | ccGray => rfl
  case upMap => exact guardOperands_withSrc _ _ (run := { s with result := _ }) rfl _
  case htDefine => exact htDefine_withSrc h
  case qtDefine => exact qtDefine_withSrc h
  case edRestart => exact restart_withSrc h
  case brGetbits => exact guardOperands_withSrc _ _ (by rw [h.getBits]; rfl) _
  case brPeekbits => exact guardOperands_withSrc _ _ (by rw [h.peekBits]; rfl) _
  case htReceiveExtend => exact guardOperands_withSrc _ _ (by rw [h.receiveExtend]; rfl) _
  case htDecode => rw [h.slotDecode]; rfl
  case edBaseline => exact guardOperands_withSrc _ _ (by rw [h.baselineRun]; exact finishBlock_withSrc _ _ (by rfl) ..) _
  case edDcFirst => exact guardOperands_withSrc _ _ (by rw [h.dcFirstRun]; exact finishBlock_withSrc _ _ (by rfl) ..) _
  case edDcRefine => exact guardOperands_withSrc _ _ (by rw [h.dcRefineRun]; exact finishBlock_withSrc _ _ (by rfl) ..) _
  case edAcFirst => exact guardOperands_withSrc _ _ (by rw [h.acFirstRun]; exact finishBlock_withSrc _ _ (by rfl) ..) _
  case edAcRefine => exact guardOperands_withSrc _ _ (by rw [h.acRefineRun]; exact finishBlock_withSrc _ _ (by rfl) ..) _

end

/-- Settles O23: every read of SRC is below SRCLEN, so no operation of a command tells the two sources apart. -/
theorem bytesPastSrclenDoNotMatter : Obligations.BytesPastSrclenDoNotMatter := by
  unfold Obligations.BytesPastSrclenDoNotMatter
  intro i s t cells epoch hb ht
  exact exec_withSrc (cells := cells) (epoch := epoch) ⟨rfl, hb⟩ ht

end Sys2Proof.Machine
end

section
/-! SUPPORT. The recorded errors through every command and step (60_exceptions.md R311, R312): a command changes them only by raising
the errors its rule names. -/

namespace Sys2Proof.Machine

open Sys2Proof.Spec

/-- Raising the error e keeps the property P of the recorded errors. -/
def RaiseKeeps (P : Errors → Prop) (e : ErrorCode) : Prop := ∀ x, P x → P (x.raise e)

/-- Whatever error a bad decode raises keeps P (42_huffman.md R190). -/
def DecodeKeeps (P : Errors → Prop) : Prop := RaiseKeeps P .badTable ∧ RaiseKeeps P .badCode

/-! ### Decode and the block commands -/

/-- The slow path can raise BADCODE alone (42_huffman.md R190). -/
theorem slowDecode_bad (m : Source) (sl : HuffSlot) (left code : Nat) (r : Reader) :
    (slowDecode m sl left code r).1.bad = none ∨ (slowDecode m sl left code r).1.bad = some .badCode := by
  induction left generalizing code r with
  | zero =>
    simp only [slowDecode]
    split
    · exact .inl rfl
    · exact .inr rfl
  | succ left ih =>
    simp only [slowDecode]
    split
    · exact .inl rfl
    · exact ih _ _

/-- The errors Decode can raise (42_huffman.md R190). -/
theorem slotDecode_bad (m : Source) (sl : HuffSlot) (r : Reader) :
    (slotDecode m sl r).1.bad = none ∨ (slotDecode m sl r).1.bad = some .badTable ∨ (slotDecode m sl r).1.bad = some .badCode := by
  simp only [slotDecode]
  split
  · split
    · exact .inl rfl
    · exact (slowDecode_bad m sl 15 _ _).imp_right .inr
  · exact .inr (.inl rfl)

/-! Most operations of the block commands raise nothing. -/

@[simp] theorem passLoop_errors (m : Source) (p1 : Int) (se fuel k r : Nat) (b : BlockRun) :
    (passLoop m p1 se fuel k r b).2.errors = b.errors := by
  induction fuel generalizing k r b with
  | zero => rfl
  | succ fuel ih =>
    simp only [passLoop]
    split
    · rfl
    · split
      · rw [ih, correct_errors]
      · split
        · rfl
        · exact ih _ _ _

@[simp] theorem tailLoop_errors (m : Source) (p1 : Int) (se fuel k : Nat) (b : BlockRun) :
    (tailLoop m p1 se fuel k b).errors = b.errors := by
  induction fuel generalizing k b with
  | zero => rfl
  | succ fuel ih =>
    simp only [tailLoop]
    split
    · rfl
    · rw [ih]
      split
      · exact correct_errors m p1 k b
      · rfl

@[simp] theorem newValue_errors (m : Source) (p1 : Int) (size : Nat) (b : BlockRun) : (newValue m p1 size b).2.errors = b.errors := by
  simp only [newValue]
  split <;> rfl

@[simp] theorem refineTail_errors (m : Source) (p1 : Int) (se k : Nat) (b : BlockRun) :
    (refineTail m p1 se k b).errors = b.errors := by
  simp only [refineTail]
  split
  · exact tailLoop_errors m p1 se 64 k b
  · rfl

@[simp] theorem dcRefineRun_errors (m : Source) (al : Nat) (b : BlockRun) : (dcRefineRun m al b).errors = b.errors := by
  simp only [dcRefineRun]
  split <;> rfl

@[simp] theorem acFirstEob_errors (m : Source) (r : Nat) (b : BlockRun) : (acFirstEob m r b).errors = b.errors := rfl

section

variable {P : Errors → Prop} (hd : DecodeKeeps P) (hs : RaiseKeeps P .badSym) (hr : RaiseKeeps P .badRun)

/-! The others raise the errors of their rules (43_entropy.md R223, R226–R230). -/

include hr in
theorem placeNew_errors (se k : Nat) (new : Option Int) {b : BlockRun} (h : P b.errors) : P (placeNew se k new b).errors := by
  cases new with
  | none => exact h
  | some v =>
    simp only [placeNew]
    split
    · exact h
    · exact hr _ h

include hd

theorem slotDecode_errors (m : Source) (sl : HuffSlot) (r : Reader) {x : Errors} (h : P x) :
    P (x.raiseOpt (slotDecode m sl r).1.bad) := by
  rcases slotDecode_bad m sl r with he | he | he <;> rw [he]
  · exact h
  · exact hd.1 x h
  · exact hd.2 x h

theorem decode_errors (m : Source) (sl : HuffSlot) {b : BlockRun} (h : P b.errors) : P (b.decode m sl).2.errors :=
  slotDecode_errors hd m sl b.reader h

include hs in
theorem dcDiff_errors (m : Source) (sl : HuffSlot) {b : BlockRun} (h : P b.errors) : P (dcDiff m sl b).2.errors := by
  have h1 := decode_errors hd m sl h
  simp only [dcDiff]
  split
  · exact hs _ h1
  · split
    · exact hs _ h1
    · exact h1

include hr in
theorem runLoop_errors (m : Source) (sl : HuffSlot) (hi al : Nat) {eob : Nat → BlockRun → BlockRun}
    (he : ∀ r b, P b.errors → P (eob r b).errors) (fuel k : Nat) {b : BlockRun} (h : P b.errors) :
    P (runLoop m sl hi al eob fuel k b).errors := by
  induction fuel generalizing k b with
  | zero => exact h
  | succ fuel ih =>
    have h1 := decode_errors hd m sl h
    simp only [runLoop]
    split
    · exact h
    · split
      · split
        · exact ih _ h1
        · exact he _ _ h1
      · split
        · exact hr _ h1
        · exact ih _ h1

include hs hr in
theorem refineLoop_errors (m : Source) (ac : HuffSlot) (p1 : Int) (se fuel k : Nat) {b : BlockRun} (h : P b.errors) :
    P (refineLoop m ac p1 se fuel k b).run.errors := by
  induction fuel generalizing k b with
  | zero => exact h
  | succ fuel ih =>
    have h1 := decode_errors hd m ac h
    simp only [refineLoop]
    split
    · exact h
    · split
      · exact h1
      · split
        · exact hs _ h1
        · exact ih _ (placeNew_errors hr _ _ _ (by simpa using h1))

include hs hr in
theorem baselineRun_errors (m : Source) (dc ac : HuffSlot) (p : Coef) {b : BlockRun} (h : P b.errors) :
    P (baselineRun m dc ac p b).2.errors :=
  runLoop_errors hd hr m ac 63 0 (fun _ _ h => h) 64 1 (dcDiff_errors hd hs m dc h)

include hs in
theorem dcFirstRun_errors (m : Source) (dc : HuffSlot) (al : Nat) (p : Coef) {b : BlockRun} (h : P b.errors) :
    P (dcFirstRun m dc al p b).2.errors :=
  dcDiff_errors hd hs m dc h

include hr in
theorem acFirstRun_errors (m : Source) (ac : HuffSlot) (cfg : ScanCfg) {b : BlockRun} (h : P b.errors) :
    P (acFirstRun m ac cfg b).errors := by
  simp only [acFirstRun]
  split
  · exact h
  · exact runLoop_errors hd hr m ac _ _ (fun r b h => by rwa [acFirstEob_errors]) 64 _ h

include hs hr in
theorem acRefineRun_errors (m : Source) (ac : HuffSlot) (cfg : ScanCfg) {b : BlockRun} (h : P b.errors) :
    P (acRefineRun m ac cfg b).errors := by
  have ended {e : RefineEnd} (he : P e.run.errors) :
      P (if e.stopped then e.run else refineTail m (2 ^ cfg.al.toNat) cfg.se.toNat e.k e.run).errors := by
    split
    · exact he
    · rwa [refineTail_errors]
  simp only [acRefineRun]
  split
  · exact ended (refineLoop_errors hd hs hr m ac _ _ 64 _ h)
  · exact ended (e := ⟨false, cfg.ss.toNat, b⟩) h

end

/-! ### Table definitions and restart -/

/-- A failed table definition raises a parse error (60_exceptions.md R312). -/
theorem parseHuffTable_error {m : Source} {r r' : Reader} {e : ErrorCode} (h : parseHuffTable m r = (.error e, r')) :
    e.statusBit = 9 := by
  unfold parseHuffTable at h
  split at h
  · cases h; rfl
  · split at h
    · cases h; rfl
    · split at h
      · cases h; rfl
      · simp only at h
        split at h
        · cases h; rfl
        · split at h
          · cases h; rfl
          · split at h <;> cases h
            rfl

theorem parseQuantTable_error {m : Source} {r r' : Reader} {e : ErrorCode} (h : parseQuantTable m r = (.error e, r')) :
    e.statusBit = 9 := by
  unfold parseQuantTable at h
  split at h
  · cases h; rfl
  · split at h
    · cases h; rfl
    · simp only at h
      split at h <;> cases h
      rfl

section

variable {P : Errors → Prop} {s : State}

theorem State.htDefine_errors (hP : ∀ e : ErrorCode, e.statusBit = 9 → RaiseKeeps P e) (h : P s.errors) : P s.htDefine.errors := by
  unfold State.htDefine
  split
  · rename_i heq
    exact hP _ (parseHuffTable_error heq) _ h
  · exact h

theorem State.qtDefine_errors (hP : ∀ e : ErrorCode, e.statusBit = 9 → RaiseKeeps P e) (h : P s.errors) : P s.qtDefine.errors := by
  unfold State.qtDefine
  split
  · rename_i heq
    exact hP _ (parseQuantTable_error heq) _ h
  · exact h

theorem State.restart_errors (hP : RaiseKeeps P .rstMiss) (h : P s.errors) : P s.restart.errors := by
  unfold State.restart
  simp only
  split
  · exact h
  · exact hP _ h

end

/-! ### Every command -/

/-- The errors the command i can raise: those of its rule, and ILLEGAL where an operand check fails (60_exceptions.md R312, R316). -/
def CanRaise (i : Instr) (e : ErrorCode) : Prop :=
  (mayRaise i).getLsbD (e.statusBit - 8) = true ∨ (i.wellFormed = false ∧ e = .illegal)

/-- A guarded command raises ILLEGAL only where its operand check fails. -/
theorem guardOperands_errors {P : Errors → Prop} {s run : State} {ok : Bool} (hi : ok = false → RaiseKeeps P .illegal)
    (hr : P run.errors) (h : P s.errors) : P (guardOperands ok s run).errors := by
  cases ok
  · exact hi rfl _ h
  · exact hr

/-- A guarded block command has the errors of its decode, or ILLEGAL raised. -/
theorem guardOperands_finishBlock_errors {P : Errors → Prop} {s u : State} {ok : Bool} {d : Mode} {lo hi : Nat} {b : BlockRun}
    (hi' : ok = false → RaiseKeeps P .illegal) (hb : P b.errors) (h : P s.errors) :
    P (guardOperands ok s (State.finishBlock d lo hi b u)).errors :=
  guardOperands_errors hi' (by rwa [State.finishBlock_errors]) h

/-- A command other than SOFT_RESET changes the recorded errors only by raising errors it can raise: what those keep, it keeps. -/
theorem exec_errors_ind {i : Instr} {s t : State} {P : Errors → Prop} (h : exec i s = .next t) (hi : i ≠ .softReset)
    (hP : ∀ e, CanRaise i e → RaiseKeeps P e) (hs : P s.errors) : P t.errors := by
  have hill (hw : i.wellFormed = false) : RaiseKeeps P .illegal := hP _ (.inr ⟨hw, rfl⟩)
  have own {e : ErrorCode} (he : (mayRaise i).getLsbD (e.statusBit - 8) = true) : RaiseKeeps P e := hP e (.inl he)
  cases i <;> simp only [mayRaise] at own <;> obtain rfl := Host.Outcome.next.inj h
  case softReset => exact absurd rfl hi
  case nop | coefClear | brReset | edScanStart | idct | ccYcc | ccGray => exact hs
  case brGetbits | brPeekbits | htReceiveExtend => exact guardOperands_errors hill hs hs
  case upMap => exact guardOperands_errors (fun _ => own (by decide)) hs hs
  case htDefine => exact State.htDefine_errors (fun e he => own (by rw [he]; decide)) hs
  case qtDefine => exact State.qtDefine_errors (fun e he => own (by rw [he]; decide)) hs
  case edRestart => exact State.restart_errors (own (by decide)) hs
  case htDecode => exact slotDecode_errors ⟨own (by decide), own (by decide)⟩ _ _ _ hs
  case edDcRefine => exact guardOperands_finishBlock_errors hill (by rwa [dcRefineRun_errors]) hs
  all_goals
    have hd : DecodeKeeps P := ⟨own (by decide), own (by decide)⟩
    refine guardOperands_finishBlock_errors hill ?_ hs
  case edBaseline => exact baselineRun_errors hd (own (by decide)) (own (by decide)) _ _ _ _ hs
  case edDcFirst => exact dcFirstRun_errors hd (own (by decide)) _ _ _ _ hs
  case edAcFirst => exact acFirstRun_errors hd (own (by decide)) _ _ _ hs
  case edAcRefine => exact acRefineRun_errors hd (own (by decide)) (own (by decide)) _ _ _ hs

/-! ### ERRCODE and SRC through every step -/

/-- Every code of R312 is at most 10. -/
theorem Errors.CodeLegal.raise {x : Errors} (h : x.CodeLegal) (e : ErrorCode) : (x.raise e).CodeLegal := by
  by_cases hx : x.errcode = 0#4
  · rw [Errors.CodeLegal, Errors.raise_errcode_of_zero e x hx]
    cases e <;> decide
  · rwa [Errors.CodeLegal, Errors.raise_errcode_of_ne_zero e x hx]

/-- ERRCLR leaves ERRCODE or sets it to 0 (10_state.md R37). -/
theorem Errors.CodeLegal.write {x : Errors} (h : x.CodeLegal) (w : Word) : (x.write w).CodeLegal := by
  simp only [Errors.CodeLegal, Errors.write]
  split
  · decide
  · exact h

theorem Errors.reset_codeLegal : Errors.reset.CodeLegal := by
  simp [Errors.CodeLegal, Errors.reset]

/-- A register write changes the recorded errors only at STATUS (10_state.md R37). -/
theorem writeReg_errors (off : Nat) (v : Word) (s : State) :
    (s.writeReg off v).errors = s.errors ∨ (s.writeReg off v).errors = s.errors.write v := by
  unfold State.writeReg
  split
  case h_1 => exact .inr rfl
  case h_16 => split <;> exact .inl rfl
  all_goals exact .inl rfl

theorem exec_keeps_codeLegal {i : Instr} {s t : State} (h : exec i s = .next t) (hs : s.errors.CodeLegal) : t.errors.CodeLegal := by
  by_cases hi : i = .softReset
  · subst hi
    obtain rfl := Host.Outcome.next.inj h
    exact Errors.reset_codeLegal
  · exact exec_errors_ind h hi (fun e _ _ hx => hx.raise e) hs

theorem HostEffect.keeps_codeLegal {s t : State} (h : HostEffect s t) (hs : s.errors.CodeLegal) : t.errors.CodeLegal := by
  cases h with
  | read | placed => exact hs
  | illegal => exact hs.raise _
  | poweredOn => exact Errors.reset_codeLegal
  | command i t h => exact exec_keeps_codeLegal h hs
  | write off v =>
    rcases writeReg_errors off v s with he | he <;> rw [he]
    · exact hs
    · exact hs.write v

/-- No command writes SRC (20_memory.md R91). -/
theorem exec_src {i : Instr} {s t : State} (h : exec i s = .next t) : t.src = s.src := by
  by_cases hi : i = .softReset
  · subst hi
    obtain rfl := Host.Outcome.next.inj h
    rfl
  · exact (exec_frame h hi).src

/-- Only placing a byte and power-on write SRC, and both leave it canonical. -/
theorem HostEffect.keeps_src_wf {s t : State} (h : HostEffect s t) (hs : s.src.wf = true) : t.src.wf = true := by
  cases h with
  | read | illegal => exact hs
  | placed a b => exact Memory.write_wf _ _ _ hs a.isLt
  | poweredOn => rfl
  | command i t h => rwa [exec_src h]
  | write off v => rwa [writeReg_src]

/-- Settles O18: an error raised keeps ERRCODE among the codes of R312, and a byte placed keeps SRC canonical. -/
theorem stepKeepsErrcodeAndMemory : Obligations.StepKeepsErrcodeAndMemory := by
  unfold Obligations.StepKeepsErrcodeAndMemory
  intro s t he hm h
  obtain rfl | ⟨q, hq⟩ := step_cases h
  · exact ⟨he, hm⟩
  · exact ⟨hq.keeps_codeLegal he, hq.keeps_src_wf hm⟩

end Sys2Proof.Machine
end

section
/-! SUPPORT. The order of the delivered bits (20_memory.md R95): reading a + b bits is reading a bits and then b bits. Taking bits off
the buffer commutes with fetching bytes into it. -/

namespace Sys2Proof.Machine

/-! ### The buffer as a number -/

/-- Eight fresh bits enter a buffer of at most 15 bits as its low bits, and none is lost (41_bitreader.md R152). -/
theorem Reader.push_bracc_toNat {r : Reader} (h : r.Buffered) (hb : r.bitcnt ≤ 15) (x : Byte) :
    (r.push x).bracc.toNat = r.bracc.toNat * 2 ^ 8 + x.toNat := by
  have hlt : r.bracc.toNat < 2 ^ 15 := lt_of_lt_of_le h.2 (Nat.pow_le_pow_right (by norm_num) hb)
  have hx : x.toNat < 2 ^ 8 := x.isLt
  rw [Reader.push_bracc, BitVec.toNat_or, BitVec.toNat_shiftLeft, BitVec.toNat_setWidth,
    Nat.mod_eq_of_lt (a := x.toNat) (by omega), Nat.mod_eq_of_lt (by rw [Nat.shiftLeft_eq]; omega),
    ← Nat.shiftLeft_add_eq_or_of_lt hx, Nat.shiftLeft_eq]

/-- The buffer after n bits are taken off: its low bits (41_bitreader.md R154). -/
theorem Reader.consume_bracc_toNat (n : Nat) (r : Reader) :
    (r.consume n).bracc.toNat = r.bracc.toNat % 2 ^ (r.bitcnt - n) := by
  rw [Reader.consume_bracc, BitVec.toNat_ofNat]
  exact Nat.mod_eq_of_lt (lt_of_le_of_lt (Nat.mod_le _ _) r.bracc.isLt)

/-- The next n of enough buffered bits are the buffer's high bits (41_bitreader.md R153). -/
theorem Reader.top_of_le {r : Reader} (h : r.Buffered) {n : Nat} (hn : n ≤ r.bitcnt) :
    r.top n = r.bracc.toNat / 2 ^ (r.bitcnt - n) := by
  rw [Reader.top, if_pos hn]
  apply Nat.mod_eq_of_lt
  rw [Nat.div_lt_iff_lt_mul (Nat.two_pow_pos _), ← pow_add, Nat.add_sub_cancel' hn]
  exact h.2

/-- Of too few buffered bits all are delivered, and 0 after them (41_bitreader.md R153). -/
theorem Reader.top_of_ge {r : Reader} (h : r.Buffered) {n : Nat} (hn : r.bitcnt ≤ n) :
    r.top n = r.bracc.toNat * 2 ^ (n - r.bitcnt) := by
  obtain rfl | hlt := hn.eq_or_lt
  · rw [Reader.top_of_le h le_rfl]
    simp
  · rw [Reader.top, if_neg (by omega)]
    apply Nat.mod_eq_of_lt
    calc r.bracc.toNat * 2 ^ (n - r.bitcnt) < 2 ^ r.bitcnt * 2 ^ (n - r.bitcnt) := Nat.mul_lt_mul_of_pos_right h.2 (Nat.two_pow_pos _)
      _ = 2 ^ n := by rw [← pow_add, Nat.add_sub_cancel' hn]

/-- The next a + b bits are the next a, as the most significant, and the b after them. -/
theorem Reader.top_add {r : Reader} (h : r.Buffered) (a b : Nat) : r.top (a + b) = r.top a * 2 ^ b + (r.consume a).top b := by
  have hc := h.consume a
  obtain hab | hab := le_total (a + b) r.bitcnt
  · -- both parts are buffered: split the high bits at b
    rw [Reader.top_of_le h hab, Reader.top_of_le h (by omega), Reader.top_of_le hc (by simp; omega), Reader.consume_bracc_toNat,
      Reader.consume_bitcnt]
    obtain ⟨k, hk⟩ : ∃ k, r.bitcnt - a = b + k := ⟨r.bitcnt - a - b, by omega⟩
    rw [show r.bitcnt - (a + b) = k by omega, hk, Nat.add_sub_cancel_left, pow_add, Nat.mod_mul_left_div_self, mul_comm (2 ^ b),
      ← Nat.div_div_eq_div_mul]
    exact (Nat.div_add_mod' _ _).symm
  · rw [Reader.top_of_ge h hab, Reader.top_of_ge hc (by simp; omega), Reader.consume_bracc_toNat, Reader.consume_bitcnt]
    obtain ha | ha := le_total a r.bitcnt
    · -- the second part is filled up with zeros
      rw [Reader.top_of_le h ha, show b = (r.bitcnt - a) + (a + b - r.bitcnt) by omega, pow_add, ← mul_assoc,
        show a + (r.bitcnt - a + (a + b - r.bitcnt)) - r.bitcnt = a + b - r.bitcnt by omega,
        show r.bitcnt - a + (a + b - r.bitcnt) - (r.bitcnt - a) = a + b - r.bitcnt by omega, ← add_mul, Nat.div_add_mod']
    · -- the second part is zeros alone
      rw [Reader.top_of_ge h ha, Nat.sub_eq_zero_of_le ha, pow_zero, Nat.mod_one, Nat.zero_mul, Nat.add_zero, mul_assoc, ← pow_add]
      congr 2
      omega

/-- Taking a + b bits off is taking a off and then b. -/
theorem Reader.consume_add (a b : Nat) (r : Reader) : r.consume (a + b) = (r.consume a).consume b := by
  have hacc : (r.consume (a + b)).bracc = ((r.consume a).consume b).bracc := by
    apply BitVec.eq_of_toNat_eq
    rw [Reader.consume_bracc_toNat, Reader.consume_bracc_toNat, Reader.consume_bracc_toNat, Reader.consume_bitcnt,
      Nat.mod_mod_of_dvd _ (pow_dvd_pow 2 (Nat.sub_le _ _)), Nat.sub_sub]
  have hcnt : (r.consume (a + b)).bitcnt = ((r.consume a).consume b).bitcnt := (Nat.sub_sub ..).symm
  have hcons : (r.consume (a + b)).consumed = ((r.consume a).consume b).consumed := by
    simp only [Reader.consume_consumed, BitVec.ofNat_add, BitVec.add_assoc]
  simp only [Reader.consume, Reader.mk.injEq, true_and]
  exact ⟨hacc, hcnt, hcons⟩

/-- The low bits of a number with a byte appended are its own low bits with the byte appended. -/
theorem append_byte_mod (n k : Nat) {x : Nat} (hx : x < 2 ^ 8) : (n * 2 ^ 8 + x) % (2 ^ 8 * 2 ^ k) = n % 2 ^ k * 2 ^ 8 + x := by
  have hlow : (n * 2 ^ 8 + x) % 2 ^ 8 = x := by omega
  have hhigh : (n * 2 ^ 8 + x) / 2 ^ 8 = n := by omega
  rw [Nat.mod_mul, hlow, hhigh, Nat.add_comm, Nat.mul_comm]

/-- Bytes enter on the right and bits leave on the left: the order does not matter. -/
theorem Reader.push_consume {r : Reader} (h : r.Buffered) (hb : r.bitcnt ≤ 15) {a : Nat} (ha : a ≤ r.bitcnt) (x : Byte) :
    (r.consume a).push x = (r.push x).consume a := by
  have hcnt : ((r.consume a).push x).bitcnt = ((r.push x).consume a).bitcnt := by
    simp only [Reader.push_bitcnt, Reader.consume_bitcnt]
    omega
  have hacc : ((r.consume a).push x).bracc = ((r.push x).consume a).bracc := by
    apply BitVec.eq_of_toNat_eq
    rw [Reader.push_bracc_toNat (h.consume a) (by simp; omega), Reader.consume_bracc_toNat, Reader.consume_bracc_toNat,
      Reader.push_bracc_toNat h hb, Reader.push_bitcnt, show r.bitcnt + 8 - a = 8 + (r.bitcnt - a) by omega, pow_add]
    exact (append_byte_mod _ _ x.isLt).symm
  simp only [Reader.consume, Reader.push, Reader.mk.injEq, true_and, and_true]
  exact ⟨hacc, hcnt⟩

/-- An empty buffer takes a fresh byte as it is. -/
theorem Reader.push_empty {r : Reader} (h : r.Buffered) (hc : r.bitcnt = 0) (x : Byte) :
    (r.push x).bitcnt = 8 ∧ (r.push x).bracc.toNat = x.toNat := by
  have hb := h.2
  rw [hc] at hb
  rw [Reader.push_bracc_toNat h (by omega), show r.bracc.toNat = 0 by omega]
  simp [hc]

/-- A fresh byte leaves the next buffered bits as they are. -/
theorem Reader.push_top {r : Reader} (h : r.Buffered) (hb : r.bitcnt ≤ 15) {a : Nat} (ha : a ≤ r.bitcnt) (x : Byte) :
    (r.push x).top a = r.top a := by
  rw [Reader.top_of_le h ha, Reader.top_of_le (h.push hb x) (by simp; omega), Reader.push_bracc_toNat h hb, Reader.push_bitcnt,
    show r.bitcnt + 8 - a = 8 + (r.bitcnt - a) by omega, pow_add, ← Nat.div_div_eq_div_mul, Nat.add_comm (_ * _) x.toNat,
    Nat.add_mul_div_right _ _ (by norm_num), Nat.div_eq_of_lt x.isLt, Nat.zero_add]

/-! ### Fetching bytes -/

/-- The loop after a 0xFF does not look at the buffer (41_bitreader.md R151). -/
theorem afterFF_consume (m : Source) (a n : Nat) (r : Reader) :
    afterFF m n (r.consume a) = ((afterFF m n r).1, (afterFF m n r).2.consume a) := by
  induction n generalizing r with
  | zero => rfl
  | succ n ih =>
    by_cases h0 : m.byte r.srcpos = 0x00#8
    · simp only [afterFF, Reader.consume_srcpos, h0, ↓reduceIte]
      rfl
    · by_cases hff : m.byte r.srcpos = 0xFF#8
      · simp only [afterFF, Reader.consume_srcpos, hff, ↓reduceIte]
        exact ih { r with srcpos := r.srcpos + 1#32 }
      · simp only [afterFF, Reader.consume_srcpos, h0, hff, ↓reduceIte]
        rfl

/-- FetchDataByte does not look at the buffer (41_bitreader.md R151). -/
theorem fetchDataByte_consume (m : Source) (a : Nat) (r : Reader) :
    fetchDataByte m (r.consume a) = ((fetchDataByte m r).1, (fetchDataByte m r).2.consume a) := by
  rcases srcRead_cases m r with ⟨hle, he⟩ | ⟨hlt, he⟩
  · have hc : srcRead m (r.consume a) = (none, r.consume a) := if_pos hle
    simp only [fetchDataByte, he, hc]
    rfl
  · have hc : srcRead m (r.consume a) = (some (m.byte r.srcpos), Reader.consume a { r with srcpos := r.srcpos + 1#32 }) :=
      if_neg (BitVec.not_le.mpr hlt)
    simp only [fetchDataByte, he, hc]
    split
    · exact afterFF_consume m a _ { r with srcpos := r.srcpos + 1#32 }
    · rfl

/-- A loop of Refill that has its bits, or is halted, is at its end. -/
theorem refillLoop_of_done (m : Source) {n : Nat} (fuel : Nat) {r : Reader} (h : ¬(r.bitcnt < n ∧ r.halt = false)) :
    refillLoop m n fuel r = r := by
  cases fuel with
  | zero => rfl
  | succ fuel => exact if_neg h

/-- Refill(n) needs no more iterations than fill its n bits (41_bitreader.md R152). -/
theorem refillLoop_of_fuel_le (m : Source) {n fuel fuel' : Nat} (hf : fuel ≤ fuel') {r : Reader} (h : n ≤ r.bitcnt + 8 * fuel) :
    refillLoop m n fuel' r = refillLoop m n fuel r := by
  obtain ⟨k, rfl⟩ := Nat.exists_eq_add_of_le hf
  clear hf
  induction fuel generalizing r with
  | zero => rw [refillLoop_of_done m _ (by omega), refillLoop_of_done m _ (by omega)]
  | succ fuel ih =>
    rw [Nat.add_right_comm]
    simp only [refillLoop]
    split
    · rcases fetchDataByte_cases m r with ⟨b, p, he⟩ | ⟨p, he⟩ | ⟨p, x, -, -, he⟩ <;> simp only [he]
      · exact ih (by simp; omega)
      -- a halted reader fetches no more, whatever the bound
      all_goals rw [refillLoop_of_done m _ (by simp), refillLoop_of_done m _ (by simp)]
    · rfl

/-- Refill(n) is the loop of its rule, with no bound on its iterations (41_bitreader.md R152). -/
theorem refill_step (m : Source) (n : Nat) (r : Reader) :
    refill m n r =
      if r.bitcnt < n ∧ r.halt = false then
        match fetchDataByte m r with
        | (none, r') => refill m n r'
        | (some b, r') => refill m n (r'.push b)
      else r := by
  split
  · rename_i hc
    obtain ⟨n, rfl⟩ : ∃ k, n = k + 1 := ⟨n - 1, by omega⟩
    have one (q : Reader) (hq : n + 1 ≤ q.bitcnt + 8 * n ∨ q.halt = true) :
        refillLoop m (n + 1) n q = refill m (n + 1) q := by
      rcases hq with hq | hq
      · exact (refillLoop_of_fuel_le m n.le_succ hq).symm
      · rw [refill_of_halted m _ q hq, refillLoop_of_done m _ (by simp [hq])]
    rw [refill, refillLoop, if_pos hc]
    rcases fetchDataByte_cases m r with ⟨b, p, he⟩ | ⟨p, he⟩ | ⟨p, x, -, -, he⟩ <;> simp only [he]
    · exact one _ (.inl (by simp; omega))
    · exact one _ (.inr rfl)
    · exact one _ (.inr rfl)
  · exact refillLoop_of_done m n ‹_›

/-- Refilling to k bits first makes no difference to refilling to n ≥ k. -/
theorem refill_refill (m : Source) {k n : Nat} (hk : k ≤ n) (r : Reader) : refill m n (refill m k r) = refill m n r := by
  suffices H : ∀ fuel r, refill m n (refillLoop m k fuel r) = refill m n r from H k r
  intro fuel
  induction fuel with
  | zero => exact fun _ => rfl
  | succ fuel ih =>
    intro r
    simp only [refillLoop]
    split
    · rename_i hc
      rw [refill_step m n r, if_pos ⟨by omega, hc.2⟩]
      rcases fetchDataByte m r with ⟨_ | b, r'⟩ <;> exact ih _
    · rfl

/-- With a bits buffered, refilling to a + b leaves those a bits, and taking them off commutes with it. -/
theorem refillLoop_consume (m : Source) {a b : Nat} (hab : a + b ≤ 16) (fuel : Nat) {r : Reader} (h : r.Buffered) (ha : a ≤ r.bitcnt) :
    refillLoop m b fuel (r.consume a) = (refillLoop m (a + b) fuel r).consume a ∧ (refillLoop m (a + b) fuel r).top a = r.top a := by
  induction fuel generalizing r with
  | zero => exact ⟨rfl, rfl⟩
  | succ fuel ih =>
    have hc : (r.consume a).bitcnt < b ∧ (r.consume a).halt = false ↔ r.bitcnt < a + b ∧ r.halt = false :=
      and_congr_left fun _ => by rw [Reader.consume_bitcnt]; omega
    simp only [refillLoop, hc, fetchDataByte_consume]
    split
    · rcases fetchDataByte_cases m r with ⟨x, p, he⟩ | ⟨p, he⟩ | ⟨p, x, -, -, he⟩ <;> simp only [he]
      · have hq : Reader.Buffered { r with srcpos := p } := h
        have hb : r.bitcnt ≤ 15 := by omega
        have ht : (Reader.push x { r with srcpos := p }).top a = r.top a := Reader.push_top hq hb ha x
        rw [Reader.push_consume hq hb ha, ← ht]
        exact ih (hq.push hb x) (by simp; omega)
      · exact ih (r := { r with srcpos := p, halt := true, eos := true }) h ha
      · exact ih (r := { r with srcpos := p, halt := true, marker := x, markerValid := true }) h ha
    · exact ⟨rfl, rfl⟩

/-- Refilling to a, taking a bits off and refilling to b is refilling to a + b and taking a bits off; and the a bits are the same. -/
theorem refill_consume (m : Source) {a b : Nat} (hab : a + b ≤ 16) {r : Reader} (h : r.Buffered) :
    refill m b ((refill m a r).consume a) = (refill m (a + b) r).consume a ∧ (refill m (a + b) r).top a = (refill m a r).top a := by
  rw [← refill_refill m (Nat.le_add_right a b) r]
  obtain he | he := refill_enough m a r
  · have hl := refillLoop_consume m hab b (refill_buffered m a r (by omega) h) he
    rwa [← refillLoop_of_fuel_le m (n := a + b) (Nat.le_add_left b a) (by omega)] at hl
  · rw [refill_of_halted m _ _ he, refill_of_halted m _ _ (by simpa using he)]
    exact ⟨rfl, rfl⟩

/-- a + b bits are a bits and then b bits (20_memory.md R95). -/
theorem getBits_add (m : Source) {a b : Nat} (hab : a + b ≤ 16) {r : Reader} (h : r.Buffered) :
    getBits m (a + b) r =
      ((getBits m a r).1 * 2 ^ b + (getBits m b (getBits m a r).2).1, (getBits m b (getBits m a r).2).2) := by
  obtain ⟨hc, ht⟩ := refill_consume m hab h
  simp only [getBits_eq, hc, ← ht]
  rw [Reader.top_add (refill_buffered m _ r hab h), Reader.consume_add]

/-- A fresh data byte in an empty buffer (41_bitreader.md R151, R152). -/
theorem refill_of_fresh (m : Source) {n : Nat} (hn : 1 ≤ n) (hn8 : n ≤ 8) {r : Reader} (hc : r.bitcnt = 0) (hh : r.halt = false)
    (hlt : r.srcpos < m.len) (hb : m.byte r.srcpos ≠ 0xFF#8) :
    refill m n r = Reader.push (m.byte r.srcpos) { r with srcpos := r.srcpos + 1#32 } := by
  have hf : fetchDataByte m r = (some (m.byte r.srcpos), { r with srcpos := r.srcpos + 1#32 }) := by
    rcases srcRead_cases m r with ⟨hle, -⟩ | ⟨-, he⟩
    · exact absurd hlt (BitVec.not_lt.mpr hle)
    · simp [fetchDataByte, he, hb]
  rw [refill_step, if_pos ⟨by omega, hh⟩]
  simp only [hf]
  exact refill_of_enough m n _ (by simp; omega)

/-- Settles O29: the buffer is one number with the oldest bits on top; fetching extends it below, taking bits off cuts it above. -/
theorem bitsComeMostSignificantFirst : Obligations.BitsComeMostSignificantFirst := by
  unfold Obligations.BitsComeMostSignificantFirst
  intro m r h
  refine ⟨fun n hn hn8 hc hh hlt hb => ?_, fun a b hab => getBits_add m hab h⟩
  have hq : Reader.Buffered { r with srcpos := r.srcpos + 1#32 } := h
  obtain ⟨hcnt, hacc⟩ := Reader.push_empty hq hc (m.byte r.srcpos)
  rw [getBits_eq, refill_of_fresh m hn hn8 hc hh hlt hb, Reader.top_of_le (hq.push (by simp [hc]) _) (by omega), hcnt, hacc,
    Reader.consume, hcnt, hacc]
  rfl

end Sys2Proof.Machine
end

section
/-! SUPPORT. The decoder and the encoder (30_encoding.md R110–R118): a word read as the command whose opcode it carries, the operand
fields of a word and of an encoding as numbers, and the rows of the opcode table. -/

namespace Sys2Proof

open Spec

/-! ### A word read as a command of a given row -/

/-- The command of i's row with the operand fields of the word w (30_encoding.md R112, R115). -/
def Instr.withFieldsOf (w : Word) : Instr → Instr
  | .brGetbits _ => .brGetbits (fieldN w)
  | .brPeekbits _ => .brPeekbits (fieldN w)
  | .htDecode _ _ => .htDecode (fieldK w) (fieldC w)
  | .htReceiveExtend _ => .htReceiveExtend (fieldN w)
  | .edBaseline _ _ _ _ => .edBaseline (fieldC w) (fieldTd w) (fieldTa w) (fieldD w)
  | .edDcFirst _ _ _ _ => .edDcFirst (fieldC w) (fieldTd w) (fieldTa w) (fieldD w)
  | .edDcRefine _ _ _ _ => .edDcRefine (fieldC w) (fieldTd w) (fieldTa w) (fieldD w)
  | .edAcFirst _ _ _ _ => .edAcFirst (fieldC w) (fieldTd w) (fieldTa w) (fieldD w)
  | .edAcRefine _ _ _ _ => .edAcRefine (fieldC w) (fieldTd w) (fieldTa w) (fieldD w)
  | .idct _ => .idct (fieldC w)
  | .upMap _ _ _ => .upMap (fieldC w) (fieldPx w) (fieldPy w)
  | i => i

@[simp] theorem Instr.withFieldsOf_opcode (w : Word) (i : Instr) : (i.withFieldsOf w).opcode = i.opcode := by cases i <;> rfl
@[simp] theorem Instr.withFieldsOf_format (w : Word) (i : Instr) : (i.withFieldsOf w).format = i.format := by cases i <;> rfl

/-- The opcode byte selects the command, and the word gives its operands (30_encoding.md R111, R115). -/
theorem instrOfWord_of_opcode {w : Word} {i : Instr} (h : w.extractLsb' 0 8 = i.opcode) : instrOfWord w = some (i.withFieldsOf w) := by
  unfold instrOfWord
  rw [h]
  cases i <;> rfl

/-- The command a word selects has the word's opcode byte and operand fields. -/
theorem opcode_of_instrOfWord {w : Word} {i : Instr} (h : instrOfWord w = some i) :
    w.extractLsb' 0 8 = i.opcode ∧ i.withFieldsOf w = i := by
  unfold instrOfWord at h
  split at h
  case h_22 => cases h
  all_goals
    rename_i hop
    obtain rfl := Option.some.inj h
    exact ⟨BitVec.eq_of_toNat_eq hop, rfl⟩

/-- A word with i's opcode byte and 0 in the bits its format marks 0 decodes by the value checks alone (30_encoding.md R113). -/
theorem decode_of_row {w : Word} {i : Instr} (hop : w.extractLsb' 0 8 = i.opcode) (hres : w &&& i.format.reserved = 0#32) :
    decode w = if (i.withFieldsOf w).wellFormed then .ok (i.withFieldsOf w) else .error (.operandValue (i.withFieldsOf w)) := by
  simp [decode, instrOfWord_of_opcode hop, hres]

/-- What a legal word passed: the three checks of 30_encoding.md R113. -/
theorem decode_ok_cases {w : Word} {i : Instr} (h : decode w = .ok i) :
    w.extractLsb' 0 8 = i.opcode ∧ i.withFieldsOf w = i ∧ w &&& i.format.reserved = 0#32 ∧ i.wellFormed = true := by
  unfold decode at h
  split at h
  · cases h
  · rename_i j hj
    split_ifs at h with hres hwf
    obtain rfl := Except.ok.inj h
    obtain ⟨hop, hfields⟩ := opcode_of_instrOfWord hj
    exact ⟨hop, hfields, not_not.mp hres, hwf⟩

/-! ### The operand fields of a word as numbers (30_encoding.md R115) -/

/-- A field of a word is some of its binary digits. -/
theorem extractLsb'_toNat_eq (w : Word) (k v : Nat) : (w.extractLsb' k v).toNat = w.toNat / 2 ^ k % 2 ^ v := by
  rw [BitVec.extractLsb'_toNat, Nat.shiftRight_eq_div_pow]

theorem fieldN_toNat (w : Word) : (fieldN w).toNat = w.toNat / 2 ^ 8 % 2 ^ 5 := extractLsb'_toNat_eq ..
theorem fieldC_toNat (w : Word) : (fieldC w).toNat = w.toNat / 2 ^ 8 % 2 ^ 2 := extractLsb'_toNat_eq ..
theorem fieldTd_toNat (w : Word) : (fieldTd w).toNat = w.toNat / 2 ^ 10 % 2 ^ 2 := extractLsb'_toNat_eq ..
theorem fieldTa_toNat (w : Word) : (fieldTa w).toNat = w.toNat / 2 ^ 12 % 2 ^ 2 := extractLsb'_toNat_eq ..
theorem fieldPx_toNat (w : Word) : (fieldPx w).toNat = w.toNat / 2 ^ 16 % 2 ^ 5 := extractLsb'_toNat_eq ..
theorem fieldPy_toNat (w : Word) : (fieldPy w).toNat = w.toNat / 2 ^ 24 % 2 ^ 5 := extractLsb'_toNat_eq ..

/-- A class or a mode read from one bit of a word has that bit as its number. -/
theorem classBit_ofBit (b : Bool) : classBit (.ofBit b) = b.toNat := by cases b <;> rfl
theorem modeBit_ofBit (b : Bool) : modeBit (.ofBit b) = b.toNat := by cases b <;> rfl

theorem fieldK_bit (w : Word) : classBit (fieldK w) = w.toNat / 2 ^ 12 % 2 := by
  rw [fieldK, classBit_ofBit, BitVec.getLsbD, Nat.toNat_testBit]
theorem fieldD_bit (w : Word) : modeBit (fieldD w) = w.toNat / 2 ^ 16 % 2 := by
  rw [fieldD, modeBit_ofBit, BitVec.getLsbD, Nat.toNat_testBit]

/-- The bit of a class or a mode tells which it is. -/
theorem classBit_inj {k k' : HuffClass} (h : classBit k = classBit k') : k = k' := by cases k <;> cases k' <;> simp [classBit] at h ⊢
theorem modeBit_inj {d d' : Mode} (h : modeBit d = modeBit d') : d = d' := by cases d <;> cases d' <;> simp [modeBit] at h ⊢

/-! ### The encoder's word as a number (30_encoding.md R112) -/

/-- An operand shifted to its place within the word. -/
theorem shiftedField_toNat {v : Nat} (x : BitVec v) (k : Nat) (h : v + k ≤ 32) : (x.setWidth 32 <<< k).toNat = x.toNat * 2 ^ k := by
  have hlt : x.toNat * 2 ^ k < 2 ^ 32 :=
    calc x.toNat * 2 ^ k < 2 ^ v * 2 ^ k := Nat.mul_lt_mul_of_pos_right x.isLt (Nat.two_pow_pos k)
      _ = 2 ^ (v + k) := (pow_add ..).symm
      _ ≤ 2 ^ 32 := Nat.pow_le_pow_right (by norm_num) h
  rw [BitVec.toNat_shiftLeft, BitVec.toNat_setWidth_of_le (by omega), Nat.shiftLeft_eq, Nat.mod_eq_of_lt hlt]

/-- Bits put together in disjoint places add up. -/
theorem or_toNat_of_disjoint {x y : Word} {a b : Nat} (k : Nat) (hx : x.toNat = a) (hy : y.toNat = b) (ha : 2 ^ k ∣ a) (hb : b < 2 ^ k) :
    (x ||| y).toNat = a + b := by
  obtain ⟨c, rfl⟩ := ha
  rw [BitVec.toNat_or, hx, hy, Nat.two_pow_add_eq_or_of_lt hb]

theorem lowByte_toNat (op : Byte) : (op.setWidth 32).toNat = op.toNat := BitVec.toNat_setWidth_of_le (by norm_num)

/-- The opcode byte of a word that is a byte. -/
theorem lowByte_extract (op : Byte) : (op.setWidth 32).extractLsb' 0 8 = op := by
  apply BitVec.eq_of_toNat_eq
  rw [extractLsb'_toNat_eq, lowByte_toNat, pow_zero, Nat.div_one, Nat.mod_eq_of_lt op.isLt]

/-- The encoder's k and D bits are those of the rules' words. -/
theorem toBit_toNat_class (k : HuffClass) : k.toBit.toNat = classBit k := by cases k <;> rfl
theorem toBit_toNat_mode (d : Mode) : d.toBit.toNat = modeBit d := by cases d <;> rfl

/-- The word of the formats with one operand, B and Q. -/
theorem oneField_toNat {v : Nat} (x : BitVec v) (hv : v + 8 ≤ 32) (op : Byte) :
    (x.setWidth 32 <<< 8 ||| op.setWidth 32).toNat = op.toNat + x.toNat * 2 ^ 8 := by
  rw [or_toNat_of_disjoint 8 (shiftedField_toNat x 8 hv) (lowByte_toNat op) (Nat.dvd_mul_left ..) op.isLt, Nat.add_comm]

/-- The word of format E. -/
theorem formatE_toNat (c td ta : BitVec 2) (d : Mode) (op : Byte) :
    ((d.toBit.setWidth 32 <<< 16) ||| (ta.setWidth 32 <<< 12) ||| (td.setWidth 32 <<< 10) ||| (c.setWidth 32 <<< 8) |||
      op.setWidth 32).toNat = wordE op.toNat c td ta d := by
  have hD := shiftedField_toNat d.toBit 16 (by norm_num)
  have hA := or_toNat_of_disjoint 14 hD (shiftedField_toNat ta 12 (by norm_num)) (by omega) (by omega)
  have hT := or_toNat_of_disjoint 12 hA (shiftedField_toNat td 10 (by norm_num)) (by omega) (by omega)
  have hC := or_toNat_of_disjoint 10 hT (shiftedField_toNat c 8 (by norm_num)) (by omega) (by omega)
  rw [or_toNat_of_disjoint 8 hC (lowByte_toNat op) (by omega) (by omega), toBit_toNat_mode, wordE]
  ring

/-- The encoder's word is the one its rule writes (30_encoding.md R112, R117). -/
theorem encode_toNat (i : Instr) : (encode i).toNat = wordNat i := by
  cases i with
  | brGetbits n | brPeekbits n | htReceiveExtend n => exact oneField_toNat n (by norm_num) _
  | idct q => exact oneField_toNat q (by norm_num) _
  | edBaseline c td ta d | edDcFirst c td ta d | edDcRefine c td ta d | edAcFirst c td ta d | edAcRefine c td ta d =>
    exact formatE_toNat c td ta d _
  | htDecode k i =>
    have hK := shiftedField_toNat k.toBit 12 (by norm_num)
    have hI := or_toNat_of_disjoint 10 hK (shiftedField_toNat i 8 (by norm_num)) (by omega) (by omega)
    rw [toBit_toNat_class] at hI
    refine (or_toNat_of_disjoint 8 hI (lowByte_toNat 0x21#8) (by omega) (by decide)).trans ?_
    simp only [wordNat, BitVec.reduceToNat]
    ring
  | upMap c px py =>
    have hY := shiftedField_toNat py 24 (by norm_num)
    have hX := or_toNat_of_disjoint 21 hY (shiftedField_toNat px 16 (by norm_num)) (by omega) (by omega)
    have hC := or_toNat_of_disjoint 10 hX (shiftedField_toNat c 8 (by norm_num)) (by omega) (by omega)
    refine (or_toNat_of_disjoint 8 hC (lowByte_toNat 0x58#8) (by omega) (by decide)).trans ?_
    simp only [wordNat, BitVec.reduceToNat]
    ring
  | _ => rfl

/-! ### A word from its fields -/

/-- The bits a mask of ones covers are 0 in a word that has none of the mask's bits. -/
theorem reservedField_eq_zero {w mask : Word} (k v : Nat) (h : w &&& mask = 0#32) (hm : mask.extractLsb' k v = BitVec.allOnes v) :
    w.toNat / 2 ^ k % 2 ^ v = 0 := by
  have hz := congrArg (fun x => (BitVec.extractLsb' k v x).toNat) h
  rwa [BitVec.extractLsb'_and, hm, BitVec.and_allOnes, extractLsb'_toNat_eq, BitVec.extractLsb'_zero, BitVec.toNat_zero] at hz

/-- A word of format N whose reserved bits are 0 is its opcode byte (30_encoding.md R112). -/
theorem toNat_eq_wordN {w : Word} (h : w &&& Format.N.reserved = 0#32) : w.toNat = w.toNat % 2 ^ 8 := by
  have hhigh := reservedField_eq_zero 8 24 h (by decide)
  omega

/-- A word of format B whose reserved bits are 0 is made of its opcode byte and n (30_encoding.md R112). -/
theorem toNat_eq_wordB {w : Word} (h : w &&& Format.B.reserved = 0#32) : w.toNat = w.toNat % 2 ^ 8 + (fieldN w).toNat * 2 ^ 8 := by
  have hhigh := reservedField_eq_zero 13 19 h (by decide)
  rw [fieldN_toNat]
  omega

/-- A word of format T whose reserved bits are 0 is made of its opcode byte, k and i (30_encoding.md R112). -/
theorem toNat_eq_wordT {w : Word} (h : w &&& Format.T.reserved = 0#32) :
    w.toNat = w.toNat % 2 ^ 8 + classBit (fieldK w) * 2 ^ 12 + (fieldC w).toNat * 2 ^ 8 := by
  have hgap := reservedField_eq_zero 10 2 h (by decide)
  have hhigh := reservedField_eq_zero 13 19 h (by decide)
  rw [fieldK_bit, fieldC_toNat]
  omega

/-- A word of format E whose reserved bits are 0 is made of its opcode byte, c, td, ta and D (30_encoding.md R112). -/
theorem toNat_eq_wordE {w : Word} (h : w &&& Format.E.reserved = 0#32) :
    w.toNat = wordE (w.toNat % 2 ^ 8) (fieldC w) (fieldTd w) (fieldTa w) (fieldD w) := by
  have hgap := reservedField_eq_zero 14 2 h (by decide)
  have hhigh := reservedField_eq_zero 17 15 h (by decide)
  rw [wordE, fieldC_toNat, fieldTd_toNat, fieldTa_toNat, fieldD_bit]
  omega

/-- A word of format Q whose reserved bits are 0 is made of its opcode byte and q (30_encoding.md R112). -/
theorem toNat_eq_wordQ {w : Word} (h : w &&& Format.Q.reserved = 0#32) : w.toNat = w.toNat % 2 ^ 8 + (fieldC w).toNat * 2 ^ 8 := by
  have hhigh := reservedField_eq_zero 10 22 h (by decide)
  rw [fieldC_toNat]
  omega

/-- A word of format U whose reserved bits are 0 is made of its opcode byte, c, px and py (30_encoding.md R112). -/
theorem toNat_eq_wordU {w : Word} (h : w &&& Format.U.reserved = 0#32) :
    w.toNat = w.toNat % 2 ^ 8 + (fieldC w).toNat * 2 ^ 8 + (fieldPx w).toNat * 2 ^ 16 + (fieldPy w).toNat * 2 ^ 24 := by
  have hlowGap := reservedField_eq_zero 10 6 h (by decide)
  have hmidGap := reservedField_eq_zero 21 3 h (by decide)
  have hhigh := reservedField_eq_zero 29 3 h (by decide)
  rw [fieldC_toNat, fieldPx_toNat, fieldPy_toNat]
  omega

/-- A word with i's opcode byte and 0 in the bits its format marks 0 is what its rule writes of the word's own fields. -/
theorem wordNat_withFieldsOf {w : Word} {i : Instr} (hop : w.extractLsb' 0 8 = i.opcode) (hres : w &&& i.format.reserved = 0#32) :
    wordNat (i.withFieldsOf w) = w.toNat := by
  have hlow : w.toNat % 2 ^ 8 = i.opcode.toNat := by rw [← hop, extractLsb'_toNat_eq, pow_zero, Nat.div_one]
  cases i with
  | brGetbits _ | brPeekbits _ | htReceiveExtend _ => rw [toNat_eq_wordB hres, hlow]; rfl
  | htDecode _ _ => rw [toNat_eq_wordT hres, hlow]; rfl
  | edBaseline _ _ _ _ | edDcFirst _ _ _ _ | edDcRefine _ _ _ _ | edAcFirst _ _ _ _ | edAcRefine _ _ _ _ =>
    rw [toNat_eq_wordE hres, hlow]; rfl
  | idct _ => rw [toNat_eq_wordQ hres, hlow]; rfl
  | upMap _ _ _ => rw [toNat_eq_wordU hres, hlow]; rfl
  | _ => rw [toNat_eq_wordN hres, hlow]; rfl

/-- A word with i's opcode byte and 0 in the bits its format marks 0 is the encoding of the command it reads as: no bit of it is free
(30_encoding.md R114). -/
theorem encode_withFieldsOf {w : Word} {i : Instr} (hop : w.extractLsb' 0 8 = i.opcode) (hres : w &&& i.format.reserved = 0#32) :
    encode (i.withFieldsOf w) = w :=
  BitVec.eq_of_toNat_eq ((encode_toNat _).trans (wordNat_withFieldsOf hop hres))

/-! ### The fields of an encoding -/

open Laws.EncodeReserved in
/-- The law of each command, as one of every command (30_encoding.md R111, R112, R114). -/
theorem encodeReserved : ∀ i : Instr, Statement i
  | .nop => nop | .softReset => softReset | .coefClear => coefClear | .brReset => brReset
  | .brGetbits n => brGetbits n | .brPeekbits n => brPeekbits n | .htDefine => htDefine | .htDecode k i => htDecode k i
  | .htReceiveExtend n => htReceiveExtend n | .qtDefine => qtDefine | .edScanStart => edScanStart | .edRestart => edRestart
  | .edBaseline c td ta d => edBaseline c td ta d | .edDcFirst c td ta d => edDcFirst c td ta d
  | .edDcRefine c td ta d => edDcRefine c td ta d | .edAcFirst c td ta d => edAcFirst c td ta d
  | .edAcRefine c td ta d => edAcRefine c td ta d | .idct q => idct q | .ccYcc => ccYcc | .ccGray => ccGray
  | .upMap c px py => upMap c px py

theorem encode_opcode (i : Instr) : (encode i).extractLsb' 0 8 = i.opcode := (encodeReserved i).1
theorem encode_reserved (i : Instr) : encode i &&& i.format.reserved = 0#32 := (encodeReserved i).2

/-- Different operands of format E give different words. -/
theorem wordE_inj {op : Nat} {c c' td td' ta ta' : BitVec 2} {d d' : Mode} (h : wordE op c td ta d = wordE op c' td' ta' d') :
    c = c' ∧ td = td' ∧ ta = ta' ∧ d = d' := by
  unfold wordE at h
  exact ⟨BitVec.eq_of_toNat_eq (by omega), BitVec.eq_of_toNat_eq (by omega), BitVec.eq_of_toNat_eq (by omega), modeBit_inj (by omega)⟩

/-- Within a row of the opcode table the operands are the only choice, and different ones give different words. -/
theorem withFieldsOf_eq_of_wordNat_eq {w : Word} {i : Instr} (h : wordNat (i.withFieldsOf w) = wordNat i) : i.withFieldsOf w = i := by
  cases i with
  | brGetbits n | brPeekbits n | htReceiveExtend n =>
    have hn : fieldN w = n := BitVec.eq_of_toNat_eq (by simp only [Instr.withFieldsOf, wordNat] at h; omega)
    rw [Instr.withFieldsOf, hn]
  | htDecode k i =>
    simp only [Instr.withFieldsOf, wordNat] at h
    have hi : fieldC w = i := BitVec.eq_of_toNat_eq (by omega)
    have hk : fieldK w = k := classBit_inj (by omega)
    rw [Instr.withFieldsOf, hi, hk]
  | edBaseline c td ta d | edDcFirst c td ta d | edDcRefine c td ta d | edAcFirst c td ta d | edAcRefine c td ta d =>
    obtain ⟨hc, htd, hta, hd⟩ := wordE_inj h
    rw [Instr.withFieldsOf, hc, htd, hta, hd]
  | idct q =>
    have hq : fieldC w = q := BitVec.eq_of_toNat_eq (by simp only [Instr.withFieldsOf, wordNat] at h; omega)
    rw [Instr.withFieldsOf, hq]
  | upMap c px py =>
    simp only [Instr.withFieldsOf, wordNat] at h
    have hc : fieldC w = c := BitVec.eq_of_toNat_eq (by omega)
    have hx : fieldPx w = px := BitVec.eq_of_toNat_eq (by omega)
    have hy : fieldPy w = py := BitVec.eq_of_toNat_eq (by omega)
    rw [Instr.withFieldsOf, hc, hx, hy]
  | _ => rfl

/-- The encoding of a command has the command's fields. -/
theorem withFieldsOf_encode (i : Instr) : i.withFieldsOf (encode i) = i :=
  withFieldsOf_eq_of_wordNat_eq ((wordNat_withFieldsOf (encode_opcode i) (encode_reserved i)).trans (encode_toNat i))

/-- An encoding decodes to its command, if the operand value checks pass (30_encoding.md R113, R116). -/
theorem decode_encode (i : Instr) : decode (encode i) = if i.wellFormed then .ok i else .error (.operandValue i) := by
  rw [decode_of_row (encode_opcode i) (encode_reserved i), withFieldsOf_encode]

/-- Settles O1: the word is its rule's sum of fields in disjoint places, and within a row that sum gives its operands back. -/
theorem decodeOfEncode : Obligations.DecodeOfEncode := by
  unfold Obligations.DecodeOfEncode
  exact fun i => ⟨encode_toNat i, decode_encode i⟩

/-- Settles O2: a legal word has no free bit, and an encoding that decodes decodes to its command. -/
theorem decodedWordIsEncoding : Obligations.DecodedWordIsEncoding := by
  unfold Obligations.DecodedWordIsEncoding
  intro w i h
  obtain ⟨hop, hfields, hres, hwf⟩ := decode_ok_cases h
  refine ⟨hwf, by simpa only [hfields] using encode_withFieldsOf hop hres, fun j hj => ?_⟩
  rw [← hj, decode_encode] at h
  split at h
  · exact Except.ok.inj h
  · cases h

/-! ### The rows of the opcode table -/

/-- The row of a command in the opcode table: the mask of the bits that its format fixes, and their values (30_encoding.md R112,
R117). -/
def Instr.row (i : Instr) : Word × Word := (i.format.reserved ||| 0xFF#32, i.opcode.setWidth 32)

/-- The 21 commands, with operands 0. -/
def commands : List Instr :=
  [.nop, .softReset, .coefClear, .brReset, .brGetbits 0, .brPeekbits 0, .htDefine, .htDecode .dc 0, .htReceiveExtend 0, .qtDefine] ++
  [.edScanStart, .edRestart, .edBaseline 0 0 0 .store, .edDcFirst 0 0 0 .store, .edDcRefine 0 0 0 .store] ++
  [.edAcFirst 0 0 0 .store, .edAcRefine 0 0 0 .store, .idct 0, .ccYcc, .ccGray, .upMap 0 0 0]

/-- The opcode table lists the commands' rows (30_encoding.md R117). -/
theorem opcodeRows_eq_map_row : opcodeRows = commands.map Instr.row := by decide

/-- Every command is a listed one with its operands set to 0. -/
theorem withFieldsOf_zero_mem_commands (i : Instr) : i.withFieldsOf 0#32 ∈ commands := by
  cases i <;> simp only [Instr.withFieldsOf] <;> decide

/-- The table has a row for every command, whatever its operands. -/
theorem row_mem_opcodeRows (i : Instr) : i.row ∈ opcodeRows := by
  have hrow : (i.withFieldsOf 0#32).row = i.row := by simp [Instr.row]
  rw [opcodeRows_eq_map_row, ← hrow]
  exact List.mem_map_of_mem (withFieldsOf_zero_mem_commands i)

/-- A row of the opcode table is the row of some command. -/
theorem exists_row_iff {p : Word × Word → Prop} : (∃ row ∈ opcodeRows, p row) ↔ ∃ i : Instr, p i.row := by
  constructor
  · rintro ⟨row, hmem, hp⟩
    rw [opcodeRows_eq_map_row] at hmem
    obtain ⟨i, -, rfl⟩ := List.mem_map.mp hmem
    exact ⟨i, hp⟩
  · rintro ⟨i, hp⟩
    exact ⟨i.row, row_mem_opcodeRows i, hp⟩

/-- The bits a format marks 0 lie above the opcode byte (30_encoding.md R112). -/
theorem lowByte_and_reserved (f : Format) : 0xFF#32 &&& f.reserved = 0#32 := by cases f <;> rfl

/-- The opcode byte of a word as the word with every other bit 0. -/
theorem and_lowByte (w : Word) : w &&& 0xFF#32 = (w.extractLsb' 0 8).setWidth 32 := by
  apply BitVec.eq_of_toNat_eq
  rw [BitVec.toNat_and, lowByte_toNat, extractLsb'_toNat_eq, pow_zero, Nat.div_one]
  exact Nat.and_two_pow_sub_one_eq_mod w.toNat 8

/-- A row's mask covers the opcode byte (30_encoding.md R111). -/
theorem and_row_extract (w : Word) (i : Instr) : (w &&& i.row.1).extractLsb' 0 8 = w.extractLsb' 0 8 := by
  have hFF : BitVec.extractLsb' 0 8 0xFF#32 = BitVec.allOnes 8 := rfl
  rw [Instr.row, BitVec.extractLsb'_and, BitVec.extractLsb'_or, hFF, BitVec.or_allOnes, BitVec.and_allOnes]

/-- A row's mask covers the bits its format marks 0 (30_encoding.md R114). -/
theorem row_and_reserved (i : Instr) : i.row.1 &&& i.format.reserved = i.format.reserved := by
  ext k hk
  simpa [Instr.row] using fun hr => .inl hr

/-- A word matches i's row when it has i's opcode byte and 0 in the bits that i's format marks 0 (30_encoding.md R111, R114). -/
theorem row_matches_iff {w : Word} {i : Instr} :
    w &&& i.row.1 = i.row.2 ↔ w.extractLsb' 0 8 = i.opcode ∧ w &&& i.format.reserved = 0#32 := by
  constructor
  · intro h
    have hop : w.extractLsb' 0 8 = i.opcode := by rw [← and_row_extract w i, h, Instr.row, lowByte_extract]
    refine ⟨hop, ?_⟩
    calc w &&& i.format.reserved = (w &&& i.row.1) &&& i.format.reserved := by rw [BitVec.and_assoc, row_and_reserved]
      _ = (w &&& 0xFF#32) &&& i.format.reserved := by rw [h, and_lowByte, hop, Instr.row]
      _ = 0#32 := by rw [BitVec.and_assoc, lowByte_and_reserved, BitVec.and_zero]
  · rintro ⟨hop, hres⟩
    rw [Instr.row, BitVec.and_or_distrib_left, hres, and_lowByte, hop, BitVec.zero_or]

/-- The operand value checks of a word are those of the command it reads as (30_encoding.md R116). -/
theorem wellFormed_withFieldsOf_iff {w : Word} {i : Instr} (hop : w.extractLsb' 0 8 = i.opcode) :
    (i.withFieldsOf w).wellFormed = true ↔ operandChecks w := by
  unfold operandChecks
  rw [hop]
  cases i <;> simp [Instr.opcode, Instr.withFieldsOf, Instr.wellFormed, bitCountOk, componentOk, fieldN, fieldC, BitVec.le_def]

/-- Settles O3: a word decodes when it matches the row of the command it reads as and that command's operand values are allowed. -/
theorem legalWordsAreTheTableRows : Obligations.LegalWordsAreTheTableRows := by
  unfold Obligations.LegalWordsAreTheTableRows
  intro w
  rw [exists_row_iff (p := fun row => w &&& row.1 = row.2)]
  constructor
  · rintro ⟨i, h⟩
    obtain ⟨hop, hfields, hres, hwf⟩ := decode_ok_cases h
    rw [← hfields, wellFormed_withFieldsOf_iff hop] at hwf
    exact ⟨⟨i, row_matches_iff.mpr ⟨hop, hres⟩⟩, hwf⟩
  · rintro ⟨⟨i, hi⟩, hchecks⟩
    obtain ⟨hop, hres⟩ := row_matches_iff.mp hi
    exact ⟨i.withFieldsOf w, by rw [decode_of_row hop hres, if_pos ((wellFormed_withFieldsOf_iff hop).mpr hchecks)]⟩

/-- Settles O4: each word is evaluated. -/
theorem writtenWordsDecode : Obligations.WrittenWordsDecode := by
  unfold Obligations.WrittenWordsDecode
  exact ⟨rfl, rfl, rfl, rfl, rfl, rfl, rfl, rfl, rfl⟩

end Sys2Proof
end

section
/-! SUPPORT. The system commands NOP, SOFT_RESET and COEF_CLEAR (40_system.md R140–R142): which words they have, and the state each
leaves. -/

namespace Sys2Proof.Machine

open Sys2Proof.Spec

/-! ### Words -/

/-- The word of a command whose operand values are allowed decodes to it (30_encoding.md R113). -/
theorem encodes_of_wellFormed {i : Instr} (h : i.wellFormed = true) : Encodes i := by
  rw [Encodes, ← encode_toNat, BitVec.ofNat_toNat, BitVec.setWidth_eq, decode_encode, if_pos h]

/-- A word that carries i's opcode and is no encoding of i's row has a bit set that the row's format marks 0, so it is refused
(30_encoding.md R113, R114). -/
theorem decode_of_ne_encode {w : Word} {i : Instr} (hop : w.extractLsb' 0 8 = i.opcode) (hne : w ≠ encode (i.withFieldsOf w)) :
    decode w = .error (.reservedBit i.format) := by
  have hres : w &&& i.format.reserved ≠ 0#32 := fun hres => hne (encode_withFieldsOf hop hres).symm
  simp [decode, instrOfWord_of_opcode hop, hres]

/-! ### Effects -/

theorem exec_nop (s : State) : exec .nop s = .next s := rfl
theorem exec_softReset (s : State) : exec .softReset s = .next s.resetBlock := rfl
theorem exec_coefClear (s : State) : exec .coefClear s = .next { s with coef := Vector.replicate 64 0#16 } := rfl

theorem resetBlock_readsAsReset (s : State) : ReadsAsReset s.resetBlock := fun off ha => by
  rw [resetBlock_readReg, readsAsReset_reset off ha]

/-- Settles O12: SOFT_RESET leaves the reset block, which reads as the reset state. -/
theorem softResetResetsEveryRegister : Obligations.SoftResetResetsEveryRegister := by
  unfold Obligations.SoftResetResetsEveryRegister
  exact ⟨encodes_of_wellFormed rfl, fun s => ⟨s.resetBlock, exec_softReset s, resetBlock_readsAsReset s, rfl⟩⟩

/-- Settles O25: NOP's one encoding is the zero word, and COEF_CLEAR stores a block of zeros. -/
theorem nopAndCoefClear : Obligations.NopAndCoefClear := by
  unfold Obligations.NopAndCoefClear
  refine ⟨encodes_of_wellFormed rfl, exec_nop, fun w hop hne => ?_, encodes_of_wellFormed rfl, fun s => ?_⟩
  · have hfields : Instr.nop.withFieldsOf w = .nop := rfl
    have hword : encode .nop = 0#32 := by decide
    exact ⟨_, decode_of_ne_encode (i := .nop) hop (by rwa [hfields, hword])⟩
  · exact ⟨Vector.replicate 64 0#16, fun i => Vector.getElem_replicate i.isLt, exec_coefClear s⟩

end Sys2Proof.Machine
end


section
/-! SUPPORT. FetchDataByte byte by byte (41_bitreader.md R151): a run of 0xFF is skipped to its last byte, and the byte after the run says
what it was. -/

namespace Sys2Proof.Machine

open Sys2Proof.Spec

/-- The address n bytes after the one after a. -/
theorem addr_succ_add (a : Word) (n : Nat) : a + 1#32 + BitVec.ofNat 32 n = a + BitVec.ofNat 32 (n + 1) := by
  rw [BitVec.add_assoc, Nat.add_comm n 1, BitVec.ofNat_add]

/-- An address that does not leave SRC does not wrap (20_memory.md R92). -/
theorem addr_add_toNat {m : Source} {a : Word} {k : Nat} (h : a.toNat + k ≤ m.len.toNat) :
    (a + BitVec.ofNat 32 k).toNat = a.toNat + k := by
  have := m.len.isLt
  rw [BitVec.toNat_add, BitVec.toNat_ofNat, Nat.add_mod_mod, Nat.mod_eq_of_lt (by omega)]

/-- The bytes after the first of a run of 0xFF are a run. -/
theorem ffRun_tail {m : Source} {a : Word} {k : Nat} (h : ffRun m a (k + 1)) : ffRun m (a + 1#32) k := fun j hj => by
  rw [addr_succ_add]
  exact h (j + 1) (by omega)

/-- Fill bytes are passed over (41_bitreader.md R151). -/
theorem afterFF_fill (m : Source) (left : Nat) {k : Nat} {r : Reader} (h : ffRun m r.srcpos k) :
    afterFF m (left + k) r = afterFF m left { r with srcpos := r.srcpos + BitVec.ofNat 32 k } := by
  induction k generalizing r with
  | zero => simp
  | succ k ih =>
    have hff : m.byte r.srcpos = 0xFF#8 := by simpa using h 0 (by omega)
    have hrest := ih (r := { r with srcpos := r.srcpos + 1#32 }) (ffRun_tail h)
    rw [← Nat.add_assoc, afterFF]
    simp only [hff, hrest, addr_succ_add]
    rfl

theorem fetchDataByte_of_end {m : Source} {r : Reader} (h : m.len ≤ r.srcpos) : fetchDataByte m r = (none, r.endOfStream) := by
  simp only [fetchDataByte, srcRead, if_pos h]

theorem fetchDataByte_of_plain {m : Source} {r : Reader} (h : r.srcpos < m.len) (hb : m.byte r.srcpos ≠ 0xFF#8) :
    fetchDataByte m r = (some (m.byte r.srcpos), { r with srcpos := r.srcpos + 1#32 }) := by
  simp only [fetchDataByte, srcRead, if_neg (BitVec.not_le.mpr h), if_neg hb]

/-- After k bytes 0xFF the loop of FetchDataByte stands at the byte after them (41_bitreader.md R151). -/
theorem fetchDataByte_of_ffRun {m : Source} {r : Reader} {k : Nat} (hk : 1 ≤ k) (hlen : r.srcpos.toNat + k ≤ m.len.toNat)
    (h : ffRun m r.srcpos k) :
    fetchDataByte m r =
      afterFF m (m.len.toNat - (r.srcpos.toNat + k)) { r with srcpos := r.srcpos + BitVec.ofNat 32 k } := by
  obtain ⟨k, rfl⟩ := Nat.exists_eq_add_of_le' hk
  have hlt : r.srcpos < m.len := by rw [BitVec.lt_def]; omega
  have hff : m.byte r.srcpos = 0xFF#8 := by simpa using h 0 (by omega)
  have hleft : m.left { r with srcpos := r.srcpos + 1#32 } = m.len.toNat - (r.srcpos.toNat + (k + 1)) + k := by
    simp only [Source.left, srcpos_succ_toNat hlt]
    omega
  simp only [fetchDataByte, srcRead, if_neg (BitVec.not_le.mpr hlt), hff, hleft, ↓reduceIte]
  rw [afterFF_fill m _ (r := { r with srcpos := r.srcpos + 1#32 }) (ffRun_tail h)]
  simp only [addr_succ_add]

/-- All that the loop after a 0xFF does at a byte that is no fill byte: it is stuffing, or a marker's code (41_bitreader.md R151). -/
theorem afterFF_of_ne_fill (m : Source) {left : Nat} (hl : 0 < left) {r : Reader} (hb : m.byte r.srcpos ≠ 0xFF#8) :
    afterFF m left r =
      if m.byte r.srcpos = 0x00#8 then (some 0xFF#8, { r with srcpos := r.srcpos + 1#32 })
      else (none, r.meetMarker (m.byte r.srcpos)) := by
  obtain ⟨left, rfl⟩ := Nat.exists_eq_add_of_le' hl
  simp only [afterFF, if_neg hb]

/-- Settles O27: the run of 0xFF is passed over, and the byte after it, or the end of SRC, decides. -/
theorem fetchUnstuffsAndFindsMarkers : Obligations.FetchUnstuffsAndFindsMarkers := by
  unfold Obligations.FetchUnstuffsAndFindsMarkers
  intro m r
  refine ⟨fetchDataByte_of_end, fetchDataByte_of_plain, fun k hk hlen hrun => ?_⟩
  rw [fetchDataByte_of_ffRun hk hlen hrun]
  refine ⟨fun hend => ?_, fun hin hb => ?_, fun x hin hb h0 hff => ?_⟩
  · have hpos : r.srcpos + BitVec.ofNat 32 k = m.len := BitVec.eq_of_toNat_eq (by rw [addr_add_toNat hlen, hend])
    rw [hpos, hend, Nat.sub_self]
    rfl
  · rw [afterFF_of_ne_fill m (by omega) (by simp [hb]), if_pos hb]
    simp only [BitVec.add_assoc, BitVec.ofNat_add]
  · have hback : r.srcpos + BitVec.ofNat 32 k - 1#32 = r.srcpos + BitVec.ofNat 32 (k - 1) := by
      obtain ⟨k, rfl⟩ := Nat.exists_eq_add_of_le' hk
      rw [BitVec.ofNat_add, ← BitVec.add_assoc, BitVec.add_sub_cancel, Nat.add_sub_cancel]
    rw [afterFF_of_ne_fill m (by omega) (by rwa [hb]), if_neg (by rwa [hb]), hb, Reader.meetMarker, hback]

end Sys2Proof.Machine
end


section
/-! SUPPORT. The values and the accumulator of PeekBits and GetBits as shifts and masks (41_bitreader.md R152–R154). -/

namespace Sys2Proof.Machine

/-- The mask of the low k bits takes the remainder by 2^k, k past the word's width included. -/
theorem and_lowMask_toNat (x : Word) (k : Nat) : (x &&& BitVec.ofNat 32 (2 ^ k - 1)).toNat = x.toNat % 2 ^ k := by
  have hx : x.toNat % 2 ^ 32 = x.toNat := Nat.mod_eq_of_lt x.isLt
  have hlt : x.toNat % 2 ^ k < 2 ^ 32 := lt_of_le_of_lt (Nat.mod_le _ _) x.isLt
  calc (x &&& BitVec.ofNat 32 (2 ^ k - 1)).toNat = x.toNat % 2 ^ 32 &&& (2 ^ k - 1) % 2 ^ 32 := by
        rw [BitVec.toNat_and, BitVec.toNat_ofNat, hx]
    _ = x.toNat % 2 ^ k % 2 ^ 32 := by rw [← Nat.and_mod_two_pow, Nat.and_two_pow_sub_one_eq_mod]
    _ = x.toNat % 2 ^ k := Nat.mod_eq_of_lt hlt

/-- The next n ≤ 16 bits as R153 writes them: a shift of BRACC right, or left past the buffered bits, under a mask. -/
theorem Reader.top_eq_shift_mask (r : Reader) {n : Nat} (hn : n ≤ 16) :
    r.top n = ((if n ≤ r.bitcnt then r.bracc >>> (r.bitcnt - n) else r.bracc <<< (n - r.bitcnt)) &&&
      BitVec.ofNat 32 (2 ^ n - 1)).toNat := by
  rw [and_lowMask_toNat, Reader.top]
  split
  · rw [BitVec.toNat_ushiftRight, Nat.shiftRight_eq_div_pow]
  · rw [BitVec.toNat_shiftLeft, Nat.shiftLeft_eq, Nat.mod_mod_of_dvd _ (pow_dvd_pow 2 (by omega))]

/-- BRACC after n bits are taken off as R154 writes it: the low bits kept by a mask. -/
theorem Reader.consume_eq_mask (n : Nat) (r : Reader) :
    r.consume n = { r with
      bitcnt := r.bitcnt - n
      bracc := r.bracc &&& BitVec.ofNat 32 (2 ^ (r.bitcnt - n) - 1)
      consumed := r.consumed + BitVec.ofNat 32 n } := by
  have hacc : (r.consume n).bracc = r.bracc &&& BitVec.ofNat 32 (2 ^ (r.bitcnt - n) - 1) :=
    BitVec.eq_of_toNat_eq (by rw [Reader.consume_bracc_toNat, and_lowMask_toNat])
  rw [← hacc]
  rfl

theorem peekBits_of_pos (m : Source) {n : Nat} (hn : n ≠ 0) (r : Reader) : peekBits m n r = ((refill m n r).top n, refill m n r) :=
  if_neg hn

/-- Settles O28: the refill loop unrolls once, and the model's quotients and remainders are the rules' shifts and masks. -/
theorem refillPeekAndGetFollowTheirRules : Obligations.RefillPeekAndGetFollowTheirRules := by
  unfold Obligations.RefillPeekAndGetFollowTheirRules
  intro m n r hn
  refine ⟨refill_step m n r, fun h0 => if_pos h0, fun h0 => ?_, ?_⟩
  · rw [peekBits_of_pos m h0, Reader.top_eq_shift_mask _ hn]
  · rw [getBits, Reader.consume_eq_mask, peekBits_snd, refill_consumed]

end Sys2Proof.Machine
end


section
/-! SUPPORT. The halted reader (41_bitreader.md R155): no operation reads a byte, and no command but the resets and a restart at a marker
releases it. -/

namespace Sys2Proof.Machine

/-- q is halted with r's cause of the halt. -/
def Reader.HaltedLike (r q : Reader) : Prop :=
  q.halt = true ∧ q.eos = r.eos ∧ q.markerValid = r.markerValid ∧ q.marker = r.marker

theorem Reader.haltedLike_refl {r : Reader} (h : r.halt = true) : r.HaltedLike r := ⟨h, rfl, rfl, rfl⟩

theorem peekBits_of_halted (m : Source) (n : Nat) {r : Reader} (h : r.halt = true) : peekBits m n r = (r.top n, r) :=
  Prod.ext (by rw [peekBits_fst, refill_of_halted m n r h]) (by rw [peekBits_snd, refill_of_halted m n r h])

theorem getBits_of_halted (m : Source) (n : Nat) {r : Reader} (h : r.halt = true) : getBits m n r = (r.top n, r.consume n) := by
  rw [getBits_eq, refill_of_halted m n r h]

/-- Every stream operation leaves a halted reader halted where it is. -/
theorem kept_haltedLike (m : Source) (r : Reader) : Kept m fun q => r.HaltedLike q ∧ q.srcpos = r.srcpos where
  refill n _ q h := by rwa [refill_of_halted m n q h.1.1]
  getBits n _ q h := by rwa [getBits_of_halted m n h.1.1]

/-- The restart skip has nothing to skip for a halted reader; it drops the buffered bits (43_entropy.md R225). -/
theorem skipToMarker_of_halted (m : Source) {r : Reader} (h : r.halt = true) : skipToMarker m r = { r with bracc := 0#32, bitcnt := 0 } :=
  if_pos h

/-- ED_RESTART finds no restart marker where the reader has halted elsewhere (43_entropy.md R225). -/
theorem State.restart_reader_of_halted {s : State} (h : s.reader.halt = true) (ha : s.reader.atRestart = false) :
    s.restart.reader = { s.reader with bracc := 0#32, bitcnt := 0 } := by
  have ha' : ({ s.reader with bracc := 0#32, bitcnt := 0 } : Reader).atRestart = false := ha
  simp [State.restart, skipToMarker_of_halted _ h, ha']

/-- The commands that release no halted reader leave it halted for the same cause, and only a table definition moves it. -/
theorem exec_keeps_halt {i : Instr} {s t : State} (hh : s.reader.halt = true) (h : exec i s = .next t) (hbr : i ≠ .brReset)
    (hscan : i ≠ .edScanStart) (hsoft : i ≠ .softReset) (hrst : i = .edRestart → s.reader.atRestart = false) :
    s.reader.HaltedLike t.reader ∧ (i ≠ .htDefine → i ≠ .qtDefine → t.reader.srcpos = s.reader.srcpos) := by
  have hrefl := Reader.haltedLike_refl hh
  cases exec_readerEffect h with
  | reset => exact absurd rfl hsoft
  | brReset => exact absurd rfl hbr
  | scanStart => exact absurd rfl hscan
  | huffTable ht => rw [ht, parseHuffTable_frame]; exact ⟨hrefl, fun hne => absurd rfl hne⟩
  | quantTable ht => rw [ht, parseQuantTable_frame]; exact ⟨hrefl, fun _ hne => absurd rfl hne⟩
  | restart ht => rw [ht, State.restart_reader_of_halted hh (hrst rfl)]; exact ⟨hrefl, fun _ _ => rfl⟩
  | stream _ hk =>
    obtain ⟨hlike, hpos⟩ := hk _ (kept_haltedLike _ s.reader) ⟨hrefl, rfl⟩
    exact ⟨hlike, fun _ _ => hpos⟩

/-- Settles O30: a halted reader is not refilled, so its operations see the buffer alone, and every command goes through them. -/
theorem haltIsSticky : Obligations.HaltIsSticky := by
  unfold Obligations.HaltIsSticky
  refine ⟨fun m n r hh hb _ => ?_, fun i s t hh h hbr hscan hsoft hrst => ?_⟩
  · rw [getBits_of_halted m n hh, peekBits_of_halted m n hh]
    exact ⟨Reader.top_of_le hb, Reader.top_of_ge hb, rfl, rfl, rfl, rfl⟩
  · obtain ⟨⟨hhalt, heos, hvalid, hmarker⟩, hpos⟩ := exec_keeps_halt hh h hbr hscan hsoft hrst
    exact ⟨hhalt, heos, hvalid, hmarker, hpos⟩

end Sys2Proof.Machine
end


section
/-! SUPPORT. The bit reader's commands (41_bitreader.md R156–R158, 43_entropy.md R224): the state each leaves. -/

namespace Sys2Proof.Machine

open Sys2Proof.Spec

/-! ### Effects -/

theorem exec_brReset (s : State) : exec .brReset s = .next { s with reader := s.reader.clear } := rfl
theorem exec_edScanStart (s : State) :
    exec .edScanStart s = .next { s with reader := s.reader.clear, pred := Vector.replicate 3 0#16, eobrun := 0#16 } := rfl

/-- A bit count is checked as a number (30_encoding.md R116). -/
theorem bitCountOk_iff {n : BitVec 5} : bitCountOk n = true ↔ n.toNat ≤ 16 := by
  simp [bitCountOk, BitVec.le_def]

/-- ILLEGAL raised is what an illegal command leaves (60_exceptions.md R311, R316). -/
theorem raise_illegal_eq_afterIllegal (s : State) : s.raise .illegal = afterIllegal s := rfl

theorem guardOperands_bitCount_of_le {n : BitVec 5} (h : n.toNat ≤ 16) (s run : State) : guardOperands (bitCountOk n) s run = run :=
  if_pos (bitCountOk_iff.mpr h)

theorem guardOperands_bitCount_of_gt {n : BitVec 5} (h : 16 < n.toNat) (s run : State) :
    guardOperands (bitCountOk n) s run = afterIllegal s := by
  rw [guardOperands, if_neg (by rw [bitCountOk_iff]; omega), raise_illegal_eq_afterIllegal]

theorem exec_brGetbits_of_le {n : BitVec 5} (h : n.toNat ≤ 16) (s : State) :
    exec (.brGetbits n) s = .next { s with
      result := BitVec.ofNat 32 (getBits s.source n.toNat s.reader).1
      reader := (getBits s.source n.toNat s.reader).2 } :=
  congrArg Host.Outcome.next (guardOperands_bitCount_of_le h _ _)

theorem exec_brPeekbits_of_le {n : BitVec 5} (h : n.toNat ≤ 16) (s : State) :
    exec (.brPeekbits n) s = .next { s with
      result := BitVec.ofNat 32 (peekBits s.source n.toNat s.reader).1
      reader := (peekBits s.source n.toNat s.reader).2 } :=
  congrArg Host.Outcome.next (guardOperands_bitCount_of_le h _ _)

theorem exec_brGetbits_of_gt {n : BitVec 5} (h : 16 < n.toNat) (s : State) : exec (.brGetbits n) s = .next (afterIllegal s) :=
  congrArg Host.Outcome.next (guardOperands_bitCount_of_gt h _ _)

theorem exec_brPeekbits_of_gt {n : BitVec 5} (h : 16 < n.toNat) (s : State) : exec (.brPeekbits n) s = .next (afterIllegal s) :=
  congrArg Host.Outcome.next (guardOperands_bitCount_of_gt h _ _)

/-! ### Values -/

/-- A value of at most 16 bits fits RESULT (10_state.md R38). -/
theorem result_toNat {n v : Nat} (hn : n ≤ 16) (hv : v < 2 ^ n) : (BitVec.ofNat 32 v).toNat = v :=
  Nat.mod_eq_of_lt (lt_of_lt_of_le hv (Nat.pow_le_pow_right (by norm_num) (by omega)))

theorem peekBits_lt (m : Source) (n : Nat) (r : Reader) : (peekBits m n r).1 < 2 ^ n := by
  rw [peekBits_fst]; exact Reader.top_lt n _

/-- The bits past the buffered ones are 0 (41_bitreader.md R153). -/
theorem Reader.top_mod_missing {r : Reader} {n : Nat} (h : r.bitcnt < n) : r.top n % 2 ^ (n - r.bitcnt) = 0 := by
  rw [Reader.top, if_neg (by omega), Nat.mod_mod_of_dvd _ (pow_dvd_pow 2 (Nat.sub_le _ _)), Nat.mul_mod_left]

/-- Taking no bits off a buffer changes nothing. -/
theorem Reader.consume_zero {r : Reader} (h : r.Buffered) : r.consume 0 = r := by
  have hacc : BitVec.ofNat 32 (r.bracc.toNat % 2 ^ r.bitcnt) = r.bracc := by
    rw [Nat.mod_eq_of_lt h.2, BitVec.ofNat_toNat, BitVec.setWidth_eq]
  simp only [Reader.consume, Nat.sub_zero, hacc, BitVec.add_zero]

/-- Reading no bits reads nothing and consumes nothing (41_bitreader.md R157). -/
theorem getBits_none (m : Source) {r : Reader} (h : r.Buffered) : getBits m 0 r = (0, r) := by
  refine Prod.ext (getBits_zero m r) ?_
  rw [getBits_eq, refill_of_enough m 0 r (Nat.zero_le _)]
  exact Reader.consume_zero h

/-- Peeking again gives the same bits and leaves the reader as it is (41_bitreader.md R158). -/
theorem peekBits_peekBits (m : Source) (n : Nat) (r : Reader) : peekBits m n (peekBits m n r).2 = peekBits m n r := by
  have hrefill : refill m n (refill m n r) = refill m n r := refill_refill m le_rfl r
  rw [peekBits_snd]
  exact Prod.ext (by rw [peekBits_fst, peekBits_fst, hrefill]) (by rw [peekBits_snd, peekBits_snd, hrefill])

/-! ### Obligations -/

/-- Settles O31: both commands clear the reader, ED_SCAN_START the predictors and EOBRUN besides. -/
theorem brResetAndScanStart : Obligations.BrResetAndScanStart := by
  unfold Obligations.BrResetAndScanStart
  exact ⟨encodes_of_wellFormed rfl, encodes_of_wellFormed rfl, fun s => ⟨s.reader.clear, rfl, exec_brReset s, exec_edScanStart s⟩⟩

/-- Settles O32: the value is below 2^n, so RESULT holds it, and the bits not buffered are shifted in as zeros. -/
theorem brGetbitsReturnsTheBits : Obligations.BrGetbitsReturnsTheBits := by
  unfold Obligations.BrGetbitsReturnsTheBits
  intro n s
  refine ⟨fun hn => ?_, fun hb => ?_, fun hn => exec_brGetbits_of_gt hn s⟩
  · have hlt := getBits_lt s.source n.toNat s.reader
    have hv := result_toNat hn hlt
    refine ⟨encodes_of_wellFormed (bitCountOk_iff.mpr hn), _, exec_brGetbits_of_le hn s, hv, hv.trans_lt hlt,
      fun hmissing => ?_, getBits_consumed _ _ _⟩
    refine ⟨(refill_enough _ _ _).resolve_left (by omega), ?_⟩
    rw [hv, getBits_eq]
    exact Reader.top_mod_missing hmissing
  · rw [exec_brGetbits_of_le (by simp)]
    simp only [BitVec.toNat_zero, getBits_none _ hb]

/-- Settles O33: a refilled reader is not refilled again, so the second peek sees what the first left. -/
theorem brPeekbitsIsIdempotent : Obligations.BrPeekbitsIsIdempotent := by
  unfold Obligations.BrPeekbitsIsIdempotent
  intro n s
  refine ⟨fun hn => ?_, fun hn => exec_brPeekbits_of_gt hn s⟩
  refine ⟨encodes_of_wellFormed (bitCountOk_iff.mpr hn), _, exec_brPeekbits_of_le hn s, rfl,
    result_toNat hn (peekBits_lt _ _ _), ?_, fun henough => ?_, ?_⟩
  · simp [peekBits_snd]
  · exact (peekBits_snd _ _ _).trans (refill_of_enough _ _ _ henough)
  · rw [exec_brPeekbits_of_le hn]
    simp only [State.source, peekBits_peekBits]

end Sys2Proof.Machine
end


section
/-! SUPPORT. The canonical codes (42_huffman.md R181, R182, R184, R187): where each code stands in the table, and why no code begins
another. -/

namespace Sys2Proof.Machine

open Sys2Proof.Spec

variable (c : Vector Byte 16)

/-! ### The codes of each length -/

/-- (SIZE, CODE) of the symbols of length j + 1 (42_huffman.md R181). -/
def codeRow (j : Nat) : List (Nat × Nat) := (List.range (countAt c j)).map fun i => (j + 1, startCode c j + i)

/-- (SIZE, CODE) of the symbols of the n shortest lengths. -/
def codesUpTo (n : Nat) : List (Nat × Nat) := (List.range n).flatMap (codeRow c)

theorem codeTable_eq_codesUpTo : codeTable c = codesUpTo c 16 := rfl

theorem codesUpTo_succ (n : Nat) : codesUpTo c (n + 1) = codesUpTo c n ++ codeRow c n := by
  simp [codesUpTo, List.range_succ]

@[simp] theorem codeRow_length (j : Nat) : (codeRow c j).length = countAt c j := by simp [codeRow]

@[simp] theorem codesUpTo_length (n : Nat) : (codesUpTo c n).length = firstIndex c n := by
  induction n with
  | zero => rfl
  | succ n ih => rw [codesUpTo_succ, List.length_append, ih, codeRow_length, firstIndex]

theorem codeRow_getElem? {j i : Nat} {x : Nat × Nat} (h : (codeRow c j)[i]? = some x) :
    i < countAt c j ∧ x = (j + 1, startCode c j + i) := by
  obtain ⟨hi, rfl⟩ := List.getElem?_eq_some_iff.mp h
  exact ⟨by simpa using hi, by simp [codeRow]⟩

/-- x is the code of the symbol index k: code i of length j + 1, after the symbols of the shorter lengths (42_huffman.md R181, R182). -/
structure CodeAt (k : Nat) (x : Nat × Nat) (j i : Nat) : Prop where
  length_lt : j < 16
  offset_lt : i < countAt c j
  index_eq : k = firstIndex c j + i
  code_eq : x = (j + 1, startCode c j + i)

theorem codeAt_of_codesUpTo {n k : Nat} {x : Nat × Nat} (hn : n ≤ 16) (h : (codesUpTo c n)[k]? = some x) : ∃ j i, CodeAt c k x j i := by
  induction n with
  | zero => simp [codesUpTo] at h
  | succ n ih =>
    rw [codesUpTo_succ, List.getElem?_append] at h
    split at h
    · exact ih (by omega) h
    · rename_i hk
      obtain ⟨hi, hx⟩ := codeRow_getElem? c h
      rw [codesUpTo_length] at hk hi hx
      exact ⟨n, k - firstIndex c n, hn, hi, by omega, hx⟩

/-- Code i of length j + 1 stands in the table. -/
theorem mem_codesUpTo {n j i : Nat} (hj : j < n) (hi : i < countAt c j) : (j + 1, startCode c j + i) ∈ codesUpTo c n :=
  List.mem_flatMap.mpr ⟨j, List.mem_range.mpr hj, List.mem_map.mpr ⟨i, List.mem_range.mpr hi, rfl⟩⟩

theorem firstIndex_mono {j n : Nat} (h : j ≤ n) : firstIndex c j ≤ firstIndex c n := by
  induction h with
  | refl => exact le_rfl
  | step _ ih => exact ih.trans (Nat.le_add_right _ _)

theorem length_le_of_mem_codesUpTo {n : Nat} {x : Nat × Nat} (h : x ∈ codesUpTo c n) : x.1 ≤ n := by
  obtain ⟨j, hj, hx⟩ := List.mem_flatMap.mp h
  obtain ⟨i, -, rfl⟩ := List.mem_map.mp hx
  exact List.mem_range.mp hj

/-- The symbols shorter than length j + 1 are the first(j + 1) of R182. -/
theorem codesUpTo_filter_length (n j : Nat) (h : j ≤ n) :
    ((codesUpTo c n).filter fun x => decide (x.1 < j + 1)).length = firstIndex c j := by
  induction n with
  | zero => obtain rfl := Nat.le_zero.mp h; rfl
  | succ n ih =>
    obtain hj | rfl := Nat.le_or_eq_of_le_succ h
    · have hrow : (codeRow c n).filter (fun x => decide (x.1 < j + 1)) = [] := by
        simp [List.filter_eq_nil_iff, codeRow]; omega
      rw [codesUpTo_succ, List.filter_append, hrow, List.append_nil, ih hj]
    · have hall : ∀ x ∈ codesUpTo c (n + 1), decide (x.1 < n + 1 + 1) = true := fun x hx =>
        decide_eq_true (Nat.lt_succ_of_le (length_le_of_mem_codesUpTo c hx))
      rw [List.filter_eq_self.mpr hall, codesUpTo_length]

/-! ### The loops of R181 and R184 -/

theorem codesFrom_eq_flatMap (left j : Nat) : codesFrom c left (j + 1) (startCode c j) = (List.range' j left).flatMap (codeRow c) := by
  induction left generalizing j with
  | zero => rfl
  | succ left ih =>
    rw [List.range'_succ, List.flatMap_cons, ← ih (j + 1)]
    rfl

/-- BuildCodes gives the model's table (42_huffman.md R181). -/
theorem codeTable_eq_codes : codeTable c = codes c := by
  rw [codeTable_eq_codesUpTo, codesUpTo, List.range_eq_range', ← codesFrom_eq_flatMap]
  rfl

theorem lengthsOkFrom_eq_all (left j : Nat) :
    lengthsOkFrom c left (j + 1) (startCode c j) =
      (List.range' j left).all fun j => decide (startCode c j + countAt c j ≤ 2 ^ (j + 1)) := by
  induction left generalizing j with
  | zero => rfl
  | succ left ih =>
    rw [List.range'_succ, List.all_cons, ← ih (j + 1)]
    rfl

/-- CodeLengthsOK is the model's check (42_huffman.md R184). -/
theorem codeLengthsOk_eq_lengthsOkFrom : codeLengthsOk c = lengthsOkFrom c 16 1 0 := by
  rw [codeLengthsOk, List.range_eq_range', ← lengthsOkFrom_eq_all]
  rfl

theorem startOf_succ (j : Nat) : startOf c (j + 1) = startCode c j := by
  induction j with
  | zero => rfl
  | succ j ih => rw [startOf, ih]; rfl

/-! ### The table by symbol index -/

variable {c}

/-- Every code of the table stands at a length and an offset (42_huffman.md R181, R182). -/
theorem codeAt_of_codes {k : Nat} {x : Nat × Nat} (h : (codes c)[k]? = some x) : ∃ j i, CodeAt c k x j i := by
  rw [← codeTable_eq_codes, codeTable_eq_codesUpTo] at h
  exact codeAt_of_codesUpTo c le_rfl h

theorem mem_codes {j i : Nat} (hj : j < 16) (hi : i < countAt c j) : (j + 1, startCode c j + i) ∈ codes c := by
  rw [← codeTable_eq_codes]
  exact mem_codesUpTo c hj hi

theorem codes_length : (codes c).length = firstIndex c 16 := by
  rw [← codeTable_eq_codes, codeTable_eq_codesUpTo, codesUpTo_length]

/-- The codes of one length fit in its bits (42_huffman.md R184). -/
theorem endCode_le (hok : codeLengthsOk c = true) {j : Nat} (hj : j < 16) : startCode c j + countAt c j ≤ 2 ^ (j + 1) := by
  simp only [codeLengthsOk, List.all_eq_true, List.mem_range, decide_eq_true_eq] at hok
  exact hok j hj

/-- Every code of a longer length begins with a value past all codes of this one (42_huffman.md R187). -/
theorem endCode_le_startCode {j n : Nat} (h : j < n) : (startCode c j + countAt c j) * 2 ^ (n - j) ≤ startCode c n := by
  induction h with
  | refl => simp [startCode]
  | @step n h ih =>
    have hn : n + 1 - j = n - j + 1 := by have : j + 1 ≤ n := h; omega
    rw [Nat.succ_eq_add_one, startCode, hn, pow_succ, ← mul_assoc]
    omega

/-- The first bits of a code are past every code of that shorter length. -/
theorem CodeAt.endCode_le_prefix {k j i : Nat} {x : Nat × Nat} (h : CodeAt c k x j i) {j' : Nat} (hj : j' < j) :
    startCode c j' + countAt c j' ≤ x.2 / 2 ^ (j - j') := by
  rw [h.code_eq, Nat.le_div_iff_mul_le (Nat.two_pow_pos _)]
  exact (endCode_le_startCode hj).trans (Nat.le_add_right _ _)

theorem CodeAt.code_lt (hok : codeLengthsOk c = true) {k j i : Nat} {x : Nat × Nat} (h : CodeAt c k x j i) : x.2 < 2 ^ x.1 := by
  have := endCode_le hok h.length_lt
  have := h.offset_lt
  rw [h.code_eq]
  dsimp only
  omega

/-- Settles O35: a longer code begins with a value past every shorter code, and codes of one length are different offsets. -/
theorem codesFormAPrefixCode : Obligations.CodesFormAPrefixCode := by
  unfold Obligations.CodesFormAPrefixCode
  intro c hok k k' x y hx hy
  obtain ⟨j, i, hx⟩ := codeAt_of_codes hx
  obtain ⟨j', i', hy⟩ := codeAt_of_codes hy
  refine ⟨hx.code_lt hok, fun hne hle => ?_⟩
  have hj : j ≤ j' := by simpa [hx.code_eq, hy.code_eq] using hle
  obtain hj | rfl := hj.lt_or_eq
  · have hpast := hy.endCode_le_prefix hj
    have hi := hx.offset_lt
    rw [hx.code_eq, show y.1 - (j + 1) = j' - j by rw [hy.code_eq]; dsimp only; omega]
    dsimp only
    omega
  · have := hx.index_eq
    have := hy.index_eq
    simp only [hx.code_eq, hy.code_eq, Nat.sub_self, pow_zero, Nat.div_one]
    omega

end Sys2Proof.Machine
end


section
/-! SUPPORT. The tables HT_DEFINE derives (42_huffman.md R182, R183): the slow-path table in its fields' widths, and the fast cache, whose
writes in symbol order never meet since no code begins another. -/

namespace Sys2Proof.Machine

open Sys2Proof.Spec

variable {c : Vector Byte 16} (v : Vector Byte 256)

/-! ### The slow-path table -/

theorem startCode_le_two_pow (hok : codeLengthsOk c = true) {j : Nat} (hj : j < 16) : startCode c j ≤ 2 ^ 16 :=
  calc startCode c j ≤ startCode c j + countAt c j := Nat.le_add_right _ _
    _ ≤ 2 ^ (j + 1) := endCode_le hok hj
    _ ≤ 2 ^ 16 := Nat.pow_le_pow_right (by norm_num) hj

/-- MINCODE holds start(l) (42_huffman.md R182). -/
theorem buildSlot_mincode (hok : codeLengthsOk c = true) {j : Nat} (hj : j < 16) :
    (entry (buildSlot c v).mincode j).toNat = startCode c j := by
  have := startCode_le_two_pow hok hj
  rw [buildSlot, entry_tabulate _ _ hj, BitVec.toNat_ofNat, Nat.mod_eq_of_lt (by omega)]

/-- VALPTR holds first(l) (42_huffman.md R182). -/
theorem buildSlot_valptr (hn : firstIndex c 16 ≤ 256) {j : Nat} (hj : j < 16) :
    (entry (buildSlot c v).valptr j).toNat = firstIndex c j := by
  have := firstIndex_mono c hj.le
  rw [buildSlot, entry_tabulate _ _ hj, BitVec.toNat_ofNat, Nat.mod_eq_of_lt (by omega)]

/-- MAXCODE holds the last code of the length, or −1, in two's complement (42_huffman.md R182). -/
theorem buildSlot_maxcode (hok : codeLengthsOk c = true) {j : Nat} (hj : j < 16) :
    (entry (buildSlot c v).maxcode j).toInt = maxCode c j := by
  have hend := endCode_le hok hj
  have hpow : 2 ^ (j + 1) ≤ 2 ^ 16 := Nat.pow_le_pow_right (by norm_num) hj
  rw [buildSlot, entry_tabulate _ _ hj]
  apply BitVec.toInt_ofInt_eq_self (by norm_num) <;> unfold maxCode <;> split <;> omega

/-! ### Which code begins eight bits -/

/-- A code of at most 8 bits begins the 8 bits p (42_huffman.md R183). -/
def Begins (x : Nat × Nat) (p : Nat) : Prop := x.1 ≤ 8 ∧ p / 2 ^ (8 - x.1) = x.2

theorem Begins.index_unique (hok : codeLengthsOk c = true) {j k p : Nat} {x y : Nat × Nat} (hx : (codes c)[j]? = some x)
    (hy : (codes c)[k]? = some y) (hxp : Begins x p) (hyp : Begins y p) : j = k := by
  wlog hle : x.1 ≤ y.1 generalizing j k x y
  · exact (this hy hx hyp hxp (by omega)).symm
  by_contra hne
  refine (codesFormAPrefixCode c hok j k x y hx hy).2 hne hle ?_
  rw [← hyp.2, Nat.div_div_eq_div_mul, ← pow_add, show 8 - y.1 + (y.1 - x.1) = 8 - x.1 by have := hyp.1; omega, hxp.2]

/-- The fast index of 8 bits is the symbol index of the code that begins them. -/
theorem fastIndex_eq_some_iff (hok : codeLengthsOk c = true) {p k : Nat} :
    fastIndex c p = some k ↔ ∃ x, (codes c)[k]? = some x ∧ Begins x p := by
  rw [fastIndex, codeTable_eq_codes]
  simp only [List.findIdx?_eq_some_iff_getElem, Bool.and_eq_true, decide_eq_true_eq, List.getElem?_eq_some_iff]
  constructor
  · rintro ⟨hk, hb, -⟩
    exact ⟨_, ⟨hk, rfl⟩, hb⟩
  · rintro ⟨x, ⟨hk, rfl⟩, hb⟩
    refine ⟨hk, hb, fun j hj hjb => ?_⟩
    have := Begins.index_unique hok (List.getElem?_eq_getElem (hj.trans hk)) (List.getElem?_eq_getElem hk) hjb hb
    omega

theorem fastIndex_eq_none_iff (c : Vector Byte 16) (p : Nat) : fastIndex c p = none ↔ ∀ x ∈ codes c, ¬Begins x p := by
  simp [fastIndex, codeTable_eq_codes, List.findIdx?_eq_none_iff, Begins]

/-- Any 8 bits that begin with a code of length ≤ 8 get that code's length and symbol (42_huffman.md R183). -/
theorem buildSlot_fast_of_begins (hok : codeLengthsOk c = true) {p k : Nat} (hp : p < 256) {x : Nat × Nat}
    (hx : (codes c)[k]? = some x) (hb : Begins x p) :
    (entry (buildSlot c v).fastlen p).toNat = x.1 ∧ entry (buildSlot c v).fastsym p = entry v k := by
  have hf := (fastIndex_eq_some_iff hok).mpr ⟨x, hx, hb⟩
  have hlen : x.1 < 16 := by have := hb.1; omega
  rw [buildSlot, entry_tabulate _ _ hp, entry_tabulate _ _ hp]
  simp [fastLen, fastSym, hf, codeTable_eq_codes, hx, hlen]

/-- All other 8 bits get length 0 (42_huffman.md R183). -/
theorem buildSlot_fast_of_not_begins {p : Nat} (hp : p < 256) (h : ∀ x ∈ codes c, ¬Begins x p) :
    entry (buildSlot c v).fastlen p = 0#4 ∧ entry (buildSlot c v).fastsym p = 0#8 := by
  have hf := (fastIndex_eq_none_iff c p).mpr h
  rw [buildSlot, entry_tabulate _ _ hp, entry_tabulate _ _ hp]
  simp [fastLen, fastSym, hf]

/-! ### The writes of R183 -/

/-- Writes to one entry that all write y leave y there, if there is such a write or y stood there before. -/
theorem foldl_set_getElem? {α : Type} {p : Nat} {y : α} (ws : List (Nat × α)) (tab : List α) (hp : p < tab.length)
    (hw : ∀ w ∈ ws, w.1 = p → w.2 = y) (h : tab[p]? = some y ∨ ∃ w ∈ ws, w.1 = p) :
    (ws.foldl (fun tab w => tab.set w.1 w.2) tab)[p]? = some y := by
  induction ws generalizing tab with
  | nil => simpa using h
  | cons w ws ih =>
    obtain ⟨hhead, htail⟩ := List.forall_mem_cons.mp hw
    refine ih (tab.set w.1 w.2) (by simpa using hp) htail ?_
    by_cases hwp : w.1 = p
    · exact .inl (by rw [hwp, List.getElem?_set_self hp, hhead hwp])
    · rw [List.getElem?_set_ne hwp]
      exact h.imp_right fun ⟨u, hu, hup⟩ => ⟨u, (List.mem_cons.mp hu).resolve_left (by rintro rfl; exact hwp hup), hup⟩

/-- The writes to entry p are those of the codes that begin p: length and symbol of the code (42_huffman.md R183). -/
theorem mem_fastWrites_iff {p : Nat} {y : Nat × Byte} :
    (p, y) ∈ fastWrites c v ↔ ∃ k x, (codes c)[k]? = some x ∧ Begins x p ∧ y = (x.1, entry v k) := by
  simp only [fastWrites, List.mem_flatMap, Prod.exists, List.mem_zipIdx_iff_getElem?, List.mem_ite_nil_right, List.mem_map,
    List.mem_range, Prod.mk.injEq]
  constructor
  · rintro ⟨l, code, k, hx, hl, j, hj, rfl, rfl⟩
    refine ⟨k, l, code, hx, ⟨hl, ?_⟩, rfl⟩
    dsimp only
    rw [mul_comm, Nat.mul_add_div (Nat.two_pow_pos _), Nat.div_eq_of_lt hj, Nat.add_zero]
  · rintro ⟨k, l, code, hx, ⟨hl, hp : p / 2 ^ (8 - l) = code⟩, rfl⟩
    refine ⟨l, code, k, hx, hl, p % 2 ^ (8 - l), Nat.mod_lt _ (Nat.two_pow_pos _), ?_, rfl⟩
    rw [← hp, Nat.div_add_mod']

theorem fastTable_getElem? {p : Nat} (hp : p < 256) {y : Nat × Byte} (hw : ∀ z, (p, z) ∈ fastWrites c v → z = y)
    (h : y = (0, 0#8) ∨ (p, y) ∈ fastWrites c v) : (fastTable c v)[p]? = some y := by
  refine foldl_set_getElem? (fastWrites c v) _ (by rwa [List.length_replicate]) (fun w hmem hwp => hw _ (hwp ▸ hmem)) ?_
  exact h.imp (fun hy => by rw [hy, List.getElem?_replicate, if_pos hp]) fun hmem => ⟨_, hmem, rfl⟩

/-- The fast cache is what the writes leave (42_huffman.md R183). -/
theorem buildSlot_fast_eq_fastTable (hok : codeLengthsOk c = true) {p : Nat} (hp : p < 256) :
    ((entry (buildSlot c v).fastlen p).toNat, entry (buildSlot c v).fastsym p) = (fastTable c v).getD p (0, 0#8) := by
  rw [List.getD_eq_getElem?_getD]
  by_cases h : ∀ x ∈ codes c, ¬Begins x p
  · obtain ⟨hlen, hsym⟩ := buildSlot_fast_of_not_begins v hp h
    rw [hlen, hsym, fastTable_getElem? v hp (y := (0, 0#8)) (fun z hz => ?_) (.inl rfl)]
    · rfl
    · obtain ⟨k, x, hx, hb, -⟩ := (mem_fastWrites_iff v).mp hz
      exact absurd hb (h x (List.mem_of_getElem? hx))
  · push Not at h
    obtain ⟨x, hmem, hb⟩ := h
    obtain ⟨k, hx⟩ := List.mem_iff_getElem?.mp hmem
    obtain ⟨hlen, hsym⟩ := buildSlot_fast_of_begins v hok hp hx hb
    rw [hlen, hsym, fastTable_getElem? v hp (fun z hz => ?_) (.inr ((mem_fastWrites_iff v).mpr ⟨k, x, hx, hb, rfl⟩))]
    · rfl
    · obtain ⟨k', x', hx', hb', rfl⟩ := (mem_fastWrites_iff v).mp hz
      obtain rfl := Begins.index_unique hok hx' hx hb' hb
      obtain rfl := Option.some.inj (hx'.symm.trans hx)
      rfl

/-- Settles O34: the loops of R181 and R184 unroll to the model's tables, the slow-path fields are wide enough for counts that pass the
check, and no two writes to the fast cache meet. -/
theorem tableConstructionFollowsTheRules : Obligations.TableConstructionFollowsTheRules := by
  unfold Obligations.TableConstructionFollowsTheRules
  refine fun c v => ⟨codeTable_eq_codes c, codeLengthsOk_eq_lengthsOkFrom c, fun hok hn l hl hl16 => ?_,
    fun hok p hp => buildSlot_fast_eq_fastTable v hok hp⟩
  obtain ⟨j, rfl⟩ := Nat.exists_eq_add_of_le' hl
  have hj : j < 16 := hl16
  rw [codes_length] at hn
  rw [startOf_succ, Nat.add_sub_cancel, buildSlot_mincode v hok hj, buildSlot_valptr v hn hj, buildSlot_maxcode v hok hj,
    ← codeTable_eq_codes, codeTable_eq_codesUpTo, codesUpTo_filter_length c 16 j hj.le]
  exact ⟨rfl, rfl, fun hpos => if_pos hpos, fun hzero => if_neg (Nat.not_lt.mpr hzero.le)⟩

end Sys2Proof.Machine
end


section
/-! SUPPORT. Decode on a slot that HT_DEFINE built (42_huffman.md R188–R192, R195): the slow path length by length, the code that comes
next in the stream, and the fast path as its shortcut. -/

namespace Sys2Proof.Machine

open Sys2Proof.Spec

variable {m : Source} {r : Reader} {sl : HuffSlot} {c : Vector Byte 16} {v : Vector Byte 256}

/-! ### The bits ahead -/

/-- The next bits are the first of any more bits ahead (20_memory.md R95). -/
theorem getBits_prefix (h : r.Buffered) {a n : Nat} (han : a ≤ n) (hn : n ≤ 16) :
    (getBits m a r).1 = (getBits m n r).1 / 2 ^ (n - a) := by
  have hadd := getBits_add m (a := a) (b := n - a) (by omega) h
  rw [Nat.add_sub_cancel' han] at hadd
  have hrest := getBits_lt m (n - a) (getBits m a r).2
  rw [hadd, mul_comm, Nat.mul_add_div (Nat.two_pow_pos _), Nat.div_eq_of_lt hrest, Nat.add_zero]

/-- One bit more ahead is appended on the right. -/
theorem getBits_succ (h : r.Buffered) {n : Nat} (hn : n + 1 ≤ 16) :
    getBits m (n + 1) r =
      (2 * (getBits m n r).1 + (getBits m 1 (getBits m n r).2).1, (getBits m 1 (getBits m n r).2).2) := by
  rw [getBits_add m hn h, pow_one, mul_comm]

/-- Peeking moves nothing: the bits ahead stay the same (41_bitreader.md R153). -/
theorem peekBits_fst_of_peeked (h : r.Buffered) {k n : Nat} (hk : k ≤ 16) (hn : n ≤ 16) :
    (peekBits m n (peekBits m k r).2).1 = (peekBits m n r).1 := by
  have hq : (refill m k r).Buffered := refill_buffered m k r hk h
  have hall : (getBits m 16 (refill m k r)).1 = (getBits m 16 r).1 := by rw [getBits_eq, getBits_eq, refill_refill m hk]
  rw [peekBits_snd]
  exact (getBits_prefix hq hn le_rfl).trans (hall ▸ (getBits_prefix h hn le_rfl).symm)

/-! ### The slow path length by length (42_huffman.md R190) -/

/-- The slow path at length j + 1, with that many bits read. -/
def slowFrom (m : Source) (sl : HuffSlot) (j : Nat) (r : Reader) : Decoded × Reader :=
  slowDecode m sl (15 - j) (getBits m (j + 1) r).1 (getBits m (j + 1) r).2

/-- The code read so far matches at length j + 1. -/
def MatchesAt (m : Source) (sl : HuffSlot) (j : Nat) (r : Reader) : Prop := codeMatches sl j (getBits m (j + 1) r).1 = true

theorem slowPath_eq_slowFrom (m : Source) (sl : HuffSlot) (r : Reader) : slowPath m sl r = slowFrom m sl 0 r := rfl
theorem slowPathFromNine_eq_slowFrom (m : Source) (sl : HuffSlot) (r : Reader) : slowPathFromNine m sl r = slowFrom m sl 8 r := rfl

theorem slowFrom_of_match {j : Nat} (hj : j < 16) (hm : MatchesAt m sl j r) :
    slowFrom m sl j r =
      ({ sym := slowSymbol sl j (getBits m (j + 1) r).1, len := j + 1, bad := none }, (getBits m (j + 1) r).2) := by
  obtain ⟨left, hleft⟩ : ∃ left, 15 - j = left := ⟨_, rfl⟩
  rw [slowFrom, hleft]
  cases left with
  | zero =>
    obtain rfl : j = 15 := by omega
    exact if_pos hm
  | succ left =>
    rw [slowDecode, show 14 - left = j by omega, show 15 - left = j + 1 by omega]
    exact if_pos hm

theorem slowFrom_of_no_match (h : r.Buffered) {j : Nat} (hj : j < 15) (hm : ¬MatchesAt m sl j r) :
    slowFrom m sl j r = slowFrom m sl (j + 1) r := by
  rw [slowFrom, show 15 - j = 15 - (j + 1) + 1 by omega, slowDecode, show 14 - (15 - (j + 1)) = j by omega, slowFrom,
    getBits_succ h (n := j + 1) (by omega)]
  exact if_neg hm

theorem slowFrom_of_bad (hm : ¬MatchesAt m sl 15 r) :
    slowFrom m sl 15 r = ({ sym := 0#8, len := 16, bad := some .badCode }, (getBits m 16 r).2) :=
  if_neg hm

/-- The slow path passes the lengths at which nothing matches. -/
theorem slowFrom_skip (h : r.Buffered) {j : Nat} (hj : j < 16) (hm : ∀ n, n < j → ¬MatchesAt m sl n r) :
    slowFrom m sl 0 r = slowFrom m sl j r := by
  induction j with
  | zero => rfl
  | succ j ih =>
    rw [ih (by omega) fun n hn => hm n (by omega)]
    exact slowFrom_of_no_match h (by omega) (hm j j.lt_succ_self)

/-! ### The comparison and the symbol on a built slot -/

/-- The comparison with MAXCODE holds up to the last code of the length (42_huffman.md R182, R190). -/
theorem matchesAt_buildSlot_iff (hok : codeLengthsOk c = true) {j : Nat} (hj : j < 16) :
    MatchesAt m (buildSlot c v) j r ↔ 0 < countAt c j ∧ (getBits m (j + 1) r).1 < startCode c j + countAt c j := by
  rw [MatchesAt, codeMatches, decide_eq_true_iff, buildSlot_maxcode v hok hj, maxCode]
  split <;> omega

/-- The offset of a code from MINCODE leads to its symbol (42_huffman.md R182). -/
theorem CodeAt.slowSymbol (hok : codeLengthsOk c = true) (hn : firstIndex c 16 ≤ 256) {k j i : Nat} {x : Nat × Nat}
    (hx : CodeAt c k x j i) : slowSymbol (buildSlot c v) j x.2 = entry v k := by
  have hk : k < 256 := by
    have hle : firstIndex c (j + 1) ≤ firstIndex c 16 := firstIndex_mono c hx.length_lt
    have := hx.index_eq
    have := hx.offset_lt
    rw [firstIndex] at hle
    omega
  have hindex : (firstIndex c j : Int) + x.2 - startCode c j = k := by
    rw [hx.code_eq, hx.index_eq]
    push_cast
    ring
  rw [Machine.slowSymbol, buildSlot_mincode v hok hx.length_lt, buildSlot_valptr v hn hx.length_lt]
  simp only [hindex]
  rw [if_pos (by omega)]
  rfl

/-! ### The code that comes next -/

/-- Where a code comes next, the slow path finds nothing at the shorter lengths, and at the code's length its symbol. -/
theorem slowPath_of_code (hok : codeLengthsOk c = true) (hn : firstIndex c 16 ≤ 256) (h : r.Buffered) {k : Nat} {x : Nat × Nat}
    (hx : (codes c)[k]? = some x) (hnext : (getBits m x.1 r).1 = x.2) :
    slowPath m (buildSlot c v) r = ({ sym := entry v k, len := x.1, bad := none }, (getBits m x.1 r).2) := by
  obtain ⟨j, i, hx⟩ := codeAt_of_codes hx
  have hj := hx.length_lt
  have hlen : x.1 = j + 1 := by rw [hx.code_eq]
  rw [hlen] at hnext ⊢
  have hshort : ∀ n, n < j → ¬MatchesAt m (buildSlot c v) n r := fun n hnj hmatch => by
    obtain ⟨-, hlt⟩ := (matchesAt_buildSlot_iff hok (by omega)).mp hmatch
    have hpast := hx.endCode_le_prefix hnj
    rw [getBits_prefix h (a := n + 1) (n := j + 1) (by omega) (by omega), hnext, show j + 1 - (n + 1) = j - n by omega] at hlt
    omega
  have hmatch : MatchesAt m (buildSlot c v) j r := by
    have hi := hx.offset_lt
    rw [matchesAt_buildSlot_iff hok hj, hnext, hx.code_eq]
    dsimp only
    omega
  rw [slowPath_eq_slowFrom, slowFrom_skip h hj hshort, slowFrom_of_match hj hmatch, hnext, hx.slowSymbol hok hn]

/-- A value of j + 1 bits from the first code of that length on that is no code is past the last one. -/
theorem endCode_le_of_no_code {j b : Nat} (hj : j < 16) (hstart : startCode c j ≤ b) (hno : (j + 1, b) ∉ codes c) :
    startCode c j + countAt c j ≤ b := by
  by_contra hlt
  have hmem := mem_codes (c := c) hj (i := b - startCode c j) (by omega)
  rw [Nat.add_sub_cancel' hstart] at hmem
  exact hno hmem

/-- Where no code of at most n bits comes next, the bits ahead are past every code of those lengths (42_huffman.md R191). -/
theorem endCode_le_getBits (h : r.Buffered) {n : Nat} (hn : n ≤ 16) (hno : ∀ x ∈ codes c, x.1 ≤ n → (getBits m x.1 r).1 ≠ x.2)
    {j : Nat} (hj : j < n) : startCode c j + countAt c j ≤ (getBits m (j + 1) r).1 := by
  refine endCode_le_of_no_code (by omega) ?_ fun hmem => hno _ hmem hj rfl
  induction j with
  | zero => exact Nat.zero_le _
  | succ j ih =>
    have hprev : startCode c j + countAt c j ≤ (getBits m (j + 1) r).1 :=
      endCode_le_of_no_code (by omega) (ih (by omega)) fun hmem => hno _ hmem (by dsimp only; omega) rfl
    rw [startCode, getBits_succ h (by omega)]
    dsimp only
    omega

theorem no_match_of_no_code (hok : codeLengthsOk c = true) (h : r.Buffered) {n : Nat} (hn : n ≤ 16)
    (hno : ∀ x ∈ codes c, x.1 ≤ n → (getBits m x.1 r).1 ≠ x.2) {j : Nat} (hj : j < n) : ¬MatchesAt m (buildSlot c v) j r := by
  have := endCode_le_getBits h hn hno hj
  rw [matchesAt_buildSlot_iff hok (by omega)]
  omega

/-- Where no code comes next, the slow path gives BADCODE after 16 bits (42_huffman.md R192). -/
theorem slowPath_of_no_code (hok : codeLengthsOk c = true) (h : r.Buffered) (hno : ∀ x ∈ codes c, (getBits m x.1 r).1 ≠ x.2) :
    slowPath m (buildSlot c v) r = ({ sym := 0#8, len := 16, bad := some .badCode }, (getBits m 16 r).2) := by
  have hmiss (j : Nat) (hj : j < 16) : ¬MatchesAt m (buildSlot c v) j r := no_match_of_no_code hok h le_rfl (fun x hx _ => hno x hx) hj
  rw [slowPath_eq_slowFrom, slowFrom_skip h (j := 15) (by norm_num) fun j hj => hmiss j (by omega),
    slowFrom_of_bad (hmiss 15 (by norm_num))]

/-! ### The fast path -/

/-- A code of at most 8 bits begins the peeked bits exactly where it comes next. -/
theorem begins_peek_iff (h : r.Buffered) {x : Nat × Nat} :
    Begins x (peekBits m 8 r).1 ↔ x.1 ≤ 8 ∧ (getBits m x.1 r).1 = x.2 :=
  and_congr_right fun hle => by rw [getBits_prefix h hle (by norm_num)]; rfl

/-- A defined slot that meets the slot invariant is built from counts that pass the checks (10_state.md R57). -/
theorem HuffSlot.Consistent.built (h : sl.Consistent) (hv : sl.valid = true) :
    sl = buildSlot sl.counts sl.huffval ∧ codeLengthsOk sl.counts = true ∧ firstIndex sl.counts 16 ≤ 256 := by
  rw [HuffSlot.Consistent, if_pos hv] at h
  obtain ⟨hbuilt, hok, hn, -⟩ := h
  exact ⟨hbuilt, hok, hn⟩

theorem slotDecode_of_fast (hv : sl.valid = true) (hlen : (entry sl.fastlen (peekBits m 8 r).1).toNat ≠ 0) :
    slotDecode m sl r =
      ({ sym := entry sl.fastsym (peekBits m 8 r).1, len := (entry sl.fastlen (peekBits m 8 r).1).toNat, bad := none },
        (getBits m (entry sl.fastlen (peekBits m 8 r).1).toNat (peekBits m 8 r).2).2) := by
  rw [slotDecode, if_pos hv]
  exact if_pos hlen

theorem slotDecode_of_slow (hv : sl.valid = true) (hlen : entry sl.fastlen (peekBits m 8 r).1 = 0#4) :
    slotDecode m sl r = slowPath m sl (peekBits m 8 r).2 := by
  rw [slotDecode, if_pos hv]
  exact if_neg (by rw [hlen]; decide)

theorem slotDecode_of_undefined (hv : sl.valid = false) :
    slotDecode m sl r = ({ sym := 0#8, len := 0, bad := some .badTable }, r) :=
  if_neg (by rw [hv]; decide)

/-- The codes have at least one bit. -/
theorem code_length_pos {k : Nat} {x : Nat × Nat} (hx : (codes c)[k]? = some x) : 0 < x.1 := by
  obtain ⟨j, i, hx⟩ := codeAt_of_codes hx
  rw [hx.code_eq]
  exact j.succ_pos

theorem peekBits_buffered {n : Nat} (hn : n ≤ 16) (h : r.Buffered) : (peekBits m n r).2.Buffered := by
  rw [peekBits_snd]
  exact refill_buffered m n r hn h

/-- The fast path is a shortcut of the slow path (42_huffman.md R188). -/
theorem slotDecode_eq_slowPath (hs : sl.Consistent) (hv : sl.valid = true) (h : r.Buffered) :
    slotDecode m sl r = slowPath m sl (peekBits m 8 r).2 := by
  obtain ⟨hbuilt, hok, hn⟩ := hs.built hv
  generalize sl.counts = c, sl.huffval = v at hbuilt hok hn
  subst hbuilt
  have hp : (peekBits m 8 r).1 < 256 := peekBits_lt m 8 r
  have hq : (peekBits m 8 r).2.Buffered := peekBits_buffered (by norm_num) h
  by_cases hb : ∀ x ∈ codes c, ¬Begins x (peekBits m 8 r).1
  · exact slotDecode_of_slow rfl (buildSlot_fast_of_not_begins v hp hb).1
  · push Not at hb
    obtain ⟨x, hmem, hb⟩ := hb
    obtain ⟨k, hx⟩ := List.mem_iff_getElem?.mp hmem
    obtain ⟨hlen, hsym⟩ := buildSlot_fast_of_begins v hok hp hx hb
    have hnext : (getBits m x.1 (peekBits m 8 r).2).1 = x.2 := by
      rw [← peekBits_peekBits] at hb
      exact ((begins_peek_iff hq).mp hb).2
    rw [slotDecode_of_fast rfl (by rw [hlen]; exact (code_length_pos hx).ne'), hlen, hsym, slowPath_of_code hok hn hq hx hnext]

/-- With no fast entry no code of at most 8 bits comes next, so the slow path reaches length 9 (42_huffman.md R191). -/
theorem slowPath_eq_fromNine (hs : sl.Consistent) (hv : sl.valid = true) (h : r.Buffered)
    (hlen : entry sl.fastlen (peekBits m 8 r).1 = 0#4) : slowPath m sl r = slowPathFromNine m sl r := by
  obtain ⟨hbuilt, hok, -⟩ := hs.built hv
  generalize sl.counts = c, sl.huffval = v at hbuilt hok
  subst hbuilt
  have hno : ∀ x ∈ codes c, x.1 ≤ 8 → (getBits m x.1 r).1 ≠ x.2 := fun x hmem hle hnext => by
    obtain ⟨k, hx⟩ := List.mem_iff_getElem?.mp hmem
    have hfast := (buildSlot_fast_of_begins v hok (peekBits_lt m 8 r) hx ((begins_peek_iff h).mpr ⟨hle, hnext⟩)).1
    have hpos := code_length_pos hx
    rw [hlen, BitVec.toNat_zero] at hfast
    omega
  rw [slowPath_eq_slowFrom, slowPathFromNine_eq_slowFrom]
  exact slowFrom_skip h (by norm_num) fun j hj => no_match_of_no_code hok h (by norm_num) hno hj

/-! ### Obligations -/

/-- Settles O36: a fast entry is a code that comes next, and the slow path finds that code; no fast entry leaves no code of at most 8
bits to find. -/
theorem fastPathAgreesWithSlowPath : Obligations.FastPathAgreesWithSlowPath := by
  unfold Obligations.FastPathAgreesWithSlowPath
  intro m sl r hs hv h
  have hslow := slotDecode_eq_slowPath (m := m) hs hv h
  refine ⟨hslow, fun hlen => ?_⟩
  rw [← peekBits_peekBits] at hlen
  exact hslow.trans (slowPath_eq_fromNine hs hv (peekBits_buffered (by norm_num) h) hlen)

/-- Settles O37: Decode is the slow path, which finds the code that comes next, or none within 16 bits. -/
theorem decodeReturnsTheSymbolOfTheNextCode : Obligations.DecodeReturnsTheSymbolOfTheNextCode := by
  unfold Obligations.DecodeReturnsTheSymbolOfTheNextCode
  refine fun m sl r => ⟨slotDecode_of_undefined, fun hs hv h => ?_⟩
  obtain ⟨hbuilt, hok, hn⟩ := hs.built hv
  have hq : (peekBits m 8 r).2.Buffered := peekBits_buffered (by norm_num) h
  have hpeek (x : Nat × Nat) (hx : x ∈ codes sl.counts) : (getBits m x.1 (peekBits m 8 r).2).1 = (peekBits m x.1 r).1 := by
    obtain ⟨k, hx⟩ := List.mem_iff_getElem?.mp hx
    obtain ⟨j, i, hx⟩ := codeAt_of_codes hx
    exact peekBits_fst_of_peeked h (by norm_num) (by rw [hx.code_eq]; exact hx.length_lt)
  have hdecode : slotDecode m sl r = slowPath m (buildSlot sl.counts sl.huffval) (peekBits m 8 r).2 :=
    (slotDecode_eq_slowPath hs hv h).trans (by rw [← hbuilt])
  refine ⟨fun k x hx hnext => ?_, fun hno => ?_⟩
  · rw [slotDecode_consumed, hdecode, slowPath_of_code hok hn hq hx ((hpeek x (List.mem_of_getElem? hx)).trans hnext)]
    exact ⟨rfl, rfl⟩
  · rw [slotDecode_consumed, hdecode, slowPath_of_no_code hok hq fun x hx => (hpeek x hx).symm ▸ hno x hx]
    exact ⟨rfl, rfl⟩

/-! ### HT_DECODE (42_huffman.md R195) -/

theorem exec_htDecode (k : HuffClass) (i : BitVec 2) (s : State) :
    exec (.htDecode k i) s = .next { s with
      reader := (slotDecode s.source (s.slot k i) s.reader).2
      errors := raised s.errors (slotDecode s.source (s.slot k i) s.reader).1.bad
      result := decodeResult (slotDecode s.source (s.slot k i) s.reader).1 } := by
  rcases hbad : (slotDecode s.source (s.slot k i) s.reader).1.bad with _ | e <;>
    simp only [exec, execHtDecode, hbad, raised, Errors.raiseOpt]

/-- The slot operand is slot 4·class + id (10_state.md R55). -/
theorem slotIndex_val (k : HuffClass) (i : BitVec 2) : (slotIndex k i).val = 4 * classBit k + i.toNat := by
  cases k <;> simp [classBit]

theorem getElem?_slotIndex (k : HuffClass) (i : BitVec 2) (s : State) : s.ht[4 * classBit k + i.toNat]? = some (s.slot k i) := by
  rw [← slotIndex_val]
  exact Vector.getElem?_eq_getElem (slotIndex k i).isLt

/-- The three fields of RESULT do not meet (42_huffman.md R195). -/
theorem decodeResult_toNat (d : Decoded) (h : d.len ≤ 16) :
    (decodeResult d).toNat = (if d.bad.isSome then 2 ^ 31 else 0) + d.len * 2 ^ 8 + d.sym.toNat := by
  simp only [decodeResult, toNat_append_eq, flagBit_toNat, BitVec.toNat_ofNat, Nat.mod_eq_of_lt (show d.len < 2 ^ 5 by omega), bit]
  split <;> omega

theorem decodeResult_badTable : decodeResult { sym := 0#8, len := 0, bad := some .badTable } = 0x80000000#32 := by decide

/-- Settles O38: the length fits its field, and an undefined slot is read by no bit. -/
theorem htDecodeReturnsSymbolAndLength : Obligations.HtDecodeReturnsSymbolAndLength := by
  unfold Obligations.HtDecodeReturnsSymbolAndLength
  intro k i s
  have hlen := slotDecode_len_le s.source (s.slot k i) s.reader
  refine ⟨encodes_of_wellFormed rfl, s.slot k i, _, getElem?_slotIndex k i s, exec_htDecode k i s, rfl, decodeResult_toNat _ hlen, hlen,
    fun hv => ?_⟩
  rw [slotDecode_of_undefined hv]
  exact ⟨rfl, decodeResult_badTable⟩

end Sys2Proof.Machine
end


section
/-! SUPPORT. The body of a table definition as raw bytes from SRCPOS on (30_encoding.md R121, R122; 20_memory.md R92, R93), and its two
fields of the tag byte. -/

namespace Sys2Proof.Machine

open Sys2Proof.Spec

/-- The reader after n raw bytes (20_memory.md R92). -/
def Reader.advance (n : Nat) (r : Reader) : Reader := { r with srcpos := r.srcpos + BitVec.ofNat 32 n }

theorem Reader.advance_add (a b : Nat) (r : Reader) : (r.advance a).advance b = r.advance (a + b) := by
  simp only [Reader.advance, BitVec.add_assoc, BitVec.ofNat_add]

theorem Reader.advance_zero (r : Reader) : r.advance 0 = r := by
  simp only [Reader.advance, BitVec.add_zero]

/-- Too few bytes left: those that are left are read (20_memory.md R92, 42_huffman.md R185). -/
theorem readBytes_of_short (m : Source) (n : Nat) (r : Reader) (hr : r.srcpos.toNat ≤ m.len.toNat)
    (hn : m.len.toNat < r.srcpos.toNat + n) : readBytes m n r = (none, r.advance (m.left r)) := by
  induction n generalizing r with
  | zero => omega
  | succ n ih =>
    rcases srcRead_cases m r with ⟨hle, he⟩ | ⟨hlt, he⟩
    · have hleft : m.left r = 0 := Nat.sub_eq_zero_of_le hle
      rw [readBytes, he, hleft, Reader.advance_zero]
    · have hpos := srcpos_succ_toNat hlt
      have hleft : m.left r = 1 + m.left (r.advance 1) := by
        simp only [Source.left, Reader.advance, hpos]
        have : r.srcpos.toNat < m.len.toNat := hlt
        omega
      have hrest := ih (r.advance 1) (by simp only [Reader.advance, hpos]; exact hlt) (by simp only [Reader.advance, hpos]; omega)
      rw [Reader.advance_add, ← hleft] at hrest
      rw [readBytes, he]
      simp only [Reader.advance] at hrest ⊢
      rw [hrest]

section

variable {s : State}

/-! ### Reading the body -/

/-- n bytes of the table body from byte k on. -/
def bodyBytes (s : State) (k n : Nat) : List Byte := tabFrom (fun i => bodyByte s (k + i)) 0 n

@[simp] theorem bodyBytes_length (s : State) (k n : Nat) : (bodyBytes s k n).length = n := tabFrom_length _ _ _

theorem bodyBytes_getD (s : State) (k n i : Nat) : (bodyBytes s k n).getD i 0#8 = if i < n then bodyByte s (k + i) else 0#8 := by
  split
  case isTrue hi =>
    rw [List.getD_eq_getElem _ _ (by simpa using hi)]
    simp only [bodyBytes, tabFrom_getElem, Nat.zero_add]
  case isFalse hi => exact List.getD_eq_default _ _ (by simpa using hi)

theorem srcRead_body (h : bodyHas s 1) : srcRead s.source s.reader = (some (bodyByte s 0), s.reader.advance 1) := by
  rcases srcRead_cases s.source s.reader with ⟨hle, -⟩ | ⟨-, he⟩
  · exact absurd h (Nat.not_le.mpr (Nat.lt_succ_of_le hle))
  · rw [he, bodyByte, BitVec.add_zero]
    rfl

theorem srcRead_of_no_body (h : ¬bodyHas s 1) : srcRead s.source s.reader = (none, s.reader) := by
  rcases srcRead_cases s.source s.reader with ⟨-, he⟩ | ⟨hlt, -⟩
  · exact he
  · exact absurd (Nat.succ_le_of_lt hlt) h

theorem advance_srcpos_toNat {k : Nat} (h : bodyHas s k) : (s.reader.advance k).srcpos.toNat = s.reader.srcpos.toNat + k :=
  addr_add_toNat (m := s.source) h

theorem readBytes_body {k n : Nat} (h : bodyHas s (k + n)) :
    readBytes s.source n (s.reader.advance k) = (some (bodyBytes s k n), s.reader.advance (k + n)) := by
  have hk : bodyHas s k := by rw [bodyHas] at h ⊢; omega
  rw [readBytes_some _ _ _ (by rw [advance_srcpos_toNat hk, Nat.add_assoc]; exact h), ← Reader.advance_add]
  simp only [bodyBytes, bodyByte, Reader.advance, BitVec.ofNat_add, BitVec.add_assoc]

theorem readBytes_of_short_body {k n : Nat} (hk : bodyHas s k) (h : ¬bodyHas s (k + n)) :
    readBytes s.source n (s.reader.advance k) = (none, s.reader.advance (bodyLeft s)) := by
  have hpos := advance_srcpos_toNat hk
  have hlen : s.source.len.toNat = s.srclen.toNat := rfl
  rw [bodyHas] at hk h
  have hleft : k + s.source.left (s.reader.advance k) = bodyLeft s := by
    rw [Source.left, hpos, bodyLeft]
    omega
  rw [readBytes_of_short _ _ _ (by omega) (by omega), Reader.advance_add, hleft]

/-! ### The tag byte -/

/-- The fields of the tag byte as numbers. -/
theorem tag_fields (t : Byte) :
    (t.extractLsb' 4 4).toNat = t.toNat / 16 ∧ (t.extractLsb' 0 4).toNat = t.toNat % 16 ∧ (t.extractLsb' 0 2).toNat = t.toNat % 4 ∧
      (t.getLsbD 4).toNat = t.toNat / 16 % 2 := by
  have := t.isLt
  simp only [BitVec.extractLsb'_toNat, Nat.shiftRight_eq_div_pow]
  exact ⟨by omega, by omega, by omega, Nat.toNat_testBit t.toNat 4⟩

/-- The model's check of the tag byte is that of R185 and R200. -/
theorem tag_check_iff (t : Byte) : (1#4 < t.extractLsb' 4 4 ∨ 3#4 < t.extractLsb' 0 4) ↔ badTag t := by
  obtain ⟨hhigh, hlow, -⟩ := tag_fields t
  rw [BitVec.lt_def, BitVec.lt_def, hhigh, hlow]
  rfl

theorem slotIndex_of_tag {t : Byte} (h : ¬badTag t) :
    (slotIndex (.ofBit (t.getLsbD 4)) (t.extractLsb' 0 2)).val = 4 * (t.toNat / 16) + t.toNat % 16 := by
  obtain ⟨-, -, hid, hclass⟩ := tag_fields t
  rw [badTag] at h
  rw [slotIndex_val, classBit_ofBit, hclass, hid]
  omega

theorem wide_iff_of_tag {t : Byte} (h : ¬badTag t) : t.getLsbD 4 = true ↔ t.toNat / 16 = 1 := by
  obtain ⟨-, -, -, hwide⟩ := tag_fields t
  rw [badTag] at h
  rw [← Bool.toNat_eq_one, hwide]
  omega

/-! ### What a definition leaves -/

/-- Fail(code) after n bytes (42_huffman.md R185). -/
theorem failDefine_advance (e : ErrorCode) (n : Nat) (s : State) : s.failDefine e (s.reader.advance n) = failedDefine s e n := by
  simp only [State.failDefine, failedDefine, defineResult, Reader.advance, if_true, add_sub_cancel_left]

/-- RESULT of a definition that succeeds: the bytes read (42_huffman.md R185). -/
theorem defineResult_advance (n : Nat) (r : Reader) : defineResult false r.srcpos (r.advance n).srcpos = BitVec.ofNat 32 n := by
  simp only [defineResult, Reader.advance, Bool.false_eq_true, if_false, add_sub_cancel_left]

/-- A table replaced at an index of its own width. -/
theorem vector_set_eq_setIfInBounds {α : Type} {n i j : Nat} (xs : Vector α n) (x : α) (h : i < n) (hij : i = j) :
    xs.set i x h = xs.setIfInBounds j x := by
  subst hij
  exact Vector.ext fun k hk => by rw [Vector.getElem_set, Vector.getElem_setIfInBounds]

end

end Sys2Proof.Machine
end

section
/-! SUPPORT. HT_DEFINE (42_huffman.md R185, R186): one lemma per check that can fail, in their order, and one for a body that passes. -/

namespace Sys2Proof.Machine

open Sys2Proof.Spec

variable {s : State}

/-! ### The fields of the body -/

theorem padBytes_counts (s : State) : padBytes 16 (bodyBytes s 1 16) = bodyCounts s :=
  Vector.ext fun j hj => by
    rw [padBytes, bodyCounts, tabulate_getElem _ _ _ hj, tabulate_getElem _ _ _ hj, bodyBytes_getD, if_pos hj]

theorem padBytes_values (s : State) : padBytes 256 (bodyBytes s 17 (bodyTotal s)) = bodyValues s :=
  congrArg (tabulate 256) (funext fun i => bodyBytes_getD s 17 (bodyTotal s) i)

theorem firstIndex_eq_sum (c : Vector Byte 16) (n : Nat) : firstIndex c n = ((List.range n).map (countAt c)).sum := by
  induction n with
  | zero => rfl
  | succ n ih => rw [firstIndex, ih, List.range_succ, List.map_append, List.sum_append, List.map_singleton, List.sum_singleton]

/-- n = Σ COUNTS of the body. -/
theorem firstIndex_bodyCounts (s : State) : firstIndex (bodyCounts s) 16 = bodyTotal s := by
  rw [firstIndex_eq_sum, bodyTotal]
  refine congrArg List.sum (List.map_congr_left fun j hj => ?_)
  rw [countAt, bodyCounts, entry_tabulate _ _ (List.mem_range.mp hj)]

/-! ### The checks in their order -/

theorem parseHuffTable_of_no_body (h : ¬bodyHas s 1) : parseHuffTable s.source s.reader = (.error .parseEos, s.reader.advance 0) := by
  rw [parseHuffTable, srcRead_of_no_body h, Reader.advance_zero]

theorem parseHuffTable_of_badTag (h : bodyHas s 1) (ht : badTag (bodyByte s 0)) :
    parseHuffTable s.source s.reader = (.error .parseIndex, s.reader.advance 1) := by
  rw [parseHuffTable, srcRead_body h]
  exact if_pos ((tag_check_iff _).mpr ht)

section
variable (h1 : bodyHas s 1) (ht : ¬badTag (bodyByte s 0))
include h1 ht

theorem parseHuffTable_of_short_counts (h : ¬bodyHas s 17) :
    parseHuffTable s.source s.reader = (.error .parseEos, s.reader.advance (bodyLeft s)) := by
  simp only [parseHuffTable, srcRead_body h1, tag_check_iff, ht, if_false, readBytes_of_short_body (n := 16) h1 h]

theorem parseHuffTable_of_many_symbols (h : bodyHas s 17) (hn : 256 < bodyTotal s) :
    parseHuffTable s.source s.reader = (.error .parseCount, s.reader.advance 17) := by
  simp only [parseHuffTable, srcRead_body h1, tag_check_iff, ht, if_false, readBytes_body (k := 1) (n := 16) h, padBytes_counts,
    firstIndex_bodyCounts, hn, if_true]

theorem parseHuffTable_of_short_values (h : bodyHas s 17) (hn : bodyTotal s ≤ 256) (hv : ¬bodyHas s (17 + bodyTotal s)) :
    parseHuffTable s.source s.reader = (.error .parseEos, s.reader.advance (bodyLeft s)) := by
  simp only [parseHuffTable, srcRead_body h1, tag_check_iff, ht, if_false, readBytes_body (k := 1) (n := 16) h, padBytes_counts,
    firstIndex_bodyCounts, Nat.not_lt.mpr hn, readBytes_of_short_body h hv]

theorem parseHuffTable_of_whole_body (hn : bodyTotal s ≤ 256) (hv : bodyHas s (17 + bodyTotal s)) :
    parseHuffTable s.source s.reader =
      (if codeLengthsOk (bodyCounts s) then
        .ok (slotIndex (.ofBit ((bodyByte s 0).getLsbD 4)) ((bodyByte s 0).extractLsb' 0 2), buildSlot (bodyCounts s) (bodyValues s))
      else .error .parseCodelen, s.reader.advance (17 + bodyTotal s)) := by
  have h : bodyHas s 17 := (Nat.add_le_add_left (Nat.le_add_right _ _) _).trans hv
  simp only [parseHuffTable, srcRead_body h1, tag_check_iff, ht, if_false, readBytes_body (k := 1) (n := 16) h, padBytes_counts,
    firstIndex_bodyCounts, Nat.not_lt.mpr hn, readBytes_body hv, padBytes_values]
  split <;> rfl

end

/-! ### The command -/

theorem exec_htDefine_of_error {e : ErrorCode} {n : Nat} (h : parseHuffTable s.source s.reader = (.error e, s.reader.advance n)) :
    exec .htDefine s = .next (failedDefine s e n) := by
  rw [exec, execHtDefine, State.htDefine, h]
  exact congrArg _ (failDefine_advance e n s)

theorem exec_htDefine_of_ok {i : Fin 8} {sl : HuffSlot} {n : Nat}
    (h : parseHuffTable s.source s.reader = (.ok (i, sl), s.reader.advance n)) :
    exec .htDefine s = .next { s with reader := s.reader.advance n, ht := s.ht.set i sl, result := BitVec.ofNat 32 n } := by
  rw [exec, execHtDefine, State.htDefine, h]
  simp only [defineResult_advance]

theorem bodySlot_consistent (hok : codeLengthsOk (bodyCounts s) = true) (hn : bodyTotal s ≤ 256) :
    (buildSlot (bodyCounts s) (bodyValues s)).Consistent := by
  rw [← padBytes_values]
  exact buildSlot_consistent _ _ hok (by rwa [firstIndex_bodyCounts]) (by rw [bodyBytes_length, firstIndex_bodyCounts])

theorem bodySlot_nvals (hn : bodyTotal s ≤ 256) : (buildSlot (bodyCounts s) (bodyValues s)).nvals.toNat = bodyTotal s := by
  rw [buildSlot, BitVec.toNat_ofNat, firstIndex_bodyCounts, Nat.mod_eq_of_lt (by omega)]

/-- Settles O39: each check that fails ends the parse where it stands, and a body that passes them all is built into its slot. -/
theorem htDefineDefinesOneSlotOrNone : Obligations.HtDefineDefinesOneSlotOrNone := by
  unfold Obligations.HtDefineDefinesOneSlotOrNone
  refine ⟨encodes_of_wellFormed rfl, fun s => ⟨fun h => ?_, fun h ht => ?_, fun h1 ht => ⟨fun h => ?_, fun h hn => ?_,
    fun h hn hv => ?_, fun hn hv hbad => ?_, fun hn hv hok => ?_⟩⟩⟩
  · exact exec_htDefine_of_error (parseHuffTable_of_no_body h)
  · exact exec_htDefine_of_error (parseHuffTable_of_badTag h ht)
  · exact exec_htDefine_of_error (parseHuffTable_of_short_counts h1 ht h)
  · exact exec_htDefine_of_error (parseHuffTable_of_many_symbols h1 ht h hn)
  · exact exec_htDefine_of_error (parseHuffTable_of_short_values h1 ht h hn hv)
  · rw [← codeLengthsOk_eq_lengthsOkFrom] at hbad
    have hparse := parseHuffTable_of_whole_body h1 ht hn hv
    rw [hbad] at hparse
    exact exec_htDefine_of_error hparse
  · rw [← codeLengthsOk_eq_lengthsOkFrom] at hok
    have hparse := parseHuffTable_of_whole_body h1 ht hn hv
    rw [hok] at hparse
    refine ⟨buildSlot (bodyCounts s) (bodyValues s), rfl, bodySlot_nvals hn, rfl, rfl, bodySlot_consistent hok hn, ?_⟩
    rw [exec_htDefine_of_ok hparse, vector_set_eq_setIfInBounds _ _ _ (slotIndex_of_tag ht)]
    rfl

end Sys2Proof.Machine
end


section
/-! SUPPORT. QT_DEFINE and the zigzag order (42_huffman.md R200, R201; 10_state.md R62). -/

namespace Sys2Proof.Machine

open Sys2Proof.Spec

variable {s : State}

/-! ### The zigzag walk (10_state.md R62) -/

/-- ZZ is the walk of the anti-diagonals. -/
theorem zigzagWalk_eq_zzTable : zigzagWalk = zzTable.map Fin.val := by decide

theorem zzTable_nodup : zzTable.Nodup := by decide

theorem zigzagWalk_getElem? {k : Nat} (h : k < 64) : zigzagWalk[k]? = some (zz k).val := by
  have hk : k < zzTable.length := h
  rw [zigzagWalk_eq_zzTable, List.getElem?_map, List.getElem?_eq_getElem hk, zz, List.getD_eq_getElem _ _ hk]
  rfl

/-! ### The fields of the body -/

/-- The entries of the body are 16 bits wide each, or 8 (30_encoding.md R122). -/
theorem quantLength_eq (ht : ¬badTag (bodyByte s 0)) : quantLength s = 1 + if (bodyByte s 0).getLsbD 4 then 128 else 64 := by
  rw [quantLength, if_congr (wide_iff_of_tag ht).symm rfl rfl]
  split <;> rfl

/-- Entry k of the body, its bytes most significant first (20_memory.md R94). -/
theorem quantEntry_body (ht : ¬badTag (bodyByte s 0)) {k : Nat} (hk : k < 64) :
    (quantEntry ((bodyByte s 0).getLsbD 4) (bodyBytes s 1 (if (bodyByte s 0).getLsbD 4 then 128 else 64)) k).toNat = bodyQuant s k := by
  rw [bodyQuant, if_congr (wide_iff_of_tag ht).symm rfl rfl, quantEntry]
  split
  · rw [toNat_append_eq, bodyBytes_getD, bodyBytes_getD, if_pos (by omega), if_pos (by omega),
      show 1 + (2 * k + 1) = 2 + 2 * k by omega, show 2 ^ 8 = 256 from rfl]
  · rw [bodyBytes_getD, if_pos hk, BitVec.toNat_setWidth_of_le (by norm_num)]

/-- The table of the body in natural order (42_huffman.md R201). -/
def bodyTable (s : State) : Vector (BitVec 16) 64 := tabulate 64 fun i =>
  quantEntry ((bodyByte s 0).getLsbD 4) (bodyBytes s 1 (if (bodyByte s 0).getLsbD 4 then 128 else 64)) (zzInv i)

/-- Entry k of the body stands at natural index ZZ[k] (42_huffman.md R200). -/
theorem bodyTable_zz (ht : ¬badTag (bodyByte s 0)) {k : Nat} (hk : k < 64) : (bodyTable s)[zz k].toNat = bodyQuant s k := by
  rw [bodyTable, Fin.getElem_fin, tabulate_getElem, zzInv_zz ⟨k, hk⟩, quantEntry_body ht hk]

/-! ### The checks in their order -/

theorem parseQuantTable_of_no_body (h : ¬bodyHas s 1) : parseQuantTable s.source s.reader = (.error .parseEos, s.reader.advance 0) := by
  rw [parseQuantTable, srcRead_of_no_body h, Reader.advance_zero]

theorem parseQuantTable_of_badTag (h : bodyHas s 1) (ht : badTag (bodyByte s 0)) :
    parseQuantTable s.source s.reader = (.error .parseIndex, s.reader.advance 1) := by
  rw [parseQuantTable, srcRead_body h]
  exact if_pos ((tag_check_iff _).mpr ht)

theorem parseQuantTable_of_short_body (h1 : bodyHas s 1) (ht : ¬badTag (bodyByte s 0)) (h : ¬bodyHas s (quantLength s)) :
    parseQuantTable s.source s.reader = (.error .parseEos, s.reader.advance (bodyLeft s)) := by
  rw [quantLength_eq ht] at h
  simp only [parseQuantTable, srcRead_body h1, tag_check_iff, ht, if_false, readBytes_of_short_body h1 h]

theorem parseQuantTable_of_whole_body (ht : ¬badTag (bodyByte s 0)) (h : bodyHas s (quantLength s)) :
    parseQuantTable s.source s.reader =
      (.ok (((bodyByte s 0).extractLsb' 0 2).toFin, bodyTable s), s.reader.advance (quantLength s)) := by
  rw [quantLength_eq ht] at h ⊢
  have h1 : bodyHas s 1 := (Nat.add_le_add_left (Nat.le_add_right _ _) _).trans h
  simp only [parseQuantTable, srcRead_body h1, tag_check_iff, ht, if_false, readBytes_body h, bodyTable]

/-! ### The command -/

theorem exec_qtDefine_of_error {e : ErrorCode} {n : Nat} (h : parseQuantTable s.source s.reader = (.error e, s.reader.advance n)) :
    exec .qtDefine s = .next (failedDefine s e n) := by
  rw [exec, execQtDefine, State.qtDefine, h]
  exact congrArg _ (failDefine_advance e n s)

theorem exec_qtDefine_of_ok {q : Fin 4} {t : Vector (BitVec 16) 64} {n : Nat}
    (h : parseQuantTable s.source s.reader = (.ok (q, t), s.reader.advance n)) :
    exec .qtDefine s = .next { s with reader := s.reader.advance n, qt := s.qt.set q t, result := BitVec.ofNat 32 n } := by
  rw [exec, execQtDefine, State.qtDefine, h]
  simp only [defineResult_advance]

/-- The table a good tag names (30_encoding.md R122). -/
theorem quantIndex_of_tag {t : Byte} (h : ¬badTag t) : (t.extractLsb' 0 2).toFin.val = t.toNat % 16 := by
  obtain ⟨-, -, hid, -⟩ := tag_fields t
  rw [badTag] at h
  rw [BitVec.val_toFin, hid]
  omega

/-- Settles O41: ZZ is the walk, so every entry has its place; each check that fails ends the parse where it stands, and a body that
passes them all replaces one table. -/
theorem qtDefineDefinesOneTableOrNone : Obligations.QtDefineDefinesOneTableOrNone := by
  unfold Obligations.QtDefineDefinesOneTableOrNone
  refine ⟨⟨?_, ?_, fun k => zigzagWalk_getElem?⟩, encodes_of_wellFormed rfl, fun s => ⟨fun h => ?_, fun h ht => ?_,
    fun h1 ht h => ?_, fun ht h => ⟨bodyTable s, fun k => bodyTable_zz ht, ?_⟩⟩⟩
  · rw [zigzagWalk_eq_zzTable]
    rfl
  · rw [zigzagWalk_eq_zzTable]
    exact zzTable_nodup.map Fin.val_injective
  · exact exec_qtDefine_of_error (parseQuantTable_of_no_body h)
  · exact exec_qtDefine_of_error (parseQuantTable_of_badTag h ht)
  · exact exec_qtDefine_of_error (parseQuantTable_of_short_body h1 ht h)
  · rw [exec_qtDefine_of_ok (parseQuantTable_of_whole_body ht h), vector_set_eq_setIfInBounds _ _ _ (quantIndex_of_tag ht)]
    rfl

end Sys2Proof.Machine
end

section
/-! SUPPORT. Receive and extend (42_huffman.md R193, R194, R196). -/

namespace Sys2Proof.Machine

open Sys2Proof.Spec

/-! ### The two ranges of R194 -/

theorem two_pow_eq_double {n : Nat} (hn : 1 ≤ n) : (2 : Int) ^ n = 2 * 2 ^ (n - 1) := by
  rw [← pow_succ', Nat.sub_add_cancel hn]

/-- A value whose first bit is 0 stands for a negative number (42_huffman.md R193). -/
theorem extend_of_lt {v n : Nat} (hn : 1 ≤ n) (h : v < 2 ^ (n - 1)) :
    extend v n = (v : Int) - 2 ^ n + 1 ∧ -(2 ^ n - 1 : Int) ≤ extend v n ∧ extend v n ≤ -(2 ^ (n - 1) : Int) := by
  have hext : extend v n = (v : Int) - 2 ^ n + 1 := by rw [extend, if_neg (by omega), if_pos h]
  have hv : (v : Int) < 2 ^ (n - 1) := by exact_mod_cast h
  have hpow := two_pow_eq_double hn
  rw [hext]
  refine ⟨rfl, ?_, ?_⟩ <;> omega

/-- A value whose first bit is 1 stands for itself (42_huffman.md R193). -/
theorem extend_of_ge {v n : Nat} (hn : 1 ≤ n) (hv : v < 2 ^ n) (h : 2 ^ (n - 1) ≤ v) :
    extend v n = (v : Int) ∧ (2 ^ (n - 1) : Int) ≤ extend v n ∧ extend v n ≤ (2 ^ n - 1 : Int) := by
  have hext : extend v n = (v : Int) := by rw [extend, if_neg (by omega), if_neg (by omega)]
  have hlt : (v : Int) < 2 ^ n := by exact_mod_cast hv
  rw [hext]
  exact ⟨rfl, by exact_mod_cast h, by omega⟩

@[simp] theorem extend_zero (v : Nat) : extend v 0 = 0 := rfl

/-- A received value is small enough for RESULT (42_huffman.md R196). -/
theorem extend_bounds {v n : Nat} (hn : n ≤ 16) (hv : v < 2 ^ n) : -(2 ^ 16 : Int) < extend v n ∧ extend v n < 2 ^ 16 := by
  have hpow : (2 : Int) ^ n ≤ 2 ^ 16 := pow_le_pow_right₀ (by norm_num) hn
  obtain rfl | hpos := Nat.eq_zero_or_pos n
  · simp
  have hhalf : (0 : Int) < 2 ^ (n - 1) := by positivity
  obtain hlt | hge := lt_or_ge v (2 ^ (n - 1))
  · obtain ⟨-, hlo, hhi⟩ := extend_of_lt hpos hlt
    omega
  · obtain ⟨-, hlo, hhi⟩ := extend_of_ge hpos hv hge
    omega

theorem receiveExtend_result_toInt (m : Source) {n : Nat} (hn : n ≤ 16) (r : Reader) :
    (BitVec.ofInt 32 (receiveExtend m n r).1).toInt = (receiveExtend m n r).1 := by
  obtain ⟨hlo, hhi⟩ := extend_bounds hn (getBits_lt m n r)
  rw [receiveExtend_fst]
  apply BitVec.toInt_ofInt_eq_self (by norm_num) <;> omega

/-! ### HT_RECEIVE_EXTEND -/

theorem exec_htReceiveExtend_of_le {n : BitVec 5} (h : n.toNat ≤ 16) (s : State) :
    exec (.htReceiveExtend n) s = .next { s with
      result := BitVec.ofInt 32 (receiveExtend s.source n.toNat s.reader).1
      reader := (receiveExtend s.source n.toNat s.reader).2 } :=
  congrArg Host.Outcome.next (guardOperands_bitCount_of_le h _ _)

theorem exec_htReceiveExtend_of_gt {n : BitVec 5} (h : 16 < n.toNat) (s : State) :
    exec (.htReceiveExtend n) s = .next (afterIllegal s) :=
  congrArg Host.Outcome.next (guardOperands_bitCount_of_gt h _ _)

/-- Settles O40: the first bit read chooses the range, and 32 bits hold both ranges. -/
theorem receiveExtendGivesASignedValue : Obligations.ReceiveExtendGivesASignedValue := by
  unfold Obligations.ReceiveExtendGivesASignedValue
  refine ⟨fun m n r hn _ => ⟨rfl, extend_of_lt hn, extend_of_ge hn (getBits_lt m n r)⟩, fun m r => ⟨rfl, fun h => ?_⟩,
    fun n s => ⟨fun hn => ?_, fun hn => exec_htReceiveExtend_of_gt hn s⟩⟩
  · rw [receiveExtend_snd, getBits_none m h]
  · exact ⟨encodes_of_wellFormed (bitCountOk_iff.mpr hn), _, exec_htReceiveExtend_of_le hn s, receiveExtend_result_toInt _ hn _⟩

end Sys2Proof.Machine
end

section
/-! SUPPORT. The five block commands (43_entropy.md R220–R222): the model's operations by the names of the rules' own pseudocode, and the
state each command leaves. -/

namespace Sys2Proof.Machine

open Sys2Proof.Spec

/-! ### The operations of a block command, as the rules write them -/

theorem raiseOpt_eq_raised (x : Errors) (e : Option ErrorCode) : Errors.raiseOpt e x = raised x e := by
  cases e <;> rfl

theorem decode_eq_decodeStep (m : Source) (sl : HuffSlot) (b : BlockRun) : b.decode m sl = decodeStep m sl b := by
  simp only [BlockRun.decode, decodeStep, raiseOpt_eq_raised]

theorem correct_eq_correction (m : Source) (p1 : Int) (k : Nat) (b : BlockRun) : correct m p1 k b = correction m p1 k b := by
  by_cases hb : (b.getBits m 1).1 = 1
  · exact (if_pos hb).trans ((apply_ite (fun v => storedAt k v (afterBits m 1 b)) (0 < b.t[zz k].toInt) _ _).trans (if_pos hb).symm)
  · exact (if_neg hb).trans (if_neg hb).symm

theorem finishBlock_eq_blockDone (d : Mode) (lo hi : Nat) (b : BlockRun) (s : State) :
    State.finishBlock d lo hi b s = blockDone d lo hi b s := by
  have hnz : nonzeroBits b.t lo hi = BitVec.ofFnLE fun k => decide (lo ≤ k.val ∧ k.val ≤ hi ∧ b.t[zz k.val] ≠ 0#16) :=
    congrArg BitVec.ofFnLE (funext fun k => by simp only [Bool.decide_and, Bool.and_assoc])
  cases d <;> simp [State.finishBlock, blockDone, hnz]

/-- The target block as a finished block command leaves it (43_entropy.md R220). -/
@[simp] theorem targetIn_blockDone (d : Mode) (lo hi : Nat) (b : BlockRun) (s : State) : targetIn d (blockDone d lo hi b s) = b.t := by
  cases d <;> rfl

/-- How the symbols of an AC-refine block end: by the symbol loop, which a running end-of-band run skips (43_entropy.md R230). -/
def refineSymbols (m : Source) (ac : HuffSlot) (cfg : ScanCfg) (b : BlockRun) : RefineEnd :=
  if b.eobrun = 0#16 then refineLoop m ac (2 ^ cfg.al.toNat) cfg.se.toNat 64 cfg.ss.toNat b
  else { stopped := false, k := cfg.ss.toNat, run := b }

theorem acRefineRun_eq (m : Source) (ac : HuffSlot) (cfg : ScanCfg) (b : BlockRun) :
    acRefineRun m ac cfg b =
      if (refineSymbols m ac cfg b).stopped then (refineSymbols m ac cfg b).run
      else refineTail m (2 ^ cfg.al.toNat) cfg.se.toNat (refineSymbols m ac cfg b).k (refineSymbols m ac cfg b).run := rfl

/-! ### The predictors -/

theorem predOf_eq_getElem {c : BitVec 2} (hc : c.toNat ≤ 2) (s : State) : s.predOf c = s.pred[c.toNat]'(Nat.lt_succ_of_le hc) := by
  have hlt : c.toNat < 3 := Nat.lt_succ_of_le hc
  simp [State.predOf, hlt]

/-- A predictor written leaves the others (10_state.md R46). -/
theorem setPred_getElem (c : BitVec 2) (v : Coef) (p : Vector Coef 3) (j : Fin 3) :
    (setPred c v p)[j] = if j.val = c.toNat then v else p[j] := by
  simp only [setPred, Fin.getElem_fin, Vector.getElem_setIfInBounds, eq_comm]

/-! ### The five commands -/

theorem componentOk_iff {c : BitVec 2} : componentOk c = true ↔ c.toNat ≤ 2 := by
  simp [componentOk, BitVec.le_def]

/-- A block command whose component is checked ends as its rule says. -/
theorem next_guardOperands_finishBlock {c : BitVec 2} (hc : c.toNat ≤ 2) (d : Mode) (lo hi : Nat) (b : BlockRun) (s u : State) :
    (Host.Outcome.next (guardOperands (componentOk c) s (State.finishBlock d lo hi b u)) : Result) = .next (blockDone d lo hi b u) := by
  rw [componentOk_iff.mpr hc, guardOperands_true, finishBlock_eq_blockDone]

section

variable {c : BitVec 2} (hc : c.toNat ≤ 2) (td ta : BitVec 2) (d : Mode) (s : State)
include hc

theorem exec_edBaseline_of_le :
    exec (.edBaseline c td ta d) s =
      .next (blockDone d 0 63 (baselineRun s.source (s.slot .dc td) (s.slot .ac ta) (s.predOf c) (s.startBlock d)).2
        { s with pred := setPred c (baselineRun s.source (s.slot .dc td) (s.slot .ac ta) (s.predOf c) (s.startBlock d)).1 s.pred }) :=
  next_guardOperands_finishBlock hc ..

theorem exec_edDcFirst_of_le :
    exec (.edDcFirst c td ta d) s =
      .next (blockDone d 0 0 (dcFirstRun s.source (s.slot .dc td) s.scancfg.al.toNat (s.predOf c) (s.startBlock d)).2
        { s with pred := setPred c (dcFirstRun s.source (s.slot .dc td) s.scancfg.al.toNat (s.predOf c) (s.startBlock d)).1 s.pred }) :=
  next_guardOperands_finishBlock hc ..

theorem exec_edDcRefine_of_le :
    exec (.edDcRefine c td ta d) s = .next (blockDone d 0 0 (dcRefineRun s.source s.scancfg.al.toNat (s.startBlock d)) s) :=
  next_guardOperands_finishBlock hc ..

theorem exec_edAcFirst_of_le :
    exec (.edAcFirst c td ta d) s =
      .next (blockDone d s.scancfg.ss.toNat s.scancfg.se.toNat (acFirstRun s.source (s.slot .ac ta) s.scancfg (s.startBlock d)) s) :=
  next_guardOperands_finishBlock hc ..

theorem exec_edAcRefine_of_le :
    exec (.edAcRefine c td ta d) s =
      .next (blockDone d s.scancfg.ss.toNat s.scancfg.se.toNat (acRefineRun s.source (s.slot .ac ta) s.scancfg (s.startBlock d)) s) :=
  next_guardOperands_finishBlock hc ..

end

end Sys2Proof.Machine
end

section
/-! SUPPORT. What AC-refine sees of its target (43_entropy.md R232): the zero pattern over SS..SE. Two runs on targets of one pattern
there read the same bits, and keep one pattern. -/

namespace Sys2Proof.Machine

open Sys2Proof.Spec

/-- Two working states of a block command that differ at most in their targets, whose zero patterns over lo..hi agree. -/
structure BlockRun.SameZeros (lo hi : Nat) (b b' : BlockRun) : Prop where
  reader : b'.reader = b.reader
  errors : b'.errors = b.errors
  eobrun : b'.eobrun = b.eobrun
  pattern : SamePattern b.t b'.t lo hi

/-- Two ends of AC-refine's symbol loop at one place, the second not before position lo. -/
structure RefineEnd.SameZeros (lo hi : Nat) (e e' : RefineEnd) : Prop where
  stopped : e'.stopped = e.stopped
  position : e'.k = e.k
  within : lo ≤ e.k
  run : e.run.SameZeros lo hi e'.run

/-! ### Corrections -/

/-- A correction moves a non-zero coefficient past no other multiple of 2^16 while AL ≤ 14 (43_entropy.md R232). -/
theorem corrected_ne_zero {al : BitVec 4} (hal : al.toNat ≤ 14) {x : Coef} (hx : x ≠ 0#16) : corrected al x ≠ 0#16 := by
  have hpow : (2 : Int) ^ al.toNat ≤ 2 ^ 14 := pow_le_pow_right₀ (by norm_num) hal
  have hpos : (0 : Int) < 2 ^ al.toNat := by positivity
  have hlo := BitVec.le_toInt x
  have hhi := BitVec.toInt_lt (x := x)
  have hne : x.toInt ≠ 0 := fun h => hx (BitVec.eq_of_toInt_eq (by simpa using h))
  rw [corrected, Ne, wrap16_eq_zero_iff]
  split <;> omega

/-- `Correct(k)` reads one bit and leaves T[ZZ[k]] or its correction in place (43_entropy.md R230). -/
theorem correct_cases (m : Source) (al : BitVec 4) (k : Nat) (b : BlockRun) :
    ∃ x, (x = b.t[zz k] ∨ x = corrected al b.t[zz k]) ∧
      correct m (2 ^ al.toNat) k b = { (b.getBits m 1).2 with t := b.t.set (zz k) x } := by
  simp only [correct]
  split
  · exact ⟨_, .inr rfl, rfl⟩
  · exact ⟨_, .inl rfl, by simp only [Fin.getElem_fin, Vector.set_getElem_self]; rfl⟩

namespace BlockRun.SameZeros

variable {lo hi : Nat} {b b' : BlockRun} {m : Source}

/-! ### The operations of the block commands -/

theorem decode (h : b.SameZeros lo hi b') (sl : HuffSlot) :
    (b'.decode m sl).1 = (b.decode m sl).1 ∧ (b.decode m sl).2.SameZeros lo hi (b'.decode m sl).2 := by
  refine ⟨?_, ?_, ?_, h.eobrun, h.pattern⟩ <;> simp only [decode_fst, decode_reader, decode_errors, h.reader, h.errors]

theorem getBits (h : b.SameZeros lo hi b') (n : Nat) :
    (b'.getBits m n).1 = (b.getBits m n).1 ∧ (b.getBits m n).2.SameZeros lo hi (b'.getBits m n).2 := by
  refine ⟨?_, ?_, h.errors, h.eobrun, h.pattern⟩ <;> simp only [getBits_fst, getBits_reader, h.reader]

theorem raise (h : b.SameZeros lo hi b') (e : ErrorCode) : (b.raise e).SameZeros lo hi (b'.raise e) :=
  ⟨h.reader, congrArg (Errors.raise e) h.errors, h.eobrun, h.pattern⟩

theorem withEobrun (h : b.SameZeros lo hi b') (n : BitVec 16) :
    ({ b with eobrun := n } : BlockRun).SameZeros lo hi { b' with eobrun := n } :=
  ⟨h.reader, h.errors, rfl, h.pattern⟩

/-- Two values stored at one position that are 0 alike keep the patterns alike. -/
theorem store (h : b.SameZeros lo hi b') (k : Nat) {x x' : Coef} (hx : x = 0#16 ↔ x' = 0#16) :
    ({ b with t := b.t.set (zz k) x } : BlockRun).SameZeros lo hi { b' with t := b'.t.set (zz k) x' } := by
  refine ⟨h.reader, h.errors, h.eobrun, fun j hlo hj => ?_⟩
  by_cases hjk : zz k = zz j
  · simpa [hjk] using hx
  · have hne : (zz k).val ≠ (zz j).val := fun e => hjk (Fin.ext e)
    simpa [Vector.getElem_set, hne] using h.pattern j hlo hj

theorem correct (h : b.SameZeros lo hi b') {al : BitVec 4} (hal : al.toNat ≤ 14) {k : Nat} (hlo : lo ≤ k) (hk : k ≤ hi)
    (hne : b.t[zz k] ≠ 0#16) : (Machine.correct m (2 ^ al.toNat) k b).SameZeros lo hi (Machine.correct m (2 ^ al.toNat) k b') := by
  obtain ⟨-, hg⟩ := h.getBits (m := m) 1
  have hne' : b'.t[zz k] ≠ 0#16 := mt (h.pattern k hlo hk).mpr hne
  have nonzero {x y : Coef} (hy : y ≠ 0#16) (hx : x = y ∨ x = corrected al y) : x ≠ 0#16 := by
    rcases hx with rfl | rfl
    · exact hy
    · exact corrected_ne_zero hal hy
  obtain ⟨x, hx, he⟩ := correct_cases m al k b
  obtain ⟨x', hx', he'⟩ := correct_cases m al k b'
  rw [he, he']
  exact hg.store k (iff_of_false (nonzero hne hx) (nonzero hne' hx'))

/-! ### The loops -/

theorem passLoop (h : b.SameZeros lo hi b') {al : BitVec 4} (hal : al.toNat ≤ 14) (fuel r : Nat) {k : Nat}
    (hlo : lo ≤ k) :
    (Machine.passLoop m (2 ^ al.toNat) hi fuel k r b').1 = (Machine.passLoop m (2 ^ al.toNat) hi fuel k r b).1 ∧
      lo ≤ (Machine.passLoop m (2 ^ al.toNat) hi fuel k r b).1 ∧
      (Machine.passLoop m (2 ^ al.toNat) hi fuel k r b).2.SameZeros lo hi (Machine.passLoop m (2 ^ al.toNat) hi fuel k r b').2 := by
  induction fuel generalizing k r b b' with
  | zero => exact ⟨rfl, hlo, h⟩
  | succ fuel ih =>
    by_cases hk : hi < k
    · simp only [Machine.passLoop, if_pos hk]
      exact ⟨trivial, hlo, h⟩
    · have hz := h.pattern k hlo (by omega)
      simp only [Machine.passLoop, if_neg hk, Ne, ← hz]
      split
      · rename_i hne
        exact ih (h.correct hal hlo (by omega) hne) _ (by omega)
      · split
        · exact ⟨rfl, hlo, h⟩
        · exact ih h _ (by omega)

theorem tailLoop (h : b.SameZeros lo hi b') {al : BitVec 4} (hal : al.toNat ≤ 14) (fuel : Nat) {k : Nat} (hlo : lo ≤ k) :
    (Machine.tailLoop m (2 ^ al.toNat) hi fuel k b).SameZeros lo hi (Machine.tailLoop m (2 ^ al.toNat) hi fuel k b') := by
  induction fuel generalizing k b b' with
  | zero => exact h
  | succ fuel ih =>
    by_cases hk : hi < k
    · simpa only [Machine.tailLoop, if_pos hk] using h
    · have hz := h.pattern k hlo (by omega)
      simp only [Machine.tailLoop, if_neg hk, Ne, ← hz]
      refine ih ?_ (by omega)
      split
      · rename_i hne
        exact h.correct hal hlo (by omega) hne
      · exact h

theorem newValue (h : b.SameZeros lo hi b') (p1 : Int) (size : Nat) :
    (Machine.newValue m p1 size b').1 = (Machine.newValue m p1 size b).1 ∧
      (Machine.newValue m p1 size b).2.SameZeros lo hi (Machine.newValue m p1 size b').2 := by
  obtain ⟨hv, hg⟩ := h.getBits (m := m) 1
  simp only [Machine.newValue, hv]
  split
  · exact ⟨rfl, hg⟩
  · exact ⟨rfl, h⟩

theorem placeNew (h : b.SameZeros lo hi b') (k : Nat) (new : Option Int) :
    (Machine.placeNew hi k new b).SameZeros lo hi (Machine.placeNew hi k new b') := by
  cases new with
  | none => exact h
  | some v =>
    simp only [Machine.placeNew]
    split
    · exact h.store k Iff.rfl
    · exact h.raise _

theorem refineLoop (h : b.SameZeros lo hi b') {al : BitVec 4} (hal : al.toNat ≤ 14) {ac : HuffSlot} (fuel : Nat) {k : Nat}
    (hlo : lo ≤ k) :
    (Machine.refineLoop m ac (2 ^ al.toNat) hi fuel k b).SameZeros lo hi (Machine.refineLoop m ac (2 ^ al.toNat) hi fuel k b') := by
  induction fuel generalizing k b b' with
  | zero => exact ⟨rfl, rfl, hlo, h⟩
  | succ fuel ih =>
    obtain ⟨hd, hb⟩ := h.decode (m := m) ac
    obtain ⟨hg, hr⟩ := hb.getBits (m := m) ((b.decode m ac).1 / 16)
    obtain ⟨hn, hv⟩ := hb.newValue (m := m) (2 ^ al.toNat) ((b.decode m ac).1 % 16)
    obtain ⟨hk, hlo', hp⟩ := hv.passLoop (m := m) hal 64 ((b.decode m ac).1 / 16) hlo
    simp only [Machine.refineLoop, hd, hg, hn, hk]
    split
    · exact ⟨rfl, rfl, hlo, h⟩
    · split
      · exact ⟨rfl, rfl, hlo, hr.withEobrun _⟩
      · split
        · exact ⟨rfl, rfl, hlo, hb.raise _⟩
        · exact ih (hp.placeNew _ _) (by omega)

theorem refineTail (h : b.SameZeros lo hi b') {al : BitVec 4} (hal : al.toNat ≤ 14) {k : Nat} (hlo : lo ≤ k) :
    (Machine.refineTail m (2 ^ al.toNat) hi k b).SameZeros lo hi (Machine.refineTail m (2 ^ al.toNat) hi k b') := by
  have ht := h.tailLoop (m := m) hal 64 hlo
  simp only [Machine.refineTail, h.eobrun, ht.eobrun]
  split
  · exact ht.withEobrun _
  · exact h

theorem refineSymbols {cfg : ScanCfg} (h : b.SameZeros cfg.ss.toNat cfg.se.toNat b') (hal : cfg.al.toNat ≤ 14) (ac : HuffSlot) :
    (Machine.refineSymbols m ac cfg b).SameZeros cfg.ss.toNat cfg.se.toNat (Machine.refineSymbols m ac cfg b') := by
  simp only [Machine.refineSymbols, h.eobrun]
  split
  · exact h.refineLoop hal 64 le_rfl
  · exact ⟨rfl, rfl, le_rfl, h⟩

/-- R232 on the working state. -/
theorem acRefineRun {cfg : ScanCfg} (h : b.SameZeros cfg.ss.toNat cfg.se.toNat b') (hal : cfg.al.toNat ≤ 14) (ac : HuffSlot) :
    (Machine.acRefineRun m ac cfg b).SameZeros cfg.ss.toNat cfg.se.toNat (Machine.acRefineRun m ac cfg b') := by
  obtain ⟨hstop, hk, hlo, hrun⟩ := h.refineSymbols (m := m) hal ac
  rw [acRefineRun_eq, acRefineRun_eq, hstop, hk]
  split
  · exact hrun
  · exact hrun.refineTail hal hlo

end BlockRun.SameZeros

/-! ### The command in its two modes -/

/-- The bitmap of the range tells the pattern of the block, so the seeded block has it (43_entropy.md R220, R232). -/
theorem samePattern_seedScratch {t : Block} {nz : BitVec 64} {lo hi : Nat} (hhi : hi ≤ 63)
    (h : ∀ k, lo ≤ k → k ≤ hi → (nz.getLsbD k = true ↔ t[zz k] ≠ 0#16)) : SamePattern t (seedScratch nz) lo hi := by
  intro k hlo hk
  have hz := h k hlo hk
  rw [seedScratch_zz nz k (by omega)]
  split <;> simp_all [discardSentinel]

/-- The write-back sees the pattern over its range alone (43_entropy.md R221). -/
theorem blockDone_of_sameZeros {lo hi : Nat} {b b' : BlockRun} (h : b.SameZeros lo hi b') (s : State) :
    blockDone .discard lo hi b' s = { blockDone .store lo hi b s with coef := s.coef, scratch := b'.t } := by
  have hnz : (BitVec.ofFnLE fun k : Fin 64 => decide (lo ≤ k.val ∧ k.val ≤ hi ∧ b'.t[zz k.val] ≠ 0#16)) =
      BitVec.ofFnLE fun k : Fin 64 => decide (lo ≤ k.val ∧ k.val ≤ hi ∧ b.t[zz k.val] ≠ 0#16) :=
    congrArg BitVec.ofFnLE (funext fun k => decide_eq_decide.mpr
      (and_congr_right fun hlo => and_congr_right fun hk => not_congr (h.pattern k.val hlo hk).symm))
  simp only [blockDone, hnz, h.reader, h.errors, h.eobrun]
  simp

/-- Settles O51: every loop of AC-refine reads the target only to tell zeros from non-zeros, and while AL ≤ 14 no correction makes a
non-zero coefficient 0. -/
theorem acRefineDependsOnlyOnTheZeroPattern : Obligations.AcRefineDependsOnlyOnTheZeroPattern := by
  unfold Obligations.AcRefineDependsOnlyOnTheZeroPattern
  refine ⟨fun m ac cfg b b' hal hr he hrun hp => ?_, fun c td ta s hc hal hnz => ?_⟩
  · have h : b.SameZeros cfg.ss.toNat cfg.se.toNat b' := ⟨hr, he, hrun, hp⟩
    obtain ⟨hr, he, hrun, hp⟩ := h.acRefineRun (m := m) hal ac
    exact ⟨hr, he, hrun, hp⟩
  · have h : (s.startBlock .store).SameZeros s.scancfg.ss.toNat s.scancfg.se.toNat (s.startBlock .discard) :=
      ⟨rfl, rfl, rfl, samePattern_seedScratch (by omega) hnz⟩
    refine ⟨_, _, exec_edAcRefine_of_le hc td ta .store s, exec_edAcRefine_of_le hc td ta .discard s, ?_⟩
    rw [blockDone_of_sameZeros (h.acRefineRun hal _)]

end Sys2Proof.Machine
end

section
/-! SUPPORT. ED_RESTART (43_entropy.md R225): a fetch that does not halt moves SRCPOS forward, so the bytes left bound the skip to the
next marker. -/

namespace Sys2Proof.Machine

open Sys2Proof.Spec

/-! ### The skip halts (70_reset_and_hazards.md R352) -/

/-- The loop after a 0xFF that does not halt ends after a stuffed 0x00 (41_bitreader.md R151). -/
theorem afterFF_advances {m : Source} {n : Nat} {r : Reader} (hn : r.srcpos.toNat + n ≤ m.len.toNat)
    (h : (afterFF m n r).2.halt = false) : r.srcpos.toNat < (afterFF m n r).2.srcpos.toNat := by
  induction n generalizing r with
  | zero => cases h
  | succ n ih =>
    have hs : (r.srcpos + 1#32).toNat = r.srcpos.toNat + 1 := srcpos_succ_toNat (m := m) (by rw [BitVec.lt_def]; omega)
    simp only [afterFF] at h ⊢
    split at h
    · rw [if_pos ‹_›, hs]
      omega
    · rw [if_neg ‹_›]
      split at h
      · rw [if_pos ‹_›]
        have hmore : (r.srcpos + 1#32).toNat < _ := ih (r := { r with srcpos := r.srcpos + 1#32 }) (by simp only; omega) h
        exact lt_trans (by omega) hmore
      · cases h

/-- A reader further on inside SRC has fewer bytes left. -/
theorem left_lt_left {m : Source} {r q : Reader} (hin : r.srcpos < m.len) (h : r.srcpos.toNat < q.srcpos.toNat) : m.left q < m.left r := by
  have hin : r.srcpos.toNat < m.len.toNat := hin
  simp only [Source.left]
  omega

/-- A fetch that does not halt leaves fewer bytes of SRC (41_bitreader.md R151). -/
theorem fetchDataByte_left_lt {m : Source} {r : Reader} (h : (fetchDataByte m r).2.halt = false) :
    m.left (fetchDataByte m r).2 < m.left r := by
  rcases srcRead_cases m r with ⟨-, he⟩ | ⟨hlt, he⟩ <;> simp only [fetchDataByte, he] at h ⊢
  · cases h
  · have hs := srcpos_succ_toNat hlt
    have hin : r.srcpos.toNat < m.len.toNat := hlt
    refine left_lt_left hlt ?_
    split at h
    · rw [if_pos ‹_›]
      have hmore : (r.srcpos + 1#32).toNat < _ :=
        afterFF_advances (r := { r with srcpos := r.srcpos + 1#32 }) (by simp only [Source.left]; omega) h
      exact lt_trans (by omega) hmore
    · rw [if_neg ‹_›]
      exact hs ▸ Nat.lt_succ_self _

/-- The skip is the fetches up to the first halt, and reaches one (43_entropy.md R225). -/
theorem skipLoop_eq_iterFetch (m : Source) (fuel : Nat) {r : Reader} (h : r.halt = true ∨ m.left r < fuel) :
    ∃ k, skipLoop m fuel r = iterFetch m k r ∧ (iterFetch m k r).halt = true ∧ ∀ j, j < k → (iterFetch m j r).halt = false := by
  induction fuel generalizing r with
  | zero => exact ⟨0, rfl, h.resolve_right (Nat.not_lt_zero _), fun j hj => absurd hj (Nat.not_lt_zero j)⟩
  | succ fuel ih =>
    cases hh : r.halt
    · have hnext : (fetchDataByte m r).2.halt = true ∨ m.left (fetchDataByte m r).2 < fuel := by
        cases hf : (fetchDataByte m r).2.halt
        · have := fetchDataByte_left_lt hf
          have := h.resolve_left (by simp [hh])
          omega
        · exact .inl rfl
      obtain ⟨k, hk, hhalt, hbefore⟩ := ih hnext
      refine ⟨k + 1, by simpa [skipLoop, hh, iterFetch] using hk, hhalt, fun j hj => ?_⟩
      cases j with
      | zero => exact hh
      | succ j => exact hbefore j (by omega)
    · exact ⟨0, by simp [skipLoop, hh, iterFetch], hh, fun j hj => absurd hj (Nat.not_lt_zero j)⟩

/-! ### The marker -/

/-- RST0–RST7 as numbers (43_entropy.md R225). -/
theorem Reader.atRestart_iff {r : Reader} :
    r.atRestart = true ↔ r.markerValid = true ∧ 0xD0 ≤ r.marker.toNat ∧ r.marker.toNat ≤ 0xD7 := by
  simp [Reader.atRestart, BitVec.le_def, and_assoc]

/-- A restart marker's number is its low three bits (43_entropy.md R225). -/
theorem marker_setWidth_eq {x : Byte} (h : 0xD0 ≤ x.toNat) : x.setWidth 3 = BitVec.ofNat 3 (x.toNat - 0xD0) := by
  apply BitVec.eq_of_toNat_eq
  rw [BitVec.toNat_setWidth, BitVec.toNat_ofNat]
  omega

/-- Where the sum fits, SRCPOS steps over the marker and no free value is drawn (43_entropy.md R225; log 6). -/
theorem stepOverMarker_of_fits {pos : Word} (h : pos.toNat + 2 < 2 ^ 32) (n : Nat) :
    (stepOverMarker n pos).toNat = pos.toNat + 2 ∧ n + drawsForMarker pos = n := by
  rw [stepOverMarker, drawsForMarker, if_pos h, if_pos h]
  exact ⟨by bv_omega, rfl⟩

theorem exec_edRestart_of_restart {s : State} (h : (skipToMarker s.source s.reader).atRestart = true) :
    exec .edRestart s = .next { s with
      reader := { skipToMarker s.source s.reader with
        srcpos := stepOverMarker s.freeDraws (skipToMarker s.source s.reader).srcpos
        lastrst := (skipToMarker s.source s.reader).marker.setWidth 3
        lastrstValid := true
        halt := false
        markerValid := false
        marker := 0#8 }
      pred := #v[0#16, 0#16, 0#16]
      eobrun := 0#16
      freeDraws := s.freeDraws + drawsForMarker (skipToMarker s.source s.reader).srcpos } :=
  congrArg Host.Outcome.next (if_pos h)

theorem exec_edRestart_of_other {s : State} (h : (skipToMarker s.source s.reader).atRestart = false) :
    exec .edRestart s = .next { s with
      reader := skipToMarker s.source s.reader
      errors := s.errors.raise .rstMiss
      pred := #v[0#16, 0#16, 0#16]
      eobrun := 0#16 } :=
  congrArg Host.Outcome.next (if_neg (by simp [h]))

/-- Settles O42: the skip is the fetches up to the first halt, and the marker's code says which of the two ends it has. -/
theorem restartFindsTheNextMarker : Obligations.RestartFindsTheNextMarker := by
  unfold Obligations.RestartFindsTheNextMarker
  refine ⟨encodes_of_wellFormed rfl, fun s => ?_⟩
  obtain ⟨k, hskip, hhalt, hbefore⟩ := skipLoop_eq_iterFetch s.source (s.source.left s.reader + 1)
    (r := { s.reader with bracc := 0#32, bitcnt := 0 }) (.inr (Nat.lt_succ_self _))
  rw [← hskip] at hhalt
  refine ⟨k, skipToMarker s.source s.reader, hskip, hhalt, hbefore, fun hrst => ?_, fun hrst => ?_⟩
  · refine ⟨_, _, fun hfits => stepOverMarker_of_fits hfits s.freeDraws, ?_⟩
    rw [exec_edRestart_of_restart (Reader.atRestart_iff.mpr hrst), marker_setWidth_eq hrst.2.1]
  · rw [← Reader.atRestart_iff, Bool.not_eq_true] at hrst
    exact exec_edRestart_of_other hrst

end Sys2Proof.Machine
end

section
/-! SUPPORT. The loops of the block commands as while-loops (43_entropy.md R226, R229, R230; 70_reset_and_hazards.md R352): every
iteration moves on in the zigzag order, so a bound past the range's end cuts nothing off. -/

namespace Sys2Proof.Machine

open Sys2Proof.Spec

/-! ### One iteration more changes nothing -/

section

variable {m : Source} {ac : HuffSlot} {p1 : Int} {hi : Nat}

theorem runLoop_succ_fuel {al : Nat} {eob : Nat → BlockRun → BlockRun} {fuel k : Nat} (h : hi < k + fuel) (b : BlockRun) :
    runLoop m ac hi al eob (fuel + 1) k b = runLoop m ac hi al eob fuel k b := by
  induction fuel generalizing k b with
  | zero => exact if_pos h
  | succ fuel ih =>
    have next (j : Nat) (b' : BlockRun) : runLoop m ac hi al eob (fuel + 1) (k + j + 1) b' = runLoop m ac hi al eob fuel (k + j + 1) b' :=
      ih (by omega) b'
    rw [runLoop]
    conv_rhs => rw [runLoop]
    simp only [next 15, next]

theorem passLoop_succ_fuel {fuel k : Nat} (h : hi < k + fuel) (r : Nat) (b : BlockRun) :
    passLoop m p1 hi (fuel + 1) k r b = passLoop m p1 hi fuel k r b := by
  induction fuel generalizing k r b with
  | zero => exact if_pos h
  | succ fuel ih =>
    rw [passLoop]
    conv_rhs => rw [passLoop]
    simp only [ih (k := k + 1) (by omega)]

theorem tailLoop_succ_fuel {fuel k : Nat} (h : hi < k + fuel) (b : BlockRun) :
    tailLoop m p1 hi (fuel + 1) k b = tailLoop m p1 hi fuel k b := by
  induction fuel generalizing k b with
  | zero => exact if_pos h
  | succ fuel ih =>
    rw [tailLoop]
    conv_rhs => rw [tailLoop]
    simp only [ih (k := k + 1) (by omega)]

/-- The pass over coefficients never goes back (43_entropy.md R230). -/
theorem le_passLoop (m : Source) (p1 : Int) (hi fuel k r : Nat) (b : BlockRun) : k ≤ (passLoop m p1 hi fuel k r b).1 := by
  induction fuel generalizing k r b with
  | zero => exact le_rfl
  | succ fuel ih =>
    simp only [passLoop]
    split
    · exact le_rfl
    · split
      · exact (Nat.le_succ k).trans (ih _ _ _)
      · split
        · exact le_rfl
        · exact (Nat.le_succ k).trans (ih _ _ _)

theorem refineLoop_succ_fuel {fuel k : Nat} (h : hi < k + fuel) (b : BlockRun) :
    refineLoop m ac p1 hi (fuel + 1) k b = refineLoop m ac p1 hi fuel k b := by
  induction fuel generalizing k b with
  | zero => exact if_pos h
  | succ fuel ih =>
    have next (r : Nat) (c b' : BlockRun) :
        refineLoop m ac p1 hi (fuel + 1) ((passLoop m p1 hi 64 k r c).1 + 1) b' =
          refineLoop m ac p1 hi fuel ((passLoop m p1 hi 64 k r c).1 + 1) b' :=
      ih (by have := le_passLoop m p1 hi 64 k r c; omega) b'
    rw [refineLoop]
    conv_rhs => rw [refineLoop]
    simp only [next]

end

/-! ### The symbol's new coefficient -/

/-- `newval` and its placement are the rule's (43_entropy.md R230): no new coefficient is a `newval` of 0. -/
theorem newValue_snd (m : Source) (p1 : Int) (size : Nat) (b : BlockRun) : (newValue m p1 size b).2 = afterNewval m size b := by
  simp only [newValue, afterNewval]
  split <;> rfl

theorem placeNew_eq_placed (m : Source) (al se k size : Nat) (b b' : BlockRun) :
    placeNew se k (newValue m (2 ^ al) size b).1 b' = placed se k (newvalOf m (2 ^ al) size b) b' := by
  have hpos : (0 : Int) < 2 ^ al := by positivity
  by_cases hs : size = 1
  · have hne : newvalOf m (2 ^ al) size b ≠ 0 := by
      simp only [newvalOf, if_pos hs]
      split <;> omega
    rw [placed, if_pos hne, newvalOf, newValue, if_pos hs, if_pos hs]
    rfl
  · simp only [newValue, newvalOf, if_neg hs]
    rfl

/-! ### The loops of the rules -/

/-- Settles O44: an iteration of the model's loop is one of the rule's, and the iterations left over by the bound are as good as the
whole bound. -/
theorem blockLoopsAreTheirWhileLoops : Obligations.BlockLoopsAreTheirWhileLoops := by
  unfold Obligations.BlockLoopsAreTheirWhileLoops
  intro m ac hi k al b hhi
  refine ⟨fun eob => ?_, fun r => ?_, ?_, ?_⟩
  · have next (j : Nat) (b' : BlockRun) : runLoop m ac hi al eob 64 (k + j + 1) b' = runLoop m ac hi al eob 63 (k + j + 1) b' :=
      runLoop_succ_fuel (by omega) b'
    rw [runLoop, decode_eq_decodeStep]
    simp only [next 15, next]
    rfl
  · have next (r : Nat) (b' : BlockRun) : passLoop m (2 ^ al) hi 64 (k + 1) r b' = passLoop m (2 ^ al) hi 63 (k + 1) r b' :=
      passLoop_succ_fuel (by omega) r b'
    rw [passLoop, correct_eq_correction, next, next]
  · have next (b' : BlockRun) : tailLoop m (2 ^ al) hi 64 (k + 1) b' = tailLoop m (2 ^ al) hi 63 (k + 1) b' :=
      tailLoop_succ_fuel (by omega) b'
    rw [tailLoop, correct_eq_correction, next, next]
    split
    · rfl
    · split <;> rfl
  · have next (r : Nat) (c b' : BlockRun) :
        refineLoop m ac (2 ^ al) hi 64 ((passLoop m (2 ^ al) hi 64 k r c).1 + 1) b' =
          refineLoop m ac (2 ^ al) hi 63 ((passLoop m (2 ^ al) hi 64 k r c).1 + 1) b' :=
      refineLoop_succ_fuel (by have := le_passLoop m (2 ^ al) hi 64 k r c; omega) b'
    rw [refineLoop, decode_eq_decodeStep]
    simp only [next, placeNew_eq_placed, newValue_snd]
    rfl

end Sys2Proof.Machine
end

section
/-! SUPPORT. What the block commands store (43_entropy.md R226–R230): a relation from each position's old value to its new one, over a
set of zigzag positions, and no change at any other position. -/

namespace Sys2Proof.Machine

open Sys2Proof.Spec

/-! ### Changes of a target, position by position -/

/-- From t to u the zigzag positions in S change by R, the others not at all. -/
def Changed (R : Coef → Coef → Prop) (S : Nat → Prop) (t u : Block) : Prop :=
  ∀ k, k < 64 → (S k → R t[zz k] u[zz k]) ∧ (¬S k → u[zz k] = t[zz k])

section

variable {R : Coef → Coef → Prop} {S S' : Nat → Prop} {t u : Block}

theorem Changed.refl (hR : ∀ x, R x x) (S : Nat → Prop) (t : Block) : Changed R S t t := fun _ _ => ⟨fun _ => hR _, fun _ => rfl⟩

/-- A position that may change may also stay. -/
theorem Changed.mono (hR : ∀ x, R x x) (hS : ∀ k, S k → S' k) (h : Changed R S t u) : Changed R S' t u := by
  intro k hk
  by_cases hs : S k
  · exact ⟨fun _ => (h k hk).1 hs, fun hn => absurd (hS k hs) hn⟩
  · rw [(h k hk).2 hs]
    exact ⟨fun _ => hR _, fun _ => rfl⟩

/-- The zigzag range SS..SE (10_state.md R44). -/
def ScanCfg.InRange (cfg : ScanCfg) (k : Nat) : Prop := cfg.ss.toNat ≤ k ∧ k ≤ cfg.se.toNat

/-- The other positions of a block keep their values when one is stored: ZZ is a permutation (10_state.md R62). -/
theorem set_zz_getElem (t : Block) {k j : Nat} (hk : k < 64) (hj : j < 64) (x : Coef) :
    (t.set (zz k) x)[zz j] = if j = k then x else t[zz j] := by
  by_cases hjk : j = k
  · simp [hjk]
  · have hne : (zz k).val ≠ (zz j).val := fun e => hjk (zz_injective hj hk (Fin.ext e.symm))
    simp [hne, hjk]

theorem Changed.set (h : Changed R S t u) {k : Nat} (hk : k < 64) (hs : S k) {x : Coef} (hx : R t[zz k] x) :
    Changed R S t (u.set (zz k) x) := by
  intro j hj
  rw [set_zz_getElem u hk hj]
  split
  · subst j
    exact ⟨fun _ => hx, fun hn => absurd hs hn⟩
  · exact h j hj

end

/-! ### The run/size loop -/

/-- A coefficient the run/size loop can store: a received value of at most 15 bits, which is not 0, shifted by al (43_entropy.md R226,
R229). -/
def AcValue (al : Nat) (x : Coef) : Prop := ∃ v : Int, v ≠ 0 ∧ -(2 ^ 15) < v ∧ v < 2 ^ 15 ∧ x = wrap16 (v * 2 ^ al)

theorem extend_acValue {v n al : Nat} (hn : 1 ≤ n) (hn' : n ≤ 15) (hv : v < 2 ^ n) : AcValue al (wrap16 (extend v n * 2 ^ al)) := by
  have hpow : (2 : Int) ^ n ≤ 2 ^ 15 := pow_le_pow_right₀ (by norm_num) hn'
  have hhalf : (0 : Int) < 2 ^ (n - 1) := by positivity
  obtain hlt | hge := lt_or_ge v (2 ^ (n - 1))
  · obtain ⟨-, hlo, hhi⟩ := extend_of_lt hn hlt
    exact ⟨extend v n, by omega, by omega, by omega, rfl⟩
  · obtain ⟨-, hlo, hhi⟩ := extend_of_ge hn hv hge
    exact ⟨extend v n, by omega, by omega, by omega, rfl⟩

/-- What the stores of the run/size loop keep of the target, the loop keeps (43_entropy.md R226, R229). -/
theorem runLoop_t {m : Source} {sl : HuffSlot} {lo hi al : Nat} {eob : Nat → BlockRun → BlockRun} (he : ∀ r b, (eob r b).t = b.t)
    {Q : Block → Prop} (hQ : ∀ k x t, lo ≤ k → k ≤ hi → AcValue al x → Q t → Q (t.set (zz k) x)) (fuel : Nat) {k : Nat}
    (hk : lo ≤ k) {b : BlockRun} (h : Q b.t) : Q (runLoop m sl hi al eob fuel k b).t := by
  induction fuel generalizing k b with
  | zero => exact h
  | succ fuel ih =>
    simp only [runLoop]
    split
    · exact h
    · split
      · split
        · exact ih (by omega) h
        · rwa [he]
      · split
        · exact h
        · refine ih (by omega) ?_
          rw [BlockRun.setAt_t, BlockRun.receiveExtend_t, BlockRun.decode_t, BlockRun.receiveExtend_fst]
          exact hQ _ _ _ (by omega) (by omega) (extend_acValue (by omega) (by omega) (getBits_lt _ _ _)) h

/-- What ED_AC_FIRST can leave of a coefficient (43_entropy.md R229). -/
def KeptOrAcValue (al : Nat) (x y : Coef) : Prop := y = x ∨ AcValue al y

theorem acFirstEob_t (m : Source) (r : Nat) (b : BlockRun) : (acFirstEob m r b).t = b.t := rfl

theorem acFirstRun_changed (m : Source) (ac : HuffSlot) (cfg : ScanCfg) (b : BlockRun) :
    Changed (KeptOrAcValue cfg.al.toNat) cfg.InRange b.t (acFirstRun m ac cfg b).t := by
  have hstart : Changed (KeptOrAcValue cfg.al.toNat) cfg.InRange b.t b.t := .refl (fun _ => .inl rfl) _ _
  simp only [acFirstRun]
  split
  · exact hstart
  · exact runLoop_t (Q := Changed (KeptOrAcValue cfg.al.toNat) cfg.InRange b.t) (acFirstEob_t m)
      (fun k x t hlo hhi hx h => h.set (by omega) ⟨hlo, hhi⟩ (.inr hx)) 64 le_rfl hstart

/-- ED_BASELINE's AC loop stores past position 0 (43_entropy.md R226). -/
theorem runLoop_t_zero (m : Source) (sl : HuffSlot) (al : Nat) {eob : Nat → BlockRun → BlockRun} (he : ∀ r b, (eob r b).t = b.t)
    (fuel : Nat) (b : BlockRun) : (runLoop m sl 63 al eob fuel 1 b).t[0] = b.t[0] := by
  refine runLoop_t (Q := fun t => t[0] = b.t[0]) he (fun k x t hlo hhi _ h => ?_) fuel le_rfl rfl
  have hset := set_zz_getElem t (show k < 64 by omega) (show 0 < 64 by omega) x
  rw [if_neg (by omega)] at hset
  exact hset.trans h

/-! ### AC-refine -/

/-- What ED_AC_REFINE can leave of a coefficient (43_entropy.md R230). -/
def Refined (al : BitVec 4) (x y : Coef) : Prop :=
  (x ≠ 0#16 → y = x ∨ y = corrected al x) ∧ (x = 0#16 → y = 0#16 ∨ y = wrap16 (2 ^ al.toNat) ∨ y = wrap16 (-(2 ^ al.toNat)))

theorem Refined.refl (al : BitVec 4) (x : Coef) : Refined al x x := ⟨fun _ => .inl rfl, .inl⟩

/-- A place to put a new coefficient, if it lies in range (43_entropy.md R230). -/
def StopsAtZero (se : Nat) (p : Nat × BlockRun) : Prop := p.1 ≤ se → p.2.t[zz p.1] = 0#16

/-- Positions lo..se before k. -/
def Before (lo se k j : Nat) : Prop := lo ≤ j ∧ j < k ∧ j ≤ se

section

variable {m : Source} {ac : HuffSlot} {al : BitVec 4} {lo se : Nat} {t : Block}

/-- Passing over a position leaves it as it is. -/
theorem Changed.pass {k k' : Nat} (hk : k ≤ k') {u : Block} (h : Changed (Refined al) (Before lo se k) t u) :
    Changed (Refined al) (Before lo se k') t u :=
  h.mono (Refined.refl al) fun _ ⟨hlo, hj, hse⟩ => ⟨hlo, by omega, hse⟩

/-- The positions before any k are positions of the range. -/
theorem Changed.through {k : Nat} {u : Block} (h : Changed (Refined al) (Before lo se k) t u) :
    Changed (Refined al) (fun j => lo ≤ j ∧ j ≤ se) t u :=
  h.mono (Refined.refl al) fun _ ⟨hlo, _, hse⟩ => ⟨hlo, hse⟩

/-- A position not yet reached takes any value R230 allows it. -/
theorem Changed.refine {k : Nat} (hlo : lo ≤ k) (hk : k ≤ se) (hse : se ≤ 63) {u : Block}
    (h : Changed (Refined al) (Before lo se k) t u) {x : Coef} (hx : Refined al u[zz k] x) :
    Changed (Refined al) (Before lo se (k + 1)) t (u.set (zz k) x) := by
  have hsame : u[zz k] = t[zz k] := (h k (by omega)).2 fun hb => absurd hb.2.1 (lt_irrefl k)
  exact (h.pass (Nat.le_succ k)).set (by omega) ⟨hlo, Nat.lt_succ_self k, hk⟩ (hsame ▸ hx)

theorem Changed.correct {k : Nat} (hlo : lo ≤ k) (hk : k ≤ se) (hse : se ≤ 63) {b : BlockRun}
    (h : Changed (Refined al) (Before lo se k) t b.t) (hne : b.t[zz k] ≠ 0#16) :
    Changed (Refined al) (Before lo se (k + 1)) t (Machine.correct m (2 ^ al.toNat) k b).t := by
  obtain ⟨x, hx, he⟩ := correct_cases m al k b
  rw [he]
  exact h.refine hlo hk hse ⟨fun _ => hx, fun h0 => absurd h0 hne⟩

theorem Changed.passLoop (hse : se ≤ 63) (fuel r : Nat) {k : Nat} (hlo : lo ≤ k) {b : BlockRun}
    (h : Changed (Refined al) (Before lo se k) t b.t) :
    Changed (Refined al) (Before lo se (Machine.passLoop m (2 ^ al.toNat) se fuel k r b).1) t
      (Machine.passLoop m (2 ^ al.toNat) se fuel k r b).2.t := by
  induction fuel generalizing k r b with
  | zero => exact h
  | succ fuel ih =>
    simp only [Machine.passLoop]
    split
    · exact h
    · split
      · exact ih _ (by omega) (h.correct hlo (by omega) hse ‹_›)
      · split
        · exact h
        · exact ih _ (by omega) (h.pass (Nat.le_succ k))

/-- Where the pass stops in range it stands at a zero coefficient (43_entropy.md R230). -/
theorem passLoop_stop (m : Source) (p1 : Int) {fuel k : Nat} (r : Nat) (b : BlockRun) (hf : se < k + fuel) :
    StopsAtZero se (passLoop m p1 se fuel k r b) := by
  induction fuel generalizing k r b with
  | zero => exact fun h => absurd hf (Nat.not_lt.mpr h)
  | succ fuel ih =>
    rw [passLoop]
    split
    · exact fun h => absurd h (Nat.not_le.mpr ‹_›)
    · split
      · exact ih _ _ (by omega)
      · split
        · exact fun _ => not_not.mp ‹_›
        · exact ih _ _ (by omega)

/-- The new coefficient is 2^AL or −2^AL (43_entropy.md R230). -/
theorem newValue_some {p1 : Int} {size : Nat} {b : BlockRun} {v : Int} (h : (newValue m p1 size b).1 = some v) : v = p1 ∨ v = -p1 := by
  simp only [newValue] at h
  split at h
  · obtain rfl := Option.some.inj h
    split
    · exact .inl rfl
    · exact .inr rfl
  · cases h

theorem Changed.placeNew {k : Nat} (hlo : lo ≤ k) (hse : se ≤ 63) {b : BlockRun} (h : Changed (Refined al) (Before lo se k) t b.t)
    (hz : StopsAtZero se (k, b)) {new : Option Int} (hv : ∀ v, new = some v → v = 2 ^ al.toNat ∨ v = -(2 ^ al.toNat)) :
    Changed (Refined al) (Before lo se (k + 1)) t (Machine.placeNew se k new b).t := by
  cases new with
  | none => exact h.pass (Nat.le_succ k)
  | some v =>
    simp only [Machine.placeNew]
    split
    · refine h.refine hlo ‹_› hse ⟨fun hne => absurd (hz ‹_›) hne, fun _ => .inr ?_⟩
      exact (hv v rfl).imp (congrArg wrap16) (congrArg wrap16)
    · exact h.pass (Nat.le_succ k)

theorem Changed.refineLoop (hse : se ≤ 63) (fuel : Nat) {k : Nat} (hlo : lo ≤ k) {b : BlockRun}
    (h : Changed (Refined al) (Before lo se k) t b.t) :
    lo ≤ (Machine.refineLoop m ac (2 ^ al.toNat) se fuel k b).k ∧
      Changed (Refined al) (Before lo se (Machine.refineLoop m ac (2 ^ al.toNat) se fuel k b).k) t
        (Machine.refineLoop m ac (2 ^ al.toNat) se fuel k b).run.t := by
  induction fuel generalizing k b with
  | zero => exact ⟨hlo, h⟩
  | succ fuel ih =>
    simp only [Machine.refineLoop]
    split
    · exact ⟨hlo, h⟩
    · split
      · exact ⟨hlo, h⟩
      · split
        · exact ⟨hlo, h⟩
        · have hnv : (newValue m (2 ^ al.toNat) ((b.decode m ac).1 % 16) (b.decode m ac).2).2.t = b.t := by
            rw [newValue]
            split <;> rfl
          have hle := le_passLoop m (2 ^ al.toNat) se 64 k ((b.decode m ac).1 / 16)
            (newValue m (2 ^ al.toNat) ((b.decode m ac).1 % 16) (b.decode m ac).2).2
          have hp := Changed.passLoop (m := m) hse 64 ((b.decode m ac).1 / 16) hlo (hnv.symm ▸ h)
          exact ih (by omega) (hp.placeNew (by omega) hse (passLoop_stop m _ _ _ (by omega)) fun v => newValue_some)

theorem Changed.tailLoop (hse : se ≤ 63) (fuel : Nat) {k : Nat} (hlo : lo ≤ k) {b : BlockRun}
    (h : Changed (Refined al) (Before lo se k) t b.t) :
    Changed (Refined al) (fun j => lo ≤ j ∧ j ≤ se) t (Machine.tailLoop m (2 ^ al.toNat) se fuel k b).t := by
  induction fuel generalizing k b with
  | zero => exact h.through
  | succ fuel ih =>
    simp only [Machine.tailLoop]
    split
    · exact h.through
    · refine ih (k := k + 1) (by omega) ?_
      split
      · exact h.correct hlo (by omega) hse ‹_›
      · exact h.pass (Nat.le_succ k)

end

/-- What ED_AC_REFINE can leave in its range (43_entropy.md R230). -/
theorem acRefineRun_changed (m : Source) (ac : HuffSlot) (cfg : ScanCfg) (b : BlockRun) :
    Changed (Refined cfg.al) cfg.InRange b.t (acRefineRun m ac cfg b).t := by
  have hse : cfg.se.toNat ≤ 63 := by omega
  have hstart : Changed (Refined cfg.al) (Before cfg.ss.toNat cfg.se.toNat cfg.ss.toNat) b.t b.t := .refl (Refined.refl cfg.al) _ _
  have hsym : cfg.ss.toNat ≤ (refineSymbols m ac cfg b).k ∧
      Changed (Refined cfg.al) (Before cfg.ss.toNat cfg.se.toNat (refineSymbols m ac cfg b).k) b.t (refineSymbols m ac cfg b).run.t := by
    rw [refineSymbols]
    split
    · exact hstart.refineLoop hse 64 le_rfl
    · exact ⟨le_rfl, hstart⟩
  obtain ⟨hlo, hch⟩ := hsym
  rw [acRefineRun_eq, refineTail]
  split
  · exact hch.through
  · split
    · exact hch.tailLoop hse 64 hlo
    · exact hch.through

end Sys2Proof.Machine
end

section
/-! SUPPORT. The five block commands, each from its decode (43_entropy.md R220–R222, R226–R230). -/

namespace Sys2Proof.Machine

open Sys2Proof.Spec

/-! ### DcDiff (43_entropy.md R223) -/

section

variable {m : Source} {sl : HuffSlot} {b : BlockRun}

theorem dcDiff_of_gt_15 (h : 15 < (decodeStep m sl b).1) : dcDiff m sl b = (0, withError .badSym (decodeStep m sl b).2) := by
  rw [dcDiff, decode_eq_decodeStep]
  exact if_pos h

theorem dcDiff_of_gt_11 (h : 11 < (decodeStep m sl b).1) (h' : (decodeStep m sl b).1 ≤ 15) :
    dcDiff m sl b = (withError .badSym (decodeStep m sl b).2).receiveExtend m (decodeStep m sl b).1 := by
  rw [dcDiff, decode_eq_decodeStep]
  exact (if_neg (by omega)).trans (if_pos h)

theorem dcDiff_of_le_11 (h : (decodeStep m sl b).1 ≤ 11) :
    dcDiff m sl b = (decodeStep m sl b).2.receiveExtend m (decodeStep m sl b).1 := by
  rw [dcDiff, decode_eq_decodeStep]
  exact (if_neg (by omega)).trans (if_neg (by omega))

end

/-! ### Position 0 -/

/-- A store at position 0, in natural order: ZZ[0] = 0 (10_state.md R62). -/
theorem set_zz_zero_getElem (t : Block) (x : Coef) (j : Fin 64) : (t.set (zz 0) x)[j] = if j.val = 0 then x else t[j] := by
  have hzz : (zz 0).val = 0 := rfl
  simp only [Fin.getElem_fin, Vector.getElem_set, hzz, eq_comm]

/-- 2^al in a 16-bit pattern (43_entropy.md R228). -/
theorem or_shift_eq_wrap16 (x : Coef) (al : BitVec 4) :
    x ||| (1#16 <<< al.toNat) = wrap16 ((x.toNat ||| 2 ^ al.toNat : Nat) : Int) := by
  have hlt : 2 ^ al.toNat < 65536 := Nat.pow_lt_pow_right (n := 16) (by norm_num) (by omega)
  apply BitVec.eq_of_toNat_eq
  rw [wrap16, BitVec.ofInt_natCast, BitVec.toNat_ofNat, BitVec.toNat_or, BitVec.toNat_shiftLeft, Nat.shiftLeft_eq,
    Nat.mod_eq_of_lt (Nat.or_lt_two_pow x.isLt hlt)]
  simp [Nat.mod_eq_of_lt hlt]

/-! ### The commands -/

/-- ED_BASELINE's decode stores the new predictor as it is at position 0 (43_entropy.md R226). -/
theorem baselineRun_eq (m : Source) (dc ac : HuffSlot) (p : Coef) (b : BlockRun) :
    baselineRun m dc ac p b =
      let v := dcDiff m dc { b with t := Vector.replicate 64 0#16 }
      (nextPred p v.1, runLoop m ac 63 0 (fun _ x => x) 64 1 { v.2 with t := v.2.t.set 0 (nextPred p v.1) }) := by
  simp only [baselineRun, BlockRun.setAt, wrap16_toInt]
  rfl

/-- ED_BASELINE zeroes the target, so its mode does not matter to its decode (43_entropy.md R226, R233). -/
theorem baselineRun_startBlock (m : Source) (dc ac : HuffSlot) (p : Coef) (d : Mode) (s : State) :
    baselineRun m dc ac p (s.startBlock d) = baselineRun m dc ac p (s.startBlock .store) := rfl

/-- Settles O45: the AC loop starts past position 0, and the block's old values play no part. -/
theorem baselineDecodesAWholeBlock : Obligations.BaselineDecodesAWholeBlock := by
  unfold Obligations.BaselineDecodesAWholeBlock
  intro c td ta d s hc
  refine ⟨encodes_of_wellFormed (componentOk_iff.mpr hc), _, _, _, setPred c _ s.pred, rfl, rfl, rfl, ?_, setPred_getElem c _ s.pred,
    ?_, fun t u ht hu => ?_⟩
  · rw [runLoop_t_zero _ _ _ fun _ _ => rfl]
    exact Vector.getElem_set_self _
  · rw [exec_edBaseline_of_le hc, baselineRun_eq, predOf_eq_getElem hc]
    rfl
  · rw [exec_edBaseline_of_le hc] at ht hu
    obtain rfl := Host.Outcome.next.inj ht
    obtain rfl := Host.Outcome.next.inj hu
    rw [baselineRun_startBlock _ _ _ _ .discard]
    rfl

/-- Settles O46: the symbol's size chooses the difference, and the store is at position 0 alone. -/
theorem dcFirstShiftsTheSumNotThePredictor : Obligations.DcFirstShiftsTheSumNotThePredictor := by
  unfold Obligations.DcFirstShiftsTheSumNotThePredictor
  refine ⟨fun m sl b => ⟨_, _, rfl, rfl, dcDiff_of_gt_15, dcDiff_of_gt_11, dcDiff_of_le_11⟩, fun c td ta d s hc => ?_⟩
  refine ⟨encodes_of_wellFormed (componentOk_iff.mpr hc), _, _, _, setPred c _ s.pred, rfl, rfl, set_zz_zero_getElem _ _,
    setPred_getElem c _ s.pred, ?_⟩
  rw [exec_edDcFirst_of_le hc, predOf_eq_getElem hc, dcFirstRun, BlockRun.setAt, dcDiff_t]
  rfl

/-- ED_DC_REFINE's decode: one bit, and the pattern of T[0] with or without it (43_entropy.md R228). -/
theorem dcRefineRun_t (m : Source) (al : Nat) (b : BlockRun) (j : Fin 64) :
    (dcRefineRun m al b).t[j] = if j.val = 0 ∧ (getBits m 1 b.reader).1 = 1 then b.t[j] ||| (1#16 <<< al) else b.t[j] := by
  by_cases hbit : (b.getBits m 1).1 = 1
  · have hbit' : (getBits m 1 b.reader).1 = 1 := hbit
    simp only [dcRefineRun, if_pos hbit, hbit', and_true, Fin.getElem_fin, Vector.getElem_set, BlockRun.getBits_t]
    by_cases hj : j.val = 0
    · simp [hj]
    · rw [if_neg (Ne.symm hj), if_neg hj]
  · have hbit' : ¬(getBits m 1 b.reader).1 = 1 := hbit
    simp only [dcRefineRun, if_neg hbit, hbit', and_false, BlockRun.getBits_t, if_false]

theorem dcRefineRun_eq (m : Source) (al : Nat) (b : BlockRun) :
    dcRefineRun m al b = { b with reader := (getBits m 1 b.reader).2, t := (dcRefineRun m al b).t } := by
  rw [dcRefineRun]
  split <;> rfl

/-- Settles O47: the bit read is OR'ed into position 0 of the target alone. -/
theorem dcRefineOrsOneBit : Obligations.DcRefineOrsOneBit := by
  unfold Obligations.DcRefineOrsOneBit
  intro c td ta d s hc
  refine ⟨encodes_of_wellFormed (componentOk_iff.mpr hc), (dcRefineRun s.source s.scancfg.al.toNat (s.startBlock d)).t, _,
    fun j => ?_, rfl, ?_, ?_⟩
  · rw [dcRefineRun_t, or_shift_eq_wrap16]
    rfl
  · rw [exec_edDcRefine_of_le hc, dcRefineRun_eq]
    rfl
  · simp [blockDone]

/-- One block less to go (43_entropy.md R229, R230). -/
theorem eobrun_pred_toNat {x : BitVec 16} (h : 0 < x.toNat) : (x - 1#16).toNat = x.toNat - 1 := by bv_omega

theorem acFirstRun_of_run {m : Source} {ac : HuffSlot} {cfg : ScanCfg} {b : BlockRun} (h : 0 < b.eobrun.toNat) :
    acFirstRun m ac cfg b = { b with eobrun := b.eobrun - 1#16 } := if_pos h

theorem acFirstRun_of_no_run {m : Source} {ac : HuffSlot} {cfg : ScanCfg} {b : BlockRun} (h : b.eobrun.toNat = 0) :
    acFirstRun m ac cfg b = runLoop m ac cfg.se.toNat cfg.al.toNat (acFirstEob m) 64 cfg.ss.toNat b :=
  if_neg (by simp [BitVec.lt_def, h])

/-- In a run, or with nothing in range, ED_AC_FIRST counts the run down and does nothing else (43_entropy.md R229). -/
theorem acFirstRun_idle {m : Source} {ac : HuffSlot} {cfg : ScanCfg} {b : BlockRun}
    (h : 0 < b.eobrun.toNat ∨ cfg.se.toNat < cfg.ss.toNat) :
    ∃ run, acFirstRun m ac cfg b = { b with eobrun := run } ∧ run.toNat = b.eobrun.toNat - 1 := by
  obtain hzero | hpos := Nat.eq_zero_or_pos b.eobrun.toNat
  · have hrange : cfg.se.toNat < cfg.ss.toNat := h.resolve_left (by omega)
    exact ⟨b.eobrun, (acFirstRun_of_no_run hzero).trans (if_pos hrange), by omega⟩
  · exact ⟨b.eobrun - 1#16, acFirstRun_of_run hpos, eobrun_pred_toNat hpos⟩

/-- Settles O48: a running end-of-band run counts down, and the loop does not decode past the range. -/
theorem acFirstHonoursTheEndOfBandRun : Obligations.AcFirstHonoursTheEndOfBandRun := by
  unfold Obligations.AcFirstHonoursTheEndOfBandRun
  intro c td ta d s hc
  have hexec := exec_edAcFirst_of_le hc td ta d s
  refine ⟨encodes_of_wellFormed (componentOk_iff.mpr hc), _, fun hpos => acFirstRun_of_run hpos,
    fun hzero => acFirstRun_of_no_run hzero, hexec, fun h => ⟨_, hexec, ?_⟩⟩
  obtain ⟨run, hrun, hcount⟩ := acFirstRun_idle (m := s.source) (ac := s.slot .ac ta) (b := s.startBlock d) h
  rw [hrun]
  exact ⟨BitVec.sub_self _, rfl, rfl, targetIn_blockDone .., hcount⟩

/-- Settles O52: what each loop can store, read off at the positions of the range. -/
theorem acCommandsChangeCoefficientsOneWay : Obligations.AcCommandsChangeCoefficientsOneWay := by
  unfold Obligations.AcCommandsChangeCoefficientsOneWay
  intro c td ta d s hc
  refine ⟨_, _, exec_edAcFirst_of_le hc td ta d s, exec_edAcRefine_of_le hc td ta d s, fun k hlo hhi => ?_⟩
  rw [targetIn_blockDone, targetIn_blockDone]
  have hfirst := (acFirstRun_changed s.source (s.slot .ac ta) s.scancfg (s.startBlock d) k (by omega)).1 ⟨hlo, hhi⟩
  have hrefine := (acRefineRun_changed s.source (s.slot .ac ta) s.scancfg (s.startBlock d) k (by omega)).1 ⟨hlo, hhi⟩
  exact ⟨hfirst, hrefine⟩

end Sys2Proof.Machine
end

section
/-! SUPPORT. The bits a block command consumes (43_entropy.md R222; 70_reset_and_hazards.md R352): at most 31 for a run/size symbol, at
most 17 for a symbol of AC-refine, and one for each coefficient corrected. -/

namespace Sys2Proof.Machine

open Sys2Proof.Spec

/-- From r to q the reader consumes n bits (10_state.md R43). -/
def Reader.Took (r q : Reader) (n : Nat) : Prop := q.consumed = r.consumed + BitVec.ofNat 32 n

theorem Reader.Took.refl (r : Reader) : r.Took r 0 := (BitVec.add_zero _).symm

theorem Reader.Took.trans {r q p : Reader} {a b : Nat} (h : r.Took q a) (h' : q.Took p b) : r.Took p (a + b) := by
  rw [Took, h', h, BitVec.ofNat_add, BitVec.add_assoc]

/-- RESULT is the count (43_entropy.md R222). -/
theorem Reader.Took.result {r q : Reader} {n : Nat} (h : r.Took q n) (hn : n < 2 ^ 32) : (q.consumed - r.consumed).toNat = n := by
  rw [h, BitVec.add_comm, BitVec.add_sub_cancel, BitVec.toNat_ofNat, Nat.mod_eq_of_lt hn]

theorem getBits_took (m : Source) (n : Nat) (r : Reader) : r.Took (getBits m n r).2 n := getBits_consumed m n r

theorem slotDecode_took (m : Source) (sl : HuffSlot) (r : Reader) : ∃ n ≤ 16, r.Took (slotDecode m sl r).2 n :=
  ⟨_, slotDecode_len_le m sl r, slotDecode_consumed m sl r⟩

section

variable (m : Source)

/-! ### DcDiff and the run/size loop -/

theorem dcDiff_took (sl : HuffSlot) (b : BlockRun) : ∃ n ≤ 31, b.reader.Took (dcDiff m sl b).2.reader n := by
  obtain ⟨n, hn, hd⟩ := slotDecode_took m sl b.reader
  simp only [dcDiff]
  split
  · exact ⟨n, by omega, hd⟩
  · have hr := hd.trans (getBits_took m (b.decode m sl).1 _)
    split <;> exact ⟨_, by omega, hr⟩

theorem runLoop_took (sl : HuffSlot) (hi al : Nat) {eob : Nat → BlockRun → BlockRun}
    (he : ∀ r (b : BlockRun), r < 15 → ∃ n ≤ 14, b.reader.Took (eob r b).reader n) (fuel k : Nat) (b : BlockRun) :
    ∃ n ≤ 31 * fuel, b.reader.Took (runLoop m sl hi al eob fuel k b).reader n := by
  induction fuel generalizing k b with
  | zero => exact ⟨0, le_rfl, .refl _⟩
  | succ fuel ih =>
    obtain ⟨a, ha, hd⟩ := slotDecode_took m sl b.reader
    have hb := BlockRun.decode_lt m sl b
    have hr := hd.trans (getBits_took m ((b.decode m sl).1 % 16) _)
    simp only [runLoop]
    split
    · exact ⟨0, Nat.zero_le _, .refl _⟩
    · split
      · split
        · obtain ⟨n, hn, h⟩ := ih (k + 16) (b.decode m sl).2
          exact ⟨a + n, by omega, hd.trans h⟩
        · obtain ⟨n, hn, h⟩ := he ((b.decode m sl).1 / 16) (b.decode m sl).2 (by omega)
          exact ⟨a + n, by omega, hd.trans h⟩
      · split
        · exact ⟨_, by omega, hr⟩
        · obtain ⟨n, hn, h⟩ := ih _ _
          exact ⟨_, by omega, hr.trans h⟩

theorem baselineRun_took (dc ac : HuffSlot) (p : Coef) (b : BlockRun) :
    ∃ n ≤ 2015, b.reader.Took (baselineRun m dc ac p b).2.reader n := by
  obtain ⟨b', hstart, hrun⟩ : ∃ b', b'.reader = (dcDiff m dc { b with t := Vector.replicate 64 0#16 }).2.reader ∧
      (baselineRun m dc ac p b).2 = runLoop m ac 63 0 baselineEob 64 1 b' := ⟨_, BlockRun.setAt_reader .., rfl⟩
  obtain ⟨a, ha, hd⟩ := dcDiff_took m dc { b with t := Vector.replicate 64 0#16 }
  have heob (r : Nat) (b : BlockRun) (_ : r < 15) : ∃ n ≤ 14, b.reader.Took (baselineEob r b).reader n := ⟨0, by omega, .refl _⟩
  obtain ⟨n, hn, h⟩ := runLoop_took m ac 63 0 heob 64 1 b'
  rw [hrun]
  rw [← hstart] at hd
  exact ⟨a + n, by omega, hd.trans h⟩

theorem acFirstRun_took (ac : HuffSlot) (cfg : ScanCfg) (b : BlockRun) :
    ∃ n ≤ 1984, b.reader.Took (acFirstRun m ac cfg b).reader n := by
  simp only [acFirstRun]
  split
  · exact ⟨0, by omega, .refl _⟩
  · exact runLoop_took m ac _ _ (fun r b hr => ⟨r, by omega, getBits_took m r b.reader⟩) 64 _ b

/-! ### AC-refine -/

@[simp] theorem correct_reader (p1 : Int) (k : Nat) (b : BlockRun) : (correct m p1 k b).reader = (getBits m 1 b.reader).2 := by
  simp only [correct]
  split <;> rfl

theorem correct_took (p1 : Int) (k : Nat) (b : BlockRun) : b.reader.Took (correct m p1 k b).reader 1 := by
  rw [correct_reader]
  exact getBits_took m 1 _

/-- The pass reads at most a bit for each position it passes in range. -/
theorem passLoop_took (p1 : Int) (se fuel k r : Nat) (b : BlockRun) :
    ∃ n, b.reader.Took (passLoop m p1 se fuel k r b).2.reader n ∧ n + (se + 1 - (passLoop m p1 se fuel k r b).1) ≤ se + 1 - k := by
  induction fuel generalizing k r b with
  | zero => exact ⟨0, .refl _, by simp [passLoop]⟩
  | succ fuel ih =>
    simp only [passLoop]
    split
    · exact ⟨0, .refl _, by simp⟩
    · split
      · obtain ⟨n, h, hn⟩ := ih (k + 1) r (correct m p1 k b)
        exact ⟨_, (correct_took m p1 k b).trans h, by omega⟩
      · split
        · exact ⟨0, .refl _, by simp⟩
        · obtain ⟨n, h, hn⟩ := ih (k + 1) (r - 1) b
          exact ⟨n, h, by omega⟩

theorem newValue_took (p1 : Int) (size : Nat) (b : BlockRun) : ∃ n ≤ 1, b.reader.Took (newValue m p1 size b).2.reader n := by
  simp only [newValue]
  split
  · exact ⟨1, le_rfl, getBits_took m 1 _⟩
  · exact ⟨0, by omega, .refl _⟩

theorem refineLoop_took (ac : HuffSlot) (p1 : Int) (se fuel k : Nat) (b : BlockRun) :
    ∃ n ≤ 17 * fuel + 14 + (se + 1 - k), b.reader.Took (refineLoop m ac p1 se fuel k b).run.reader n := by
  induction fuel generalizing k b with
  | zero => exact ⟨0, Nat.zero_le _, .refl _⟩
  | succ fuel ih =>
    obtain ⟨a, ha, hd⟩ := slotDecode_took m ac b.reader
    have hb := BlockRun.decode_lt m ac b
    simp only [refineLoop]
    split
    · exact ⟨0, Nat.zero_le _, .refl _⟩
    · split
      · exact ⟨_, by omega, hd.trans (getBits_took m ((b.decode m ac).1 / 16) _)⟩
      · split
        · exact ⟨a, by omega, hd⟩
        · obtain ⟨v, hv, hnv⟩ := newValue_took m p1 ((b.decode m ac).1 % 16) (b.decode m ac).2
          obtain ⟨c, hp, hc⟩ := passLoop_took m p1 se 64 k ((b.decode m ac).1 / 16)
            (newValue m p1 ((b.decode m ac).1 % 16) (b.decode m ac).2).2
          obtain ⟨n, hn, h⟩ := ih _ _
          rw [placeNew_reader] at h
          exact ⟨_, by omega, ((hd.trans hnv).trans hp).trans h⟩

end

/-! ### The tail of an end-of-band run -/

/-- The zigzag positions from k to se whose coefficients are not 0. -/
def nonzeroFrom (t : Block) (se k : Nat) : List Nat :=
  (List.range' k (64 - k)).filter fun j => decide (j ≤ se) && decide (t[zz j] ≠ 0#16)

theorem nonzeroFrom_of_gt (t : Block) {se k : Nat} (h : se < k) : nonzeroFrom t se k = [] := by
  simp only [nonzeroFrom, List.filter_eq_nil_iff, List.mem_range'_1, Bool.and_eq_true, decide_eq_true_eq]
  omega

theorem nonzeroFrom_of_le (t : Block) {se k : Nat} (hse : se ≤ 63) (h : k ≤ se) :
    nonzeroFrom t se k = if t[zz k] ≠ 0#16 then k :: nonzeroFrom t se (k + 1) else nonzeroFrom t se (k + 1) := by
  simp only [nonzeroFrom, show 64 - k = 64 - (k + 1) + 1 by omega, List.range'_succ, List.filter_cons, h, decide_true, Bool.true_and,
    decide_eq_true_eq]

theorem nonzeroFrom_set (t : Block) (se : Nat) {k : Nat} (hk : k < 64) (x : Coef) :
    nonzeroFrom (t.set (zz k) x) se (k + 1) = nonzeroFrom t se (k + 1) := by
  refine List.filter_congr fun j hj => ?_
  rw [List.mem_range'_1] at hj
  rw [set_zz_getElem t hk (by omega), if_neg (by omega)]

theorem nonzeroFrom_length_le (t : Block) (se k : Nat) : (nonzeroFrom t se k).length ≤ 64 :=
  (List.length_filter_le _ _).trans (by simp)

/-- The positions of a range, sought from position 0 on. -/
theorem nonzeroFrom_eq_filter_range (t : Block) (se : Nat) {k : Nat} (hk : k ≤ 64) :
    nonzeroFrom t se k = (List.range 64).filter fun j => decide (k ≤ j) && decide (j ≤ se) && decide (t[zz j] ≠ 0#16) := by
  have hsplit : List.range 64 = List.range' 0 k ++ List.range' k (64 - k) := by
    rw [List.range_eq_range', ← Nat.add_sub_cancel' hk, ← List.range'_append]
    simp
  have hbefore : (List.range' 0 k).filter (fun j => decide (k ≤ j) && decide (j ≤ se) && decide (t[zz j] ≠ 0#16)) = [] := by
    simp only [List.filter_eq_nil_iff, List.mem_range'_1, Bool.and_eq_true, decide_eq_true_eq]
    omega
  rw [hsplit, List.filter_append, hbefore, List.nil_append]
  refine List.filter_congr fun j hj => ?_
  simp [(List.mem_range'_1.mp hj).1]

/-- The tail reads one bit for each non-zero coefficient (43_entropy.md R230). -/
theorem tailLoop_took (m : Source) (al : BitVec 4) {se : Nat} (hse : se ≤ 63) {fuel k : Nat} (hf : se < k + fuel) (b : BlockRun) :
    b.reader.Took (tailLoop m (2 ^ al.toNat) se fuel k b).reader (nonzeroFrom b.t se k).length := by
  induction fuel generalizing k b with
  | zero =>
    rw [nonzeroFrom_of_gt b.t (by omega)]
    exact .refl _
  | succ fuel ih =>
    simp only [tailLoop]
    split
    · rw [nonzeroFrom_of_gt b.t ‹_›]
      exact .refl _
    · rw [nonzeroFrom_of_le b.t hse (by omega)]
      split
      · obtain ⟨x, -, hx⟩ := correct_cases m al k b
        have hlater : nonzeroFrom (correct m (2 ^ al.toNat) k b).t se (k + 1) = nonzeroFrom b.t se (k + 1) := by
          rw [hx]
          exact nonzeroFrom_set b.t se (by omega) x
        have hrest := ih (k := k + 1) (by omega) (correct m (2 ^ al.toNat) k b)
        rw [hlater] at hrest
        rw [List.length_cons, Nat.add_comm (List.length _)]
        exact (correct_took m _ k b).trans hrest
      · exact ih (by omega) b

theorem refineTail_of_run {m : Source} {p1 : Int} {se k : Nat} {b : BlockRun} (h : 0 < b.eobrun.toNat) :
    refineTail m p1 se k b = { tailLoop m p1 se 64 k b with eobrun := b.eobrun - 1#16 } := by
  have hpos : 0#16 < b.eobrun := h
  simp only [refineTail, if_pos hpos, tailLoop_eobrun]

theorem refineTail_of_no_run {m : Source} {p1 : Int} {se k : Nat} {b : BlockRun} (h : b.eobrun = 0#16) : refineTail m p1 se k b = b :=
  if_neg (by simp [h])

theorem refineTail_took (m : Source) (al : BitVec 4) {se : Nat} (hse : se ≤ 63) (k : Nat) (b : BlockRun) :
    ∃ n ≤ 64, b.reader.Took (refineTail m (2 ^ al.toNat) se k b).reader n := by
  rw [refineTail]
  split
  · exact ⟨_, nonzeroFrom_length_le b.t se k, tailLoop_took m al hse (by omega) b⟩
  · exact ⟨0, by omega, .refl _⟩

theorem refineSymbols_took (m : Source) (ac : HuffSlot) (cfg : ScanCfg) (b : BlockRun) :
    ∃ n ≤ 1166, b.reader.Took (refineSymbols m ac cfg b).run.reader n := by
  rw [refineSymbols]
  split
  · obtain ⟨n, hn, h⟩ := refineLoop_took m ac (2 ^ cfg.al.toNat) cfg.se.toNat 64 cfg.ss.toNat b
    exact ⟨n, by omega, h⟩
  · exact ⟨0, by omega, .refl _⟩

theorem acRefineRun_took (m : Source) (ac : HuffSlot) (cfg : ScanCfg) (b : BlockRun) :
    ∃ n ≤ 1230, b.reader.Took (acRefineRun m ac cfg b).reader n := by
  obtain ⟨n, hn, h⟩ := refineSymbols_took m ac cfg b
  rw [acRefineRun_eq]
  split
  · exact ⟨n, by omega, h⟩
  · obtain ⟨a, ha, ht⟩ := refineTail_took m cfg.al (show cfg.se.toNat ≤ 63 by omega) (refineSymbols m ac cfg b).k
      (refineSymbols m ac cfg b).run
    exact ⟨_, by omega, h.trans ht⟩

end Sys2Proof.Machine
end

section
/-! SUPPORT. ED_AC_REFINE and the end-of-band run (43_entropy.md R230, R231), and what all five block commands keep (R220–R222). -/

namespace Sys2Proof.Machine

open Sys2Proof.Spec

/-! ### ED_AC_REFINE (43_entropy.md R230) -/

section

variable {m : Source} {ac : HuffSlot} {cfg : ScanCfg} {b : BlockRun}

theorem refineSymbols_of_no_run (h : b.eobrun.toNat = 0) :
    refineSymbols m ac cfg b = refineLoop m ac (2 ^ cfg.al.toNat) cfg.se.toNat 64 cfg.ss.toNat b :=
  if_pos (BitVec.eq_of_toNat_eq h)

theorem refineSymbols_of_run (h : 0 < b.eobrun.toNat) : refineSymbols m ac cfg b = { stopped := false, k := cfg.ss.toNat, run := b } :=
  if_neg fun h0 => by simp [h0] at h

theorem acRefineRun_of_no_tail (h : (refineSymbols m ac cfg b).stopped = true ∨ (refineSymbols m ac cfg b).run.eobrun = 0#16) :
    acRefineRun m ac cfg b = (refineSymbols m ac cfg b).run := by
  rw [acRefineRun_eq]
  split
  · rfl
  · exact refineTail_of_no_run (h.resolve_left ‹_›)

theorem acRefineRun_of_tail (h : (refineSymbols m ac cfg b).stopped = false) (hrun : 0 < (refineSymbols m ac cfg b).run.eobrun.toNat) :
    acRefineRun m ac cfg b =
      { tailLoop m (2 ^ cfg.al.toNat) cfg.se.toNat 64 (refineSymbols m ac cfg b).k (refineSymbols m ac cfg b).run with
        eobrun := (refineSymbols m ac cfg b).run.eobrun - 1#16 } := by
  rw [acRefineRun_eq, if_neg (by simp [h]), refineTail_of_run hrun]

/-- In a run ED_AC_REFINE is its tail from SS on (43_entropy.md R230). -/
theorem acRefineRun_of_run (h : 0 < b.eobrun.toNat) :
    acRefineRun m ac cfg b =
      { tailLoop m (2 ^ cfg.al.toNat) cfg.se.toNat 64 cfg.ss.toNat b with eobrun := b.eobrun - 1#16 } := by
  have he := refineSymbols_of_run (m := m) (ac := ac) (cfg := cfg) h
  rw [acRefineRun_of_tail (by rw [he]) (by rwa [he]), he]

end

/-- Settles O49: the tail reads a bit for each non-zero coefficient, and a running end-of-band run leaves nothing but the tail. -/
theorem acRefineTailReadsOneBitPerNonzeroCoefficient : Obligations.AcRefineTailReadsOneBitPerNonzeroCoefficient := by
  unfold Obligations.AcRefineTailReadsOneBitPerNonzeroCoefficient
  intro c td ta d s hc
  have hexec := exec_edAcRefine_of_le hc td ta d s
  refine ⟨encodes_of_wellFormed (componentOk_iff.mpr hc), refineSymbols s.source (s.slot .ac ta) s.scancfg (s.startBlock d), _,
    fun hzero => refineSymbols_of_no_run hzero, fun hpos => refineSymbols_of_run hpos, acRefineRun_of_no_tail, acRefineRun_of_tail,
    hexec, fun hpos => ⟨_, hexec, ?_⟩⟩
  have htook := tailLoop_took s.source s.scancfg.al (show s.scancfg.se.toNat ≤ 63 by omega)
    (show s.scancfg.se.toNat < s.scancfg.ss.toNat + 64 by omega) (s.startBlock d)
  have hle := nonzeroFrom_length_le (s.selectTarget d) s.scancfg.se.toNat s.scancfg.ss.toNat
  rw [acRefineRun_of_run (b := s.startBlock d) hpos, ← nonzeroFrom_eq_filter_range _ _ (by omega)]
  exact ⟨tailLoop_errors .., eobrun_pred_toNat hpos, htook.result (by simp only [State.startBlock_t]; omega)⟩

/-! ### The end-of-band run (43_entropy.md R231) -/

/-- An end-of-band run symbol where ED_AC_REFINE stands in range (43_entropy.md R230). -/
theorem refineLoop_of_endOfBand {m : Source} {ac : HuffSlot} {p1 : Int} {se k r : Nat} {b : BlockRun} (fuel : Nat) (hk : k ≤ se)
    (hr : r ≤ 14) (h : (decodeStep m ac b).1 = 16 * r) :
    refineLoop m ac p1 se (fuel + 1) k b =
      { stopped := false
        k := k
        run := { afterBits m r (decodeStep m ac b).2 with eobrun := BitVec.ofNat 16 (2 ^ r + bitsAt m r (decodeStep m ac b).2) } } := by
  have hrun : 16 * r / 16 = r := by omega
  have hsize : 16 * r % 16 = 0 ∧ r ≠ 15 := by omega
  rw [refineLoop, if_neg (Nat.not_lt.mpr hk), decode_eq_decodeStep]
  simp only [h, hrun, if_pos hsize]
  rfl

/-- The blocks an end-of-band run symbol covers fit EOBRUN (43_entropy.md R231). -/
theorem two_pow_add_bits_le (m : Source) {r : Nat} (hr : r ≤ 14) (q : Reader) :
    1 ≤ 2 ^ r + (getBits m r q).1 ∧ 2 ^ r + (getBits m r q).1 ≤ 32767 := by
  have hlt := getBits_lt m r q
  have hpow : 2 ^ r ≤ 2 ^ 14 := Nat.pow_le_pow_right (by norm_num) hr
  omega

/-- What ED_AC_REFINE's symbols leave of EOBRUN: an end-of-band run symbol sets it, nothing else does. -/
theorem refineLoop_eobrun (m : Source) (ac : HuffSlot) (p1 : Int) (se fuel k : Nat) {b : BlockRun} {x : BitVec 16} (h : b.eobrun = x) :
    (refineLoop m ac p1 se fuel k b).run.eobrun = x ∨
      (refineLoop m ac p1 se fuel k b).stopped = false ∧ (refineLoop m ac p1 se fuel k b).run.eobrun.toNat ≤ 32767 := by
  induction fuel generalizing k b with
  | zero => exact .inl h
  | succ fuel ih =>
    have hb := BlockRun.decode_lt m ac b
    simp only [refineLoop]
    split
    · exact .inl h
    · split
      · refine .inr ⟨rfl, ?_⟩
        obtain ⟨-, hle⟩ := two_pow_add_bits_le m (show (b.decode m ac).1 / 16 ≤ 14 by omega) (b.decode m ac).2.reader
        rw [BlockRun.getBits_fst, BitVec.toNat_ofNat]
        exact (Nat.mod_le _ _).trans hle
      · split
        · exact .inl h
        · exact ih _ (by simpa using h)

theorem acRefineRun_eobrun (m : Source) (ac : HuffSlot) (cfg : ScanCfg) (b : BlockRun) :
    (acRefineRun m ac cfg b).eobrun.toNat ≤ max b.eobrun.toNat 32766 := by
  obtain hzero | hpos := Nat.eq_zero_or_pos b.eobrun.toNat
  · have hsym : (refineSymbols m ac cfg b).run.eobrun.toNat = 0 ∨
        (refineSymbols m ac cfg b).stopped = false ∧ (refineSymbols m ac cfg b).run.eobrun.toNat ≤ 32767 := by
      rw [refineSymbols_of_no_run hzero]
      exact (refineLoop_eobrun m ac _ _ 64 _ (x := 0#16) (BitVec.eq_of_toNat_eq hzero)).imp_left (congrArg BitVec.toNat)
    by_cases hnone : (refineSymbols m ac cfg b).stopped = true ∨ (refineSymbols m ac cfg b).run.eobrun = 0#16
    · rw [acRefineRun_of_no_tail hnone]
      obtain hstop | hzero := hnone
      · rw [hsym.resolve_right (by simp [hstop])]
        exact Nat.zero_le _
      · rw [hzero]
        exact Nat.zero_le _
    · rw [not_or, Bool.not_eq_true] at hnone
      obtain ⟨hgoes, hne⟩ := hnone
      have htail : 0 < (refineSymbols m ac cfg b).run.eobrun.toNat := Nat.pos_of_ne_zero fun h0 => hne (BitVec.eq_of_toNat_eq h0)
      rw [acRefineRun_of_tail hgoes htail, eobrun_pred_toNat htail]
      omega
  · rw [acRefineRun_of_run hpos, eobrun_pred_toNat hpos]
    omega

/-- An end-of-band run symbol of AC-first (43_entropy.md R229, R231). -/
theorem acFirstEob_eobrun (m : Source) {r : Nat} (hr : r ≤ 14) (b : BlockRun) :
    (acFirstEob m r b).eobrun.toNat + 1 = 2 ^ r + (getBits m r b.reader).1 := by
  have hbound := two_pow_add_bits_le m hr b.reader
  rw [acFirstEob, BitVec.toNat_ofNat, BlockRun.getBits_fst, Nat.mod_eq_of_lt] <;> omega

theorem acFirstRun_eobrun (m : Source) (ac : HuffSlot) (cfg : ScanCfg) (b : BlockRun) :
    (acFirstRun m ac cfg b).eobrun.toNat ≤ max b.eobrun.toNat 32766 := by
  obtain hzero | hpos := Nat.eq_zero_or_pos b.eobrun.toNat
  · rw [acFirstRun_of_no_run hzero]
    refine runLoop_eobrun m ac _ _ _ (fun x => x.toNat ≤ max b.eobrun.toNat 32766) (fun r b' hr _ => ?_) 64 _ b (le_max_left _ _)
    have heq := acFirstEob_eobrun m (show r ≤ 14 by omega) b'
    have hbound := two_pow_add_bits_le m (show r ≤ 14 by omega) b'.reader
    omega
  · rw [acFirstRun_of_run hpos, eobrun_pred_toNat hpos]
    omega

theorem State.restart_eobrun (s : State) : s.restart.eobrun = 0#16 := by
  unfold State.restart
  simp only
  split <;> rfl

theorem exec_eobrun_le {i : Instr} {s t : State} (h : exec i s = .next t) : t.eobrun.toNat ≤ max s.eobrun.toNat 32766 := by
  by_cases hreset : i = .softReset
  · subst hreset
    obtain rfl := Host.Outcome.next.inj h
    exact Nat.zero_le _
  by_cases hsame : t.eobrun = s.eobrun
  · rw [hsame]
    exact le_max_left _ _
  have hw := (exec_frame h hreset).eobrun hsame
  cases i <;> simp only [writesEobrun, Bool.false_eq_true] at hw <;> obtain rfl := Host.Outcome.next.inj h
  case edScanStart => exact Nat.zero_le _
  case edRestart =>
    rw [State.restart_eobrun]
    exact Nat.zero_le _
  case edAcFirst =>
    exact guardOperands_ind (p := fun u => u.eobrun.toNat ≤ max s.eobrun.toNat 32766)
      (fun _ => (State.finishBlock_eobrun ..).symm ▸ acFirstRun_eobrun ..) (le_max_left _ _)
  case edAcRefine =>
    exact guardOperands_ind (p := fun u => u.eobrun.toNat ≤ max s.eobrun.toNat 32766)
      (fun _ => (State.finishBlock_eobrun ..).symm ▸ acRefineRun_eobrun ..) (le_max_left _ _)

/-- Settles O50: the extra bits of a run r ≤ 14 are below 2^r, so the count fits EOBRUN, and AC-refine's tail takes one off it. -/
theorem endOfBandRunArithmetic : Obligations.EndOfBandRunArithmetic := by
  unfold Obligations.EndOfBandRunArithmetic
  refine ⟨fun m r b hr => ⟨_, rfl, acFirstEob_eobrun m hr b, ?_⟩, fun m ac p1 se k r b hk hse hr hsym => ?_,
    fun i s t => exec_eobrun_le⟩
  · have heq := acFirstEob_eobrun m hr b
    have hbound := two_pow_add_bits_le m hr b.reader
    exact (show (acFirstEob m r b).eobrun.toNat ≤ 32766 by omega)
  · obtain ⟨hpos, hle⟩ := two_pow_add_bits_le m hr (decodeStep m ac b).2.reader
    have hcount : (BitVec.ofNat 16 (2 ^ r + (getBits m r (decodeStep m ac b).2.reader).1)).toNat =
        2 ^ r + (getBits m r (decodeStep m ac b).2.reader).1 := by
      rw [BitVec.toNat_ofNat, Nat.mod_eq_of_lt (by omega)]
    rw [refineLoop_of_endOfBand 63 hk hr hsym]
    have htail : 0 < (BitVec.ofNat 16 (2 ^ r + (getBits m r (decodeStep m ac b).2.reader).1)).toNat := by
      rw [hcount]
      exact hpos
    refine ⟨rfl, rfl, rfl, ?_⟩
    calc _ = (BitVec.ofNat 16 (2 ^ r + (getBits m r (decodeStep m ac b).2.reader).1) - 1#16).toNat + 1 := by
          rw [refineTail_of_run htail]
          rfl
      _ = 2 ^ r + (getBits m r (decodeStep m ac b).2.reader).1 := by
          rw [eobrun_pred_toNat htail, hcount, Nat.sub_add_cancel hpos]

/-! ### All five commands -/

/-- The predictors of the other components are kept (10_state.md R46). -/
theorem setPred_other {c : BitVec 2} {v : Coef} {p : Vector Coef 3} {j : Fin 3} (h : j.val ≠ c.toNat) : (setPred c v p)[j] = p[j] := by
  rw [setPred_getElem, if_neg h]

/-- A store at position 0 leaves the rest of the zigzag order (10_state.md R62). -/
theorem set_zz_zero_outside (t : Block) (x : Coef) {k : Nat} (hk : k < 64) (h : ¬(0 ≤ k ∧ k ≤ 0)) :
    (t.set (zz 0) x)[zz k] = t[zz k] := by
  rw [set_zz_getElem t (by omega) hk, if_neg (by omega)]

theorem dcFirstRun_t (m : Source) (dc : HuffSlot) (al : Nat) (p : Coef) (b : BlockRun) :
    ∃ x, (dcFirstRun m dc al p b).2.t = b.t.set (zz 0) x :=
  ⟨_, by simp only [dcFirstRun, BlockRun.setAt_t, dcDiff_t]; rfl⟩

/-- What a block command leaves: its working state at its end, and the predictors (43_entropy.md R220–R222). -/
structure BlockEnd (c : BitVec 2) (d : Mode) (i : Instr) (s : State) (b : BlockRun) (p : Vector Coef 3) : Prop where
  exec : exec i s = .next (blockDone d (writeBackRange s i).1 (writeBackRange s i).2 b { s with pred := p })
  lastrst : b.reader.lastrst = s.reader.lastrst ∧ b.reader.lastrstValid = s.reader.lastrstValid
  took : ∃ n ≤ 64 * (16 + 16) + 16, s.reader.Took b.reader n
  outside : ∀ k, k < 64 → ¬((writeBackRange s i).1 ≤ k ∧ k ≤ (writeBackRange s i).2) → b.t[zz k] = (s.selectTarget d)[zz k]
  pred : ∀ j : Fin 3, j.val ≠ c.toNat ∨ writesPred i = false → p[j] = s.pred[j]
  eobrun : writesEobrun i = false → b.eobrun = s.eobrun

section

variable {c : BitVec 2} (hc : c.toNat ≤ 2) (td ta : BitVec 2) (d : Mode) (s : State)

include hc

theorem edBaseline_blockEnd : ∃ b p, BlockEnd c d (.edBaseline c td ta d) s b p := by
  obtain ⟨n, hn, htook⟩ := baselineRun_took s.source (s.slot .dc td) (s.slot .ac ta) (s.predOf c) (s.startBlock d)
  exact ⟨_, _, exec_edBaseline_of_le hc td ta d s, baselineRun_kept (kept_lastrst_of s.source s.reader) _ _ _ _ ⟨rfl, rfl⟩,
    ⟨n, by omega, htook⟩, fun k hk hout => absurd ⟨k.zero_le, Nat.le_of_lt_succ hk⟩ hout,
    fun j hj => setPred_other (c := c) (hj.resolve_right (by simp [writesPred])), fun _ => baselineRun_eobrun ..⟩

theorem edDcFirst_blockEnd : ∃ b p, BlockEnd c d (.edDcFirst c td ta d) s b p := by
  obtain ⟨n, hn, htook⟩ := dcDiff_took s.source (s.slot .dc td) (s.startBlock d)
  refine ⟨_, _, exec_edDcFirst_of_le hc td ta d s, dcFirstRun_kept (kept_lastrst_of s.source s.reader) _ _ _ _ ⟨rfl, rfl⟩,
    ⟨n, by omega, htook⟩, fun k hk hout => ?_, fun j hj => setPred_other (c := c) (hj.resolve_right (by simp [writesPred])),
    fun _ => dcFirstRun_eobrun ..⟩
  obtain ⟨x, hx⟩ := dcFirstRun_t s.source (s.slot .dc td) s.scancfg.al.toNat (s.predOf c) (s.startBlock d)
  rw [hx, set_zz_zero_outside _ _ hk hout, State.startBlock_t]

theorem edDcRefine_blockEnd : ∃ b p, BlockEnd c d (.edDcRefine c td ta d) s b p := by
  have hread : (dcRefineRun s.source s.scancfg.al.toNat (s.startBlock d)).reader = (getBits s.source 1 s.reader).2 := by
    rw [dcRefineRun_eq]
    rfl
  refine ⟨_, s.pred, exec_edDcRefine_of_le hc td ta d s, dcRefineRun_kept (kept_lastrst_of s.source s.reader) _ _ ⟨rfl, rfl⟩,
    ⟨1, by omega, hread ▸ getBits_took s.source 1 s.reader⟩, fun k hk hout => ?_, fun _ _ => rfl, fun _ => dcRefineRun_eobrun ..⟩
  have hne : (zz k).val ≠ 0 := fun h => hout ⟨k.zero_le, (zz_injective (k := 0) hk (by omega) (Fin.ext h)).le⟩
  rw [dcRefineRun_t, if_neg fun h => hne h.1, State.startBlock_t]

theorem edAcFirst_blockEnd : ∃ b p, BlockEnd c d (.edAcFirst c td ta d) s b p := by
  obtain ⟨n, hn, htook⟩ := acFirstRun_took s.source (s.slot .ac ta) s.scancfg (s.startBlock d)
  exact ⟨_, s.pred, exec_edAcFirst_of_le hc td ta d s, acFirstRun_kept (kept_lastrst_of s.source s.reader) _ _ _ ⟨rfl, rfl⟩,
    ⟨n, by omega, htook⟩, fun k hk => (acFirstRun_changed s.source (s.slot .ac ta) s.scancfg (s.startBlock d) k hk).2, fun _ _ => rfl,
    fun hw => absurd hw (by simp [writesEobrun])⟩

theorem edAcRefine_blockEnd : ∃ b p, BlockEnd c d (.edAcRefine c td ta d) s b p := by
  obtain ⟨n, hn, htook⟩ := acRefineRun_took s.source (s.slot .ac ta) s.scancfg (s.startBlock d)
  exact ⟨_, s.pred, exec_edAcRefine_of_le hc td ta d s, acRefineRun_kept (kept_lastrst_of s.source s.reader) _ _ _ ⟨rfl, rfl⟩,
    ⟨n, by omega, htook⟩, fun k hk => (acRefineRun_changed s.source (s.slot .ac ta) s.scancfg (s.startBlock d) k hk).2, fun _ _ => rfl,
    fun hw => absurd hw (by simp [writesEobrun])⟩

theorem blockCommand_blockEnd {i : Instr} (hi : i ∈ blockCommands c td ta d) : Encodes i ∧ ∃ b p, BlockEnd c d i s b p := by
  have hwf := componentOk_iff.mpr hc
  simp only [blockCommands, List.mem_cons, List.not_mem_nil, or_false] at hi
  obtain rfl | rfl | rfl | rfl | rfl := hi
  · exact ⟨encodes_of_wellFormed hwf, edBaseline_blockEnd hc td ta d s⟩
  · exact ⟨encodes_of_wellFormed hwf, edDcFirst_blockEnd hc td ta d s⟩
  · exact ⟨encodes_of_wellFormed hwf, edDcRefine_blockEnd hc td ta d s⟩
  · exact ⟨encodes_of_wellFormed hwf, edAcFirst_blockEnd hc td ta d s⟩
  · exact ⟨encodes_of_wellFormed hwf, edAcRefine_blockEnd hc td ta d s⟩

end

/-- Settles O43: each command ends in its working state, whose target changed in the command's range alone. -/
theorem blockCommandsKeepTheirFrame : Obligations.BlockCommandsKeepTheirFrame := by
  unfold Obligations.BlockCommandsKeepTheirFrame
  refine ⟨fun s => ⟨rfl, seedScratch_zz s.nzmask⟩, fun c td ta d s i hc hi => ?_⟩
  obtain ⟨henc, b, p, hend⟩ := blockCommand_blockEnd hc td ta d s hi
  rw [hend.exec]
  refine ⟨henc, _, rfl, rfl, fun k hk => ?_, fun k hk hout => ?_, ?_, ?_, hend.pred, hend.eobrun, hend.lastrst.1, hend.lastrst.2, ?_⟩
  · rw [targetIn_blockDone]
    simp [blockDone, hk]
  · rw [targetIn_blockDone]
    exact hend.outside k hk hout
  · rintro rfl
    rfl
  · rintro rfl
    rfl
  · rfl

/-- Settles O53: every symbol of a block is at most 16 code bits and 15 value bits, every correction a bit. -/
theorem blockCommandsConsumeBoundedBits : Obligations.BlockCommandsConsumeBoundedBits := by
  unfold Obligations.BlockCommandsConsumeBoundedBits
  intro c td ta d s i hc hi
  obtain ⟨-, b, p, hend⟩ := blockCommand_blockEnd hc td ta d s hi
  obtain ⟨n, hn, htook⟩ := hend.took
  exact ⟨_, hend.exec, (htook.result (by omega)).trans_le hn⟩

end Sys2Proof.Machine
end

section
/-! The two passes of the inverse DCT (44_idct.md R272–R276): the kernel's outputs as combinations of its inputs, and each pass entry by
entry, with the fast paths gone. -/

namespace Sys2Proof.Machine

open Sys2Proof.Spec

/-! ### The kernel -/

/-- The butterflies of the kernel multiply out to the combinations of 44_idct.md R273. -/
theorem kernel_toList (v : Vector Int 8) : (kernel v).toList = kernelOutputs v := by
  simp only [kernel, Vector.toList_mk, kernelOutputs, evenSum, evenDiff, evenOuter, evenInner, oddA0, oddA1, oddA2, oddA3, f0298, f0390,
    f0541, f0765, f0899, f1175, f1501, f1847, f1961, f2053, f2562, f3072, constBits, List.cons_append, List.nil_append, List.cons.injEq]
  refine ⟨?_, ?_, ?_, ?_, ?_, ?_, ?_, ?_, trivial⟩ <;> ring

theorem kernel_getElem_mem (v : Vector Int 8) {j : Nat} (hj : j < 8) : (kernel v)[j] ∈ kernelOutputs v := by
  rw [← kernel_toList, Vector.mem_toList_iff]
  exact Vector.getElem_mem hj

/-! ### The fast paths (44_idct.md R274, R275) -/

theorem onlyFirst_iff (v : Vector Int 8) : onlyFirst v = true ↔ ∀ n < 8, n ≠ 0 → intAt v n = 0 := by
  constructor
  · intro h n hn hne
    simp only [onlyFirst, Bool.and_eq_true, decide_eq_true_eq] at h
    obtain ⟨⟨⟨⟨⟨⟨h1, h2⟩, h3⟩, h4⟩, h5⟩, h6⟩, h7⟩ := h
    interval_cases n
    exacts [absurd rfl hne, h1, h2, h3, h4, h5, h6, h7]
  · intro h
    simp [onlyFirst, ← intAt_of_lt, h]

theorem intAt_kernel_of_onlyFirst {v : Vector Int 8} (h : onlyFirst v = true) {j : Nat} (hj : j < 8) :
    intAt (kernel v) j = v[0] * 2 ^ 13 := by
  rw [kernel_of_onlyFirst v h, intAt_of_lt _ hj, Vector.getElem_replicate]

/-- On either path a column of pass 1 is the kernel, descaled by 11 bits (44_idct.md R274). -/
theorem intAt_pass1Column (v : Vector Int 8) {j : Nat} (hj : j < 8) : intAt (pass1Column v) j = (intAt (kernel v) j + 2 ^ 10) / 2 ^ 11 := by
  unfold pass1Column
  split
  case isTrue h =>
    rw [intAt_kernel_of_onlyFirst h hj, intAt_of_lt _ hj, Vector.getElem_replicate, pass1Bits]
    omega
  case isFalse => exact intAt_tabulate _ _ hj

/-- On either path a row of pass 2 is the kernel, descaled by 18 bits and limited (44_idct.md R275). -/
theorem intAt_pass2Row (w : Vector Int 8) {j : Nat} (hj : j < 8) :
    intAt (pass2Row w) j = limit ((intAt (kernel w) j + 2 ^ 17) / 2 ^ 18) := by
  unfold pass2Row
  split
  case isTrue h =>
    rw [intAt_kernel_of_onlyFirst h hj, intAt_of_lt _ hj, Vector.getElem_replicate]
    congr 1
    simp only [descale, asr, pass1Bits]
    omega
  case isFalse => exact intAt_tabulate _ _ hj

/-! ### The passes, entry by entry -/

theorem intAt_pass1 (x : Vector Int 64) {i : Nat} (hi : i < 64) :
    intAt (pass1 x) i = (intAt (kernel (column x (i % 8))) (i / 8) + 2 ^ 10) / 2 ^ 11 := by
  rw [pass1, intAt_tabulate _ _ hi, intAt_pass1Column _ (by omega)]

theorem intAt_pass2 (w : Vector Int 64) {i : Nat} (hi : i < 64) :
    intAt (pass2 w) i = limit ((intAt (kernel (row w (i / 8))) (i % 8) + 2 ^ 17) / 2 ^ 18) := by
  rw [pass2, intAt_tabulate _ _ hi, intAt_pass2Row _ (by omega)]

/-- What pass 2 leaves is a sample (44_idct.md R276). -/
theorem pass2_bounds (w : Vector Int 64) {i : Nat} (hi : i < 64) : 0 ≤ intAt (pass2 w) i ∧ intAt (pass2 w) i ≤ 255 := by
  rw [intAt_pass2 w hi]
  exact limit_bounds _

/-- Settles O55: the kernel multiplied out, and each pass entry by entry. -/
theorem idctFastPathsEqualTheKernel : Obligations.IdctFastPathsEqualTheKernel := by
  unfold Obligations.IdctFastPathsEqualTheKernel
  refine ⟨kernel_toList, fun x r j => ⟨?_, ?_⟩⟩
  · have h := intAt_pass1 x (i := 8 * r + j) (by omega)
    rwa [show (8 * r.val + j) % 8 = j by omega, show (8 * r.val + j) / 8 = r by omega] at h
  · have h := intAt_pass2 x (i := 8 * r + j) (by omega)
    rwa [show (8 * r.val + j) % 8 = j by omega, show (8 * r.val + j) / 8 = r by omega] at h

/-! ### IDCT (44_idct.md R270, R271) -/

theorem dequantise_getElem (x : Block) (q : Vector (BitVec 16) 64) {i : Nat} (hi : i < 64) :
    (dequantise x q)[i] = x[i].toInt * (q[i].toNat : Int) := by
  rw [dequantise, tabulate_getElem _ _ _ hi, entry_of_lt _ hi, entry_of_lt _ hi]

theorem exec_idct (q : BitVec 2) (s : State) : exec (.idct q) s = .next { s with sample := idctBlock s.coef s.qt[q.toFin] } := rfl

/-- A sample is what pass 2 leaves: narrowing to a byte loses nothing. -/
theorem idctBlock_toNat (x : Block) (q : Vector (BitVec 16) 64) {i : Nat} (hi : i < 64) :
    ((idctBlock x q)[i].toNat : Int) = intAt (pass2 (pass1 (dequantise x q))) i := by
  obtain ⟨h0, h255⟩ := pass2_bounds (pass1 (dequantise x q)) hi
  rw [idctBlock, tabulate_getElem _ _ _ hi, toNat_ofInt_byte _ h0 h255]

/-- Settles O54: the samples are pass 2's results, which a byte holds. -/
theorem idctWritesTheSamplesOfTheBlock : Obligations.IdctWritesTheSamplesOfTheBlock := by
  unfold Obligations.IdctWritesTheSamplesOfTheBlock
  refine fun q s => ⟨encodes_of_wellFormed rfl, _, _, fun i => dequantise_getElem _ _ i.isLt, fun i => ?_, exec_idct q s⟩
  rw [Fin.getElem_fin, idctBlock_toNat _ _ i.isLt, intAt_of_lt _ i.isLt]
  rfl

/-! ### DC-only blocks (44_idct.md R277) -/

section

variable {x : Vector Int 64} (hx : ∀ i < 64, i ≠ 0 → intAt x i = 0)
include hx

/-- Pass 1 on a DC-only block puts four times the DC value at the head of every row and 0 elsewhere. -/
theorem intAt_pass1_of_dcOnly {i : Nat} (hi : i < 64) : intAt (pass1 x) i = if i % 8 = 0 then 4 * intAt x 0 else 0 := by
  have hcol : onlyFirst (column x (i % 8)) = true := by
    refine (onlyFirst_iff _).mpr fun n hn hne => ?_
    rw [column, intAt_tabulate _ _ hn, hx _ (by omega) (by omega)]
  rw [intAt_pass1 x hi, intAt_kernel_of_onlyFirst hcol (by omega), column, tabulate_getElem _ _ _ (by omega)]
  split
  case isTrue h =>
    rw [h, show 8 * 0 + 0 = 0 from rfl]
    omega
  case isFalse h =>
    rw [hx _ (by omega) (by omega)]
    rfl

/-- A DC-only block is flat (44_idct.md R277). -/
theorem intAt_pass2_of_dcOnly {i : Nat} (hi : i < 64) : intAt (pass2 (pass1 x)) i = limit ((intAt x 0 + 4) / 8) := by
  have hentry : ∀ n < 8, intAt (row (pass1 x) (i / 8)) n = if n = 0 then 4 * intAt x 0 else 0 := fun n hn => by
    rw [row, intAt_tabulate _ _ hn, intAt_pass1_of_dcOnly hx (by omega), show (8 * (i / 8) + n) % 8 = n by omega]
  have hrow : onlyFirst (row (pass1 x) (i / 8)) = true :=
    (onlyFirst_iff _).mpr fun n hn hne => by rw [hentry n hn, if_neg hne]
  rw [intAt_pass2 _ hi, intAt_kernel_of_onlyFirst hrow (by omega), ← intAt_of_lt _ (by omega), hentry 0 (by omega), if_pos rfl]
  congr 1
  omega

end

/-- Settles O56: the products past the first are 0, and both passes take a DC-only block through unchanged but for the scale. -/
theorem dcOnlyBlockIsFlat : Obligations.DcOnlyBlockIsFlat := by
  unfold Obligations.DcOnlyBlockIsFlat
  intro q s hdc
  have hx : ∀ i < 64, i ≠ 0 → intAt (dequantise s.coef s.qt[q.toFin]) i = 0 := fun i hi hne => by
    have hcoef : s.coef[i] = 0#16 := hdc ⟨i, hi⟩ hne
    rw [intAt_of_lt _ hi, dequantise_getElem _ _ hi, hcoef, BitVec.toInt_zero, zero_mul]
  refine ⟨_, exec_idct q s, fun i => ?_⟩
  rw [Fin.getElem_fin, idctBlock_toNat _ _ i.isLt, intAt_pass2_of_dcOnly hx i.isLt, intAt_of_lt _ (by omega),
    dequantise_getElem _ _ (by omega)]
  rfl

end Sys2Proof.Machine
end

section
/-! The width of the inverse DCT (44_idct.md R278): every value of the kernel is a combination of its inputs with coefficients that sum to
at most 2^16 in magnitude, so the bounds of the inputs carry through the two passes. -/

namespace Sys2Proof.Machine

open Sys2Proof.Spec

/-! ### The kernel's gain -/

section

variable {v : Vector Int 8} {bound : Int} (hv : ∀ n : Fin 8, |v[n]| ≤ bound)
include hv

/-- The bound at the eight literal places the kernel's terms name. -/
theorem inputs_bounded :
    (|v[0]| ≤ bound ∧ |v[1]| ≤ bound ∧ |v[2]| ≤ bound ∧ |v[3]| ≤ bound) ∧
      |v[4]| ≤ bound ∧ |v[5]| ≤ bound ∧ |v[6]| ≤ bound ∧ |v[7]| ≤ bound :=
  ⟨⟨hv 0, hv 1, hv 2, hv 3⟩, hv 4, hv 5, hv 6, hv 7⟩

/-- Each value of the even part is a combination of the inputs: their bounds, taken with the coefficients, add up to its own. -/
theorem abs_evenTerms_le : ∀ x ∈ evenTerms v, |x| ≤ 2 ^ 16 * bound := by
  have h := inputs_bounded hv
  simp only [evenTerms, f0541, f0765, f1847, List.cons_append, List.nil_append, List.forall_mem_cons, List.not_mem_nil, false_imp_iff,
    implies_true, and_true, abs_le] at h ⊢
  and_intros <;> omega

theorem abs_oddTerms_le : ∀ x ∈ oddTerms v, |x| ≤ 2 ^ 16 * bound := by
  have h := inputs_bounded hv
  simp only [oddTerms, f0298, f0390, f0899, f1175, f1501, f1961, f2053, f2562, f3072, List.cons_append, List.nil_append,
    List.forall_mem_cons, List.not_mem_nil, false_imp_iff, implies_true, and_true, abs_le] at h ⊢
  and_intros <;> omega

/-- The outputs' row sums run from 61211 to 61214, which o2 and o5 reach (44_idct.md R278). -/
theorem abs_kernelOutputs_le : ∀ x ∈ kernelOutputs v, |x| ≤ 61214 * bound := by
  have h := inputs_bounded hv
  simp only [kernelOutputs, evenSum, evenDiff, evenOuter, evenInner, oddA0, oddA1, oddA2, oddA3, f0298, f0390, f0541, f0765, f0899, f1175,
    f1501, f1847, f1961, f2053, f2562, f3072, List.cons_append, List.nil_append, List.forall_mem_cons, List.not_mem_nil, false_imp_iff,
    implies_true, and_true, abs_le] at h ⊢
  and_intros <;> omega

/-- No value on the way to the kernel's outputs has a gain above 2^16 (44_idct.md R278). -/
theorem abs_kernelTerms_le : ∀ x ∈ kernelTerms v, |x| ≤ 2 ^ 16 * bound := by
  have hbound : 0 ≤ bound := (abs_nonneg _).trans (hv 0)
  intro x hx
  rw [kernelTerms, List.mem_append, List.mem_append] at hx
  obtain (heven | hodd) | hout := hx
  · exact abs_evenTerms_le hv x heven
  · exact abs_oddTerms_le hv x hodd
  · exact (abs_kernelOutputs_le hv x hout).trans (by omega)

end

/-! ### The two passes -/

theorem abs_dequantise_le (b : Block) (q : Vector (BitVec 16) 64) {i : Nat} (hi : i < 64) :
    |intAt (dequantise b q) i| ≤ 2 ^ 15 * (2 ^ 16 - 1) := by
  have hcoef : |b[i].toInt| ≤ 2 ^ 15 := abs_le.mpr ⟨BitVec.le_toInt _, BitVec.toInt_lt.le⟩
  have hquant : |(q[i].toNat : Int)| ≤ 2 ^ 16 - 1 := by
    rw [Nat.abs_cast]
    have := q[i].isLt
    omega
  rw [intAt_of_lt _ hi, dequantise_getElem _ _ hi, abs_mul]
  exact mul_le_mul hcoef hquant (abs_nonneg _) (by norm_num)

/-- A line of eight entries, a column or a row, is bounded as the array is. -/
theorem abs_line_le {x : Vector Int 64} {bound : Int} (hx : ∀ i < 64, |intAt x i| ≤ bound) {index : Nat → Nat}
    (hindex : ∀ n < 8, index n < 64) (n : Fin 8) : |(tabulate 8 fun k => intAt x (index k))[n]| ≤ bound := by
  rw [Fin.getElem_fin, tabulate_getElem _ _ _ n.isLt]
  exact hx _ (hindex n n.isLt)

theorem abs_column_le {x : Vector Int 64} {bound : Int} (hx : ∀ i < 64, |intAt x i| ≤ bound) {c : Nat} (hc : c < 8) (n : Fin 8) :
    |(column x c)[n]| ≤ bound := abs_line_le hx (fun k hk => by omega) n

theorem abs_row_le {x : Vector Int 64} {bound : Int} (hx : ∀ i < 64, |intAt x i| ≤ bound) {r : Nat} (hr : r < 8) (n : Fin 8) :
    |(row x r)[n]| ≤ bound := abs_line_le hx (fun k hk => by omega) n

/-- W stays below 2^36 (44_idct.md R278). -/
theorem abs_pass1_lt {x : Vector Int 64} (hx : ∀ i < 64, |intAt x i| ≤ 2 ^ 15 * (2 ^ 16 - 1)) {i : Nat} (hi : i < 64) :
    |intAt (pass1 x) i| < 2 ^ 36 := by
  have hout := abs_kernelOutputs_le (abs_column_le hx (c := i % 8) (by omega)) _ (kernel_getElem_mem _ (j := i / 8) (by omega))
  rw [intAt_pass1 x hi, intAt_of_lt _ (by omega)]
  rw [abs_le] at hout
  rw [abs_lt]
  omega

/-- Settles O57: the kernel's gain, applied to the products in pass 1 and to W in pass 2. -/
theorem idctIntermediatesFitSixtyFourBits : Obligations.IdctIntermediatesFitSixtyFourBits := by
  unfold Obligations.IdctIntermediatesFitSixtyFourBits
  refine ⟨fun v bound hv => ⟨fun n => ?_, abs_kernelTerms_le hv⟩, fun b q => ?_⟩
  · have hmem := kernel_getElem_mem v n.isLt
    exact ⟨List.mem_append_right _ hmem, abs_kernelOutputs_le hv _ hmem⟩
  have hx : ∀ i < 64, |intAt (dequantise b q) i| ≤ 2 ^ 15 * (2 ^ 16 - 1) := fun i hi => abs_dequantise_le b q hi
  have hw : ∀ i < 64, |intAt (pass1 (dequantise b q)) i| ≤ 2 ^ 36 - 1 := fun i hi => Int.le_sub_one_of_lt (abs_pass1_lt hx hi)
  refine ⟨fun i => ⟨?_, ?_⟩, fun n => ⟨fun t ht => ?_, fun t ht => ?_⟩⟩
  · rw [Fin.getElem_fin, ← intAt_of_lt]
    exact (hx i i.isLt).trans_lt (by norm_num)
  · rw [Fin.getElem_fin, ← intAt_of_lt]
    exact abs_pass1_lt hx i.isLt
  · have hterm := abs_kernelTerms_le (abs_column_le hx n.isLt) t ht
    rw [abs_le] at hterm
    rw [abs_lt, abs_lt]
    omega
  · have hterm := abs_kernelTerms_le (abs_row_le hw n.isLt) t ht
    rw [abs_le] at hterm
    rw [abs_lt, abs_lt]
    omega

end Sys2Proof.Machine
end

section
/-! The colour converter (45_color_upsample.md R290–R293): the fields of CCIN, the channels and the packed pixel in plain arithmetic. -/

namespace Sys2Proof.Machine

open Sys2Proof.Spec

/-! ### The registers CCIN, CCOUT and RESULT -/

theorem ccin_toNat (s : State) : s.ccin.toNat = s.ccY.toNat + s.ccCb.toNat * 2 ^ 8 + s.ccCr.toNat * 2 ^ 16 := by
  have := s.ccin.isLt
  simp only [State.ccY, State.ccCb, State.ccCr, BitVec.extractLsb'_toNat, Nat.shiftRight_eq_div_pow]
  omega

/-- CCIN holds its three fields and nothing else. -/
theorem ccFields_of_ccin {s : State} {y cb cr : Byte} (h : s.ccin.toNat = y.toNat + cb.toNat * 2 ^ 8 + cr.toNat * 2 ^ 16) :
    s.ccY = y ∧ s.ccCb = cb ∧ s.ccCr = cr := by
  rw [ccin_toNat] at h
  refine ⟨?_, ?_, ?_⟩ <;> bv_omega

theorem pack565_toNat (r g b : Byte) : (pack565 r g b).toNat = packed r.toNat g.toNat b.toNat := by
  have := r.isLt
  have := g.isLt
  have := b.isLt
  simp only [pack565, packed, toNat_append_eq, BitVec.extractLsb'_toNat, Nat.shiftRight_eq_div_pow]
  omega

theorem emitPixel_eq (r g b : Byte) (s : State) :
    s.emitPixel r g b = { s with
      ccout := BitVec.ofNat 24 (r.toNat + g.toNat * 2 ^ 8 + b.toNat * 2 ^ 16)
      result := BitVec.ofNat 32 (packed r.toNat g.toNat b.toNat) } := by
  have hccout : b ++ g ++ r = BitVec.ofNat 24 (r.toNat + g.toNat * 2 ^ 8 + b.toNat * 2 ^ 16) := by
    apply BitVec.eq_of_toNat_eq
    simp only [toNat_append_eq, BitVec.toNat_ofNat]
    omega
  rw [State.emitPixel, hccout, ← pack565_toNat, BitVec.ofNat_toNat]

/-! ### The channels -/

theorem channel_eq_channelValue (y : Byte) (term : Int) : ((channel y term).toNat : Int) = channelValue y term := by
  rw [channel_toNat]
  rfl

/-- Without a chroma term a channel is Y: the rounding constant alone shifts out. -/
theorem channel_zero (y : Byte) : channel y 0 = y := by
  have h : ((channel y 0).toNat : Int) = channelValue y 0 := channel_eq_channelValue y 0
  rw [channelValue] at h
  bv_omega

/-- At neutral chroma every chroma term is 0 (45_color_upsample.md R293). -/
theorem ycc_neutral (y : Byte) : yccR y 128 128 = y ∧ yccG y 128 128 = y ∧ yccB y 128 128 = y :=
  ⟨channel_zero y, channel_zero y, channel_zero y⟩

/-! ### The commands -/

theorem exec_ccYcc (s : State) : exec .ccYcc s =
    .next (s.emitPixel (yccR s.ccY s.ccCb s.ccCr) (yccG s.ccY s.ccCb s.ccCr) (yccB s.ccY s.ccCb s.ccCr)) := rfl

theorem exec_ccGray (s : State) : exec .ccGray s = .next (s.emitPixel s.ccY s.ccY s.ccY) := rfl

theorem exec_ccYcc_neutral {s : State} {y : Byte} (h : s.ccin.toNat = y.toNat + 128 * 2 ^ 8 + 128 * 2 ^ 16) :
    exec .ccYcc s = .next (s.emitPixel y y y) := by
  obtain ⟨hy, hcb, hcr⟩ := ccFields_of_ccin (cb := 128) (cr := 128) h
  obtain ⟨hr, hg, hb⟩ := ycc_neutral y
  rw [exec_ccYcc, hy, hcb, hcr, hr, hg, hb]

/-- Settles O58: the bytes are the fields of CCIN and the three channels. -/
theorem ccYccConvertsThePixel : Obligations.CcYccConvertsThePixel := by
  unfold Obligations.CcYccConvertsThePixel
  refine ⟨encodes_of_wellFormed rfl, fun s => ⟨s.ccY, s.ccCb, s.ccCr, _, _, _, ccin_toNat s, channel_eq_channelValue _ _,
    channel_eq_channelValue _ _, channel_eq_channelValue _ _, ?_⟩⟩
  rw [exec_ccYcc, emitPixel_eq]
  rfl

/-- Settles O59: CC_YCC at neutral chroma emits the pixel CC_GRAY emits, and neither writes CCIN. -/
theorem ccGrayIsYccAtNeutralChroma : Obligations.CcGrayIsYccAtNeutralChroma := by
  unfold Obligations.CcGrayIsYccAtNeutralChroma
  refine ⟨encodes_of_wellFormed rfl, fun s => ⟨s.ccY, ?_, ?_, _, exec_ccYcc_neutral ?_, rfl⟩⟩
  · rw [ccin_toNat]
    omega
  · rw [exec_ccGray, emitPixel_eq]
  · have := s.ccY.isLt
    rw [BitVec.toNat_ofNat]
    omega

end Sys2Proof.Machine
end

section
/-! The chroma upsampler (45_color_upsample.md R294–R296): the model's list of factors against the factors component by component, and the
place of the owning block and sample. -/

namespace Sys2Proof.Machine

open Sys2Proof.Spec

/-! ### The factors of the frame -/

theorem factors_getD {s : State} {c : Nat} (hc : c < s.ncomp.toNat) : s.factors.getD c (0, 0) = (upH s c, upV s c) := by
  simp [factors_eq, hc]

theorem blockOffset_factors {s : State} {c : Nat} (hc : c ≤ s.ncomp.toNat) : blockOffset s.factors c = upOff s c := by
  simp [blockOffset, upOff, factors_eq, ← List.map_take, List.take_range, hc, Function.comp_def]

/-- The model's checks are those of 45_color_upsample.md R294. -/
theorem upMapLegal_factors_iff (s : State) (c px py : Nat) : upMapLegal s.factors c px py = true ↔ UpLegal s c px py := by
  rw [upMapLegal, hMax_factors, vMax_factors, factors_eq]
  simp [UpLegal, factorOk, and_assoc]

theorem sampleX_factors {s : State} {c : Nat} (hc : c < s.ncomp.toNat) (px : Nat) : sampleX s.factors c px = upSx s c px := by
  rw [sampleX, upSx, factors_getD hc, hMax_factors]

theorem sampleY_factors {s : State} {c : Nat} (hc : c < s.ncomp.toNat) (py : Nat) : sampleY s.factors c py = upSy s c py := by
  rw [sampleY, upSy, factors_getD hc, vMax_factors]

theorem upResult_factors {s : State} {c : Nat} (hc : c < s.ncomp.toNat) (px py : Nat) :
    upResult s.factors c px py =
      BitVec.ofNat 32 ((upOff s c + upSy s c py / 8 * upH s c + upSx s c px / 8) * 2 ^ 8 + (upSy s c py % 8 * 8 + upSx s c px % 8)) := by
  rw [upResult, upBlock, upSample, factors_getD hc, blockOffset_factors hc.le, sampleX_factors hc, sampleY_factors hc]
  rfl

theorem exec_upMap (c : BitVec 2) (px py : BitVec 5) (s : State) : exec (.upMap c px py) s =
    .next (guardOperands (componentOk c && upMapLegal s.factors c.toNat px.toNat py.toNat) s
      { s with result := upResult s.factors c.toNat px.toNat py.toNat }) := rfl

/-- A legal UP_MAP passes its checks and writes RESULT alone. -/
theorem exec_upMap_of_legal {s : State} {c : BitVec 2} {px py : BitVec 5} (h : UpLegal s c.toNat px.toNat py.toNat) :
    exec (.upMap c px py) s = .next { s with result := upResult s.factors c.toNat px.toNat py.toNat } := by
  have ⟨_, hc, _⟩ := h
  rw [exec_upMap, componentOk_iff.mpr (by omega), (upMapLegal_factors_iff _ _ _ _).mpr h, Bool.and_self, guardOperands_true]

/-! ### The owning sample -/

/-- A coordinate inside an MCU of `8 * hmax` pixels, scaled by `h / hmax`, lies inside the component's `8 * h` samples
(45_color_upsample.md R296). -/
theorem scaled_lt {p h hmax : Nat} (hp : p < 8 * hmax) (hh : 1 ≤ h) : p * h / hmax < 8 * h := by
  apply Nat.div_lt_of_lt_mul
  calc p * h < 8 * hmax * h := Nat.mul_lt_mul_of_pos_right hp hh
    _ = hmax * (8 * h) := by ring

/-- A full-resolution component keeps the coordinate (45_color_upsample.md R296). -/
theorem scaled_full {p h hmax : Nat} (hp : p < 8 * hmax) (hh : h = hmax) : p * h / hmax = p := by
  rw [hh, Nat.mul_div_cancel _ (by omega)]

/-- Row-major numbering of an h × v grid stays below h * v. -/
theorem gridIndex_lt {h v x y : Nat} (hx : x < h) (hy : y < v) : y * h + x < h * v := by
  calc y * h + x < (y + 1) * h := by rw [Nat.add_one_mul]; omega
    _ ≤ v * h := Nat.mul_le_mul_right h hy
    _ = h * v := Nat.mul_comm v h

/-- At most three components of at most 16 blocks each (45_color_upsample.md R295). -/
theorem upOff_le {s : State} {c : Nat} (h : ∀ j < c, upH s j ≤ 4 ∧ upV s j ≤ 4) : upOff s c ≤ c * 16 := by
  have := List.sum_le_card_nsmul ((List.range c).map fun j => upH s j * upV s j) 16 (by
    simp only [List.mem_map, List.mem_range]
    rintro _ ⟨j, hj, rfl⟩
    exact Nat.mul_le_mul (h j hj).1 (h j hj).2)
  simpa [upOff] using this

/-- Settles O60: the scaled coordinates lie in the component's samples, so the block lies in its grid. -/
theorem upMapFindsTheOwningSample : Obligations.UpMapFindsTheOwningSample := by
  unfold Obligations.UpMapFindsTheOwningSample
  intro s c px py hlegal
  have ⟨_, hc, hfactors, hpx, hpy⟩ := hlegal
  obtain ⟨hh1, hh4, hv1, hv4⟩ := hfactors c.toNat hc
  have hsx : upSx s c.toNat px.toNat < 8 * upH s c.toNat := scaled_lt hpx hh1
  have hsy : upSy s c.toNat py.toNat < 8 * upV s c.toNat := scaled_lt hpy hv1
  have hgrid : upSy s c.toNat py.toNat / 8 * upH s c.toNat + upSx s c.toNat px.toNat / 8 < upH s c.toNat * upV s c.toNat :=
    gridIndex_lt (by omega) (by omega)
  have hblocks : upH s c.toNat * upV s c.toNat ≤ 4 * 4 := Nat.mul_le_mul hh4 hv4
  have hoff : upOff s c.toNat ≤ c.toNat * 16 := upOff_le fun j hj =>
    have ⟨_, hhj, _, hvj⟩ := hfactors j (hj.trans hc)
    ⟨hhj, hvj⟩
  refine ⟨encodes_of_wellFormed (componentOk_iff.mpr (by omega)), _, _, rfl, rfl, ?_, hsx, hsy, by omega, by omega, by omega, by omega,
    scaled_full hpx, scaled_full hpy⟩
  rw [exec_upMap_of_legal hlegal, upResult_factors hc]

end Sys2Proof.Machine
end

section
/-! SUPPORT. Exceptions (60_exceptions.md R311–R316): what an illegal command leaves, what one raised error records, and the errors a
command can add. -/

namespace Sys2Proof.Machine

open Sys2Proof.Spec

/-! ### Illegal commands -/

theorem runCommand_of_decode_error {w : Word} {e : DecodeError} (h : decode w = .error e) (s : State) :
    runCommand w s = .next (afterIllegal s) := by
  rw [runCommand, h, raise_illegal_eq_afterIllegal]

/-- A failed operand check is an illegal command (30_encoding.md R113). -/
theorem guardOperands_of_false {ok : Bool} (h : ok = false) (s run : State) : guardOperands ok s run = afterIllegal s := by
  rw [h, guardOperands_false, raise_illegal_eq_afterIllegal]

/-- The commands with a value check (30_encoding.md R116) run it before anything else; UP_MAP runs its register checks with it. -/
theorem exec_of_illFormed {i : Instr} (h : i.wellFormed = false) (s : State) : exec i s = .next (afterIllegal s) := by
  cases i
  case brGetbits | brPeekbits | htReceiveExtend | edBaseline | edDcFirst | edDcRefine | edAcFirst | edAcRefine =>
    exact congrArg Host.Outcome.next (guardOperands_of_false h _ _)
  case upMap c px py =>
    have hc : componentOk c = false := h
    rw [exec_upMap, guardOperands_of_false (by rw [hc, Bool.false_and])]
  all_goals cases h

theorem exec_upMap_of_illegal {s : State} {c : BitVec 2} {px py : BitVec 5} (h : ¬UpLegal s c.toNat px.toNat py.toNat) :
    exec (.upMap c px py) s = .next (afterIllegal s) := by
  have hl : upMapLegal s.factors c.toNat px.toNat py.toNat = false := Bool.eq_false_iff.mpr (mt (upMapLegal_factors_iff ..).mp h)
  rw [exec_upMap, guardOperands_of_false (by rw [hl, Bool.and_false])]

/-- Settles O6: a word the decoder refuses, a failed value check and a failed UP_MAP check all end in ILLEGAL raised. -/
theorem illegalCommandOnlyRaisesIllegal : Obligations.IllegalCommandOnlyRaisesIllegal := by
  unfold Obligations.IllegalCommandOnlyRaisesIllegal
  refine ⟨fun s w q e hq hw => ?_, fun i s h => exec_of_illFormed h s, fun s c px py h => exec_upMap_of_illegal h⟩
  rw [step_of_pending_command hq, runCommand_of_decode_error hw]

/-! ### One raised error -/

theorem mem_errorTable (e : ErrorCode) : (e, e.code.toNat, e.statusBit) ∈ errorTable := by
  cases e <;> decide

/-- Settles O21: the code and the sticky bit are those of the error's row of R312. -/
theorem raiseRecordsTheError : Obligations.RaiseRecordsTheError := by
  unfold Obligations.RaiseRecordsTheError
  refine fun e s => ⟨_, _, mem_errorTable e, rfl, Errors.raise_sticky_getLsbD e s.errors, ?_⟩
  rw [State.raise_errors]
  split
  case isTrue h => rw [Errors.raise_errcode_of_zero e _ h]
  case isFalse h => rw [Errors.raise_errcode_of_ne_zero e _ h]

/-! ### The errors a command adds -/

/-- The errors y are x with sticky bits of `mask` added and, if x had no code, the code of an added bit (60_exceptions.md R311, R314). -/
def Errors.Extends (mask : BitVec 7) (x y : Errors) : Prop :=
  ∃ new : BitVec 7, new &&& ~~~mask = 0#7 ∧ y.sticky = x.sticky ||| new ∧
    (x.errcode ≠ 0#4 → y.errcode = x.errcode) ∧
    (x.errcode = 0#4 → new = 0#7 → y.errcode = 0#4) ∧
    (x.errcode = 0#4 → new ≠ 0#7 → ∃ e : ErrorCode, y.errcode = e.code ∧ new.getLsbD (e.statusBit - 8) = true)

theorem Errors.Extends.refl (mask : BitVec 7) (x : Errors) : x.Extends mask x :=
  ⟨0#7, BitVec.zero_and, BitVec.or_zero.symm, fun _ => rfl, fun h _ => h, fun _ h => absurd rfl h⟩

/-- Every sticky bit of R312 is one of the seven. -/
theorem twoPow_statusBit_getLsbD (e : ErrorCode) : (BitVec.twoPow 7 (e.statusBit - 8)).getLsbD (e.statusBit - 8) = true := by
  cases e <;> decide

/-- An error of the mask raised on top: its bit joins the added ones, its code is recorded only if none was before. -/
theorem Errors.Extends.raise {mask : BitVec 7} {x y : Errors} (h : x.Extends mask y) {e : ErrorCode}
    (he : mask.getLsbD (e.statusBit - 8) = true) : x.Extends mask (y.raise e) := by
  obtain ⟨new, hmask, hsticky, hkept, hnone, hfirst⟩ := h
  have hbit : (new ||| BitVec.twoPow 7 (e.statusBit - 8)).getLsbD (e.statusBit - 8) = true := by
    rw [BitVec.getLsbD_or, twoPow_statusBit_getLsbD, Bool.or_true]
  refine ⟨new ||| BitVec.twoPow 7 (e.statusBit - 8), ?_, ?_, fun hx => ?_, fun _ h0 => ?_, fun hx _ => ?_⟩
  · rw [BitVec.and_or_distrib_right, hmask, BitVec.twoPow_and]
    simp [he]
  · exact (congrArg (· ||| _) hsticky).trans (BitVec.or_assoc ..)
  · rw [Errors.raise_errcode_of_ne_zero e y (by rwa [hkept hx]), hkept hx]
  · simp [h0] at hbit
  · by_cases hy : y.errcode = 0#4
    · exact ⟨e, Errors.raise_errcode_of_zero e y hy, hbit⟩
    · obtain ⟨e', hcode, hbit'⟩ := hfirst hx (mt (hnone hx) hy)
      exact ⟨e', by rw [Errors.raise_errcode_of_ne_zero e y hy, hcode], by rw [BitVec.getLsbD_or, hbit', Bool.true_or]⟩

/-- Settles O20: the errors a command can raise are among its mask's, and each raised on top keeps the record an extension. -/
theorem commandsRaiseOnlyTheirErrors : Obligations.CommandsRaiseOnlyTheirErrors := by
  unfold Obligations.CommandsRaiseOnlyTheirErrors
  intro i s t hwf hi h
  refine exec_errors_ind (P := s.errors.Extends (mayRaise i)) h hi (fun e he x hx => ?_) (.refl _ _)
  rcases he with he | ⟨hill, _⟩
  · exact hx.raise he
  · rw [hwf] at hill
    cases hill

end Sys2Proof.Machine
end
